-- ==== Sys2Proof/Word.lean ====
section
/-! DEFINITION. The byte, and the three banks with a thing for each bank
(spec/00_scope.md R8, R10, R11). -/

namespace Sys2Proof

/-- A byte: 8 bits numbered 7 down to 0; every operation on it is unsigned (R10, R11). -/
abbrev Byte := BitVec 8

/-- A pin bank. There are `NBANKS = 3` of them, numbered in the order in which they appear in a
Setup payload and in a vector (R8, R10). -/
inductive Bank where
  | b0
  | b1
  | b2
deriving DecidableEq, Repr

/-- The bank's number, 0 to 2. -/
def Bank.index : Bank → Nat
  | .b0 => 0
  | .b1 => 1
  | .b2 => 2

/-- One thing for each bank. -/
structure PerBank (α : Type) where
  b0 : α
  b1 : α
  b2 : α
deriving DecidableEq, Repr

/-- The thing of bank `b`. -/
def PerBank.get {α : Type} (x : PerBank α) : Bank → α
  | .b0 => x.b0
  | .b1 => x.b1
  | .b2 => x.b2

/-- The same things, but `v` for bank `b`. -/
def PerBank.set {α : Type} (x : PerBank α) (b : Bank) (v : α) : PerBank α :=
  match b with
  | .b0 => { x with b0 := v }
  | .b1 => { x with b1 := v }
  | .b2 => { x with b2 := v }

end Sys2Proof
end

