-- ==== Sys2Proof/Config.lean ====
section
/-! DEFINITION. The parameters the source leaves open, as one record with this spec's defaults
(spec/00_scope.md R8, R9), the event history's events (R16), and the environment the CORE works in
(spec/10_state.md R27, R38). The free values are the opaque constants `Config.dut`, `Config.draw`,
`Config.rasPwOpen` and `Config.fClkOpen`: they have no body. -/

namespace Sys2Proof

/-- The four named delays (R14, spec/70_reset_and_hazards.md R296). -/
inductive DelayName where
  /-- `T_SETTLE`, the logic engine's `settle()`. -/
  | settle
  /-- `T_CAC`, `minColumnStrobeToDataValid`. -/
  | cac
  /-- `T_POWERUP`, `minPowerUpSettle`. -/
  | powerUp
  /-- `T_RAS_PW`, `minRowStrobePulseWidth`. -/
  | rasPw
deriving DecidableEq, Repr

/-- An event of the history `H` (R16). -/
inductive Event where
  /-- `Dir(b, v)`: the direction register of bank `b` was written. -/
  | dir (b : Bank) (v : Byte)
  /-- `Wr(b, v)`: the output register of bank `b` was written. -/
  | wr (b : Bank) (v : Byte)
  /-- `Rd(b, v)`: the input register of bank `b` was read and gave `v`. -/
  | rd (b : Bank) (v : Byte)
  /-- `Dly(name)`: a minimum delay was waited. -/
  | dly (n : DelayName)
  /-- `Inh(v)`: `irq_inhibit` was set to `v` (spec/60_exceptions.md R257). -/
  | inh (v : Bool)
  /-- `Tx(v)`: the reply byte `v` was sent. -/
  | tx (v : Byte)
deriving DecidableEq, Repr

/-- What the DUT does on the eight pins of a bank at one read: the pins it drives, and the level it
drives on each (a level counts only where `drives` has a 1; R27). -/
structure PinDrive where
  drives : Byte
  level : Byte
deriving DecidableEq, Repr, Inhabited

/-- The environment of R38: what the DUT drives, and the level a floating pin shows, at a read of a
bank, as functions of every event so far, those before a hardware reset included (log entry 21). The
events grow by every read, so a floating pin is drawn afresh at each one (R27). It is an argument of the engines' operations, never a field of State. -/
structure Env where
  dut : List Event → Bank → PinDrive
  draw : List Event → Bank → Byte

/-- The named arguments of R9, in the order of its table. -/
structure Params where
  typeComb : Byte
  typeSeq : Byte
  typeMem : Byte
  resOk : Byte
  resErr : Byte
  resPass : Byte
  resFail : Byte
  maxRepExp : Nat
  memLBank : Bank
  memHBank : Bank
  lAPos : Nat
  lWe : Nat
  lRas : Nat
  lDin : Nat
  hAPos : Nat
  hCas : Nat
  hDout : Nat
  /-- `T_SETTLE`, in periods of `clk`. -/
  tSettle : Nat
  /-- `T_CAC`, in periods of `clk`. -/
  tCac : Nat
  /-- `T_POWERUP`, in microseconds. -/
  tPowerUp : Nat
  /-- `T_RAS_PW`, in periods of `clk`. -/
  tRasPw : Nat
  /-- `F_CLK`, in hertz; used only to turn microseconds into periods. -/
  fClk : Nat
deriving DecidableEq, Repr

/-- The constraints R9 puts on its parameters, with those of spec/43_dram_engine.md R181 on the bit
positions and of spec/10_state.md R32 on `MAX_REP_EXP` (`rep` is 16 bits wide). -/
abbrev Params.Valid (P : Params) : Prop :=
  (P.typeComb ≠ P.typeSeq ∧ P.typeComb ≠ P.typeMem ∧ P.typeSeq ≠ P.typeMem) ∧
  [P.resOk, P.resErr, P.resPass, P.resFail].Nodup ∧
  P.maxRepExp ≤ 15 ∧
  P.memLBank ≠ P.memHBank ∧
  (P.lAPos ≤ 5 ∧ P.lWe < 8 ∧ P.lRas < 8 ∧ P.lDin < 8) ∧
  [P.lAPos, P.lAPos + 1, P.lAPos + 2, P.lWe, P.lRas, P.lDin].Nodup ∧
  (P.hAPos ≤ 3 ∧ P.hCas < 8 ∧ P.hDout < 8) ∧
  [P.hAPos, P.hAPos + 1, P.hAPos + 2, P.hAPos + 3, P.hAPos + 4, P.hCas, P.hDout].Nodup ∧
  (1 ≤ P.tSettle ∧ 2 ≤ P.tCac ∧ 100 ≤ P.tPowerUp ∧ 1 ≤ P.tRasPw)

/-- Periods of `clk` the delay unit counts for a delay (spec/60_exceptions.md R264): 100 µs becomes a
count by `F_CLK`, rounded up. No meaning reads it: a delay is an event and nothing else (R14). -/
def Params.delayCycles (P : Params) : DelayName → Nat
  | .settle => P.tSettle
  | .cac => P.tCac
  | .powerUp => (P.tPowerUp * P.fClk + 999999) / 1000000
  | .rasPw => P.tRasPw

/-- FREE VALUE (log entry 10): `T_RAS_PW` is OPEN in R9; only that it is positive is used. -/
opaque Config.rasPwOpen : Nat

/-- FREE VALUE (log entry 10): `F_CLK` is OPEN in R9. -/
opaque Config.fClkOpen : Nat

/-- FREE VALUE (log entry 1): what the DUT drives at a read of a bank, given the events so
far. -/
opaque Config.dut : List Event → Bank → PinDrive

/-- FREE VALUE (log entry 2): the level a floating pin shows at a read of a bank, given the events so
far. -/
opaque Config.draw : List Event → Bank → Byte

/-- The defaults of R9's table (log entries 7 to 10). -/
def Config.params : Params where
  typeComb := 0x00#8
  typeSeq := 0x01#8
  typeMem := 0x02#8
  resOk := 0x00#8
  resErr := 0x01#8
  resPass := 0x02#8
  resFail := 0x03#8
  maxRepExp := 15
  memLBank := .b0
  memHBank := .b1
  lAPos := 0
  lWe := 3
  lRas := 4
  lDin := 5
  hAPos := 0
  hCas := 5
  hDout := 6
  tSettle := 1
  tCac := 2
  tPowerUp := 100
  tRasPw := Config.rasPwOpen + 1
  fClk := Config.fClkOpen

/-- The environment the CORE of this model works in: nothing is known of it (R38). -/
def Config.env : Env := ⟨Config.dut, Config.draw⟩

end Sys2Proof
end

