-- ==== Sys2Proof/Syntax.lean ====
section
/-! DEFINITION. The commands as syntax: one constructor for each row of spec/opcode_table.json, with
the bytes the encoding gives it (spec/30_encoding.md R90 to R96), and the control phases
(spec/10_state.md R37). -/

namespace Sys2Proof

/-- The three masks of one bank, in the order in which Setup sends them (spec/10_state.md R21). -/
structure PinBank where
  used : Byte
  direction : Byte
  idlePull : Byte
deriving DecidableEq, Repr

/-- A vector: three bytes, one for each bank (spec/10_state.md R29). -/
abbrev Vec := PerBank Byte

/-- The type of a test session (spec/10_state.md R28). -/
inductive SessionType where
  | combinational
  | sequential
  | memory
deriving DecidableEq, Repr

/-- The four replies (spec/10_state.md R33, spec/30_encoding.md R99). -/
inductive Result where
  | ok
  | err
  | pass
  | fail
deriving DecidableEq, Repr

/-- What an engine yields: "engine output only ever yields Pass/Fail" (spec/10_state.md R33). -/
inductive Verdict where
  | pass
  | fail
deriving DecidableEq, Repr

/-- The top-level control state (spec/10_state.md R37); `k` is the number of bytes so far of the part
being received. -/
inductive Phase where
  | waitCmd
  | rxSetup (k : Nat)
  | rxUploadHdr (k : Nat)
  | rxUploadVec (k : Nat)
  | rxRun
  | running
  | reply
deriving DecidableEq, Repr

/-- A command. `low` is bits 4..0 of the command byte, which are unused (R91); every other operand is
a byte as it was sent. -/
inductive Instr where
  /-- Setup, opcode 0, format S (R93). -/
  | setup (low : BitVec 5) (banks : PerBank PinBank)
  /-- Upload, opcode 1, format U (R94). -/
  | upload (low : BitVec 5) (type lengthHi lengthLo : Byte) (vectors : List Vec)
  /-- Run, opcode 2, format R (R95). -/
  | run (low : BitVec 5) (exponent : Byte)
  /-- Unrecognised, opcode 3, format E (R96). -/
  | bad3 (low : BitVec 5)
  /-- Unrecognised, opcode 4, format E (R96). -/
  | bad4 (low : BitVec 5)
  /-- Unrecognised, opcode 5, format E (R96). -/
  | bad5 (low : BitVec 5)
  /-- Unrecognised, opcode 6, format E (R96). -/
  | bad6 (low : BitVec 5)
  /-- Unrecognised, opcode 7, format E (R96). -/
  | bad7 (low : BitVec 5)
deriving DecidableEq, Repr

end Sys2Proof
end

