-- ==== Sys2Proof/WellFormed.lean ====
section
/-! DEFINITION. Which commands are within the contract (spec/30_encoding.md R100 to R102, R105). -/

namespace Sys2Proof

/-- The type byte encodes one of the three types (R100). -/
def typeWithinContract (P : Params) (t : Byte) : Bool :=
  t == P.typeComb || t == P.typeSeq || t == P.typeMem

/-- The length the two length bytes spell is at most `MAX_VECTORS = 1024` (R101). -/
def lengthWithinContract (hi lo : Byte) : Bool :=
  decide (256 * hi.toNat + lo.toNat ≤ 1024)

/-- The exponent is at most `MAX_REP_EXP` (R102). -/
def exponentWithinContract (P : Params) (e : Byte) : Bool :=
  decide (e.toNat ≤ P.maxRepExp)

/-- An Upload carries exactly as many vectors as its length bytes say (R94). -/
def vectorsFillLength (hi lo : Byte) (vs : List Vec) : Bool :=
  vs.length == 256 * hi.toNat + lo.toNat

/-- A command within the contract: the conditions of R105 on its field values, and Upload's vector
count. That a Run needs `PB` and `TS` written is a condition on the state, not on the command. -/
def Instr.wf (P : Params) : Instr → Bool
  | .setup _ _ => true
  | .upload _ t hi lo vs =>
      typeWithinContract P t && lengthWithinContract hi lo && vectorsFillLength hi lo vs
  | .run _ e => exponentWithinContract P e
  | .bad3 _ => true
  | .bad4 _ => true
  | .bad5 _ => true
  | .bad6 _ => true
  | .bad7 _ => true

/-- Well-formed for the parameters of this model. -/
abbrev WellFormed (i : Instr) : Prop := i.wf Config.params = true

end Sys2Proof
end

