-- ==== Sys2Proof/Decode.lean ====
section
/-! DEFINITION. From bytes to a command (spec/30_encoding.md R90 to R97, R101), total on any bytes,
naming the phase a command that is not complete is in (spec/10_state.md R37); then the encoder, written
from the same tables; then the decoder on words numbered as spec/opcode_table.json numbers them. -/

namespace Sys2Proof

/-! ## Fields -/

/-- `opcode = cmd[7:5]` (R91). -/
def opcodeField (cmd : Byte) : BitVec 3 := cmd.extractLsb' 5 3

/-- `cmd[4:0]`, the unused bits (R91). -/
def unusedField (cmd : Byte) : BitVec 5 := cmd.extractLsb' 0 5

/-- `length = 256*length_hi + length_lo` (R101). -/
def assembleLength (hi lo : Byte) : Nat := 256 * hi.toNat + lo.toNat

/-- The largest legal length, `MAX_VECTORS` (spec/00_scope.md R8). -/
def maxVectors : Nat := 1024

/-- The header of an Upload after which its vectors are received: a known type and a length of at most
1024. After any other header the command is refused where it stands (spec/44_commands.md R231, R232). -/
def headerAccepted (P : Params) (t hi lo : Byte) : Bool :=
  (t == P.typeComb || t == P.typeSeq || t == P.typeMem) && decide (assembleLength hi lo ≤ maxVectors)

/-- The eight values of the opcode field, each with its command (R92). -/
inductive Opcode where
  | setup
  | upload
  | run
  | bad3
  | bad4
  | bad5
  | bad6
  | bad7
deriving DecidableEq, Repr

/-- The opcode's bits (R92). -/
def opcodeBits : Opcode → BitVec 3
  | .setup => 0#3
  | .upload => 1#3
  | .run => 2#3
  | .bad3 => 3#3
  | .bad4 => 4#3
  | .bad5 => 5#3
  | .bad6 => 6#3
  | .bad7 => 7#3

/-- The opcode of the bits: "All eight values are thus given; no opcode is undefined" (R92). -/
def opcodeOf (c : BitVec 3) : Opcode :=
  match c.toNat with
  | 0 => .setup
  | 1 => .upload
  | 2 => .run
  | 3 => .bad3
  | 4 => .bad4
  | 5 => .bad5
  | 6 => .bad6
  | _ => .bad7

/-! ## Decoding -/

/-- What the decoder says of the bytes at the head of the channel. -/
inductive DecodeResult where
  /-- A command, and the bytes after it. -/
  | done (i : Instr) (rest : List Byte)
  /-- Not a whole command yet: the phase the CORE is in after taking all of these bytes. -/
  | more (p : Phase)
deriving DecidableEq, Repr

/-- `n` vectors of three bytes each, bank 0 first, and the bytes after them (R94). -/
def takeVectors : Nat → List Byte → Option (List Vec × List Byte)
  | 0, bs => some ([], bs)
  | n + 1, a :: b :: c :: bs =>
      match takeVectors n bs with
      | some (vs, rest) => some (⟨a, b, c⟩ :: vs, rest)
      | none => none
  | _ + 1, _ => none

/-- The payload of Setup: nine bytes (R93). -/
def decodeSetup (low : BitVec 5) : List Byte → DecodeResult
  | u0 :: d0 :: p0 :: u1 :: d1 :: p1 :: u2 :: d2 :: p2 :: rest =>
      .done (.setup low ⟨⟨u0, d0, p0⟩, ⟨u1, d1, p1⟩, ⟨u2, d2, p2⟩⟩) rest
  | short => .more (.rxSetup short.length)

/-- The payload of Upload: three header bytes, then `3*length` bytes (R94, R97). -/
def decodeUpload (P : Params) (low : BitVec 5) : List Byte → DecodeResult
  | t :: hi :: lo :: bs =>
      if headerAccepted P t hi lo then
        match takeVectors (assembleLength hi lo) bs with
        | some (vs, rest) => .done (.upload low t hi lo vs) rest
        | none => .more (.rxUploadVec bs.length)
      else .done (.upload low t hi lo []) bs
  | short => .more (.rxUploadHdr short.length)

/-- The payload of Run: one byte (R95). -/
def decodeRun (low : BitVec 5) : List Byte → DecodeResult
  | e :: rest => .done (.run low e) rest
  | [] => .more .rxRun

/-- The decoder (R97): the command byte gives the opcode, the opcode the payload. -/
def decode (P : Params) : List Byte → DecodeResult
  | [] => .more .waitCmd
  | cmd :: bs =>
      match opcodeOf (opcodeField cmd) with
      | .setup => decodeSetup (unusedField cmd) bs
      | .upload => decodeUpload P (unusedField cmd) bs
      | .run => decodeRun (unusedField cmd) bs
      | .bad3 => .done (.bad3 (unusedField cmd)) bs
      | .bad4 => .done (.bad4 (unusedField cmd)) bs
      | .bad5 => .done (.bad5 (unusedField cmd)) bs
      | .bad6 => .done (.bad6 (unusedField cmd)) bs
      | .bad7 => .done (.bad7 (unusedField cmd)) bs

/-! ## Encoding -/

/-- The command byte: the opcode above the unused bits (R91). -/
def commandByte (o : Opcode) (low : BitVec 5) : Byte := opcodeBits o ++ low

/-- The three bytes of one bank of a Setup payload (R93). -/
def encodeBank (c : PinBank) : List Byte := [c.used, c.direction, c.idlePull]

/-- The three bytes of a vector (R94). -/
def encodeVec (v : Vec) : List Byte := [v.b0, v.b1, v.b2]

/-- The bytes of a command (R93 to R96). -/
def encode : Instr → List Byte
  | .setup low c =>
      commandByte .setup low :: (encodeBank c.b0 ++ encodeBank c.b1 ++ encodeBank c.b2)
  | .upload low t hi lo vs => commandByte .upload low :: t :: hi :: lo :: vs.flatMap encodeVec
  | .run low e => [commandByte .run low, e]
  | .bad3 low => [commandByte .bad3 low]
  | .bad4 low => [commandByte .bad4 low]
  | .bad5 low => [commandByte .bad5 low]
  | .bad6 low => [commandByte .bad6 low]
  | .bad7 low => [commandByte .bad7 low]

/-- The commands the decoder can answer with: an Upload holds the vectors its length bytes announce,
or none where its header is refused. Every other command of the syntax qualifies. -/
def framed (P : Params) : Instr → Bool
  | .upload _ t hi lo vs =>
      if headerAccepted P t hi lo then vs.length == assembleLength hi lo else vs.isEmpty
  | .setup _ _ => true
  | .run _ _ => true
  | .bad3 _ => true
  | .bad4 _ => true
  | .bad5 _ => true
  | .bad6 _ => true
  | .bad7 _ => true

/-! ## Words as spec/opcode_table.json numbers their bits -/

/-- Byte `k` of a word: bits `8k+7` down to `8k`, the first byte least significant. -/
def wordByte (w k : Nat) : Byte := BitVec.ofNat 8 (w >>> (8 * k))

/-- The bytes of a word of `nbits` bits, in the order of the channel. -/
def wordBytes (nbits w : Nat) : List Byte :=
  (List.range ((nbits + 7) / 8)).map (wordByte w)

/-- How many bytes the command that begins with these bytes has (R97), the bytes not there counted as
0x00. -/
def commandLength (P : Params) (bs : List Byte) : Nat :=
  match opcodeOf (opcodeField (bs.getD 0 0#8)) with
  | .setup => 10
  | .upload =>
      if headerAccepted P (bs.getD 1 0#8) (bs.getD 2 0#8) (bs.getD 3 0#8) then
        4 + 3 * assembleLength (bs.getD 2 0#8) (bs.getD 3 0#8)
      else 4
  | .run => 2
  | .bad3 => 1
  | .bad4 => 1
  | .bad5 => 1
  | .bad6 => 1
  | .bad7 => 1

/-- The bytes of the one command a word stands for: the word's bytes, then 0x00 for every byte the
word does not give, and nothing after the command. -/
def wordCommand (P : Params) (nbits w : Nat) : List Byte :=
  let bs := wordBytes nbits w
  (bs ++ List.replicate (commandLength P bs - bs.length) 0#8).take (commandLength P bs)

/-- The command the decoder reads from a word of the opcode table. -/
def decodeTableWord (nbits w : Nat) : Option Instr :=
  match decode Config.params (wordCommand Config.params nbits w) with
  | .done i _ => some i
  | .more _ => none

end Sys2Proof
end

