-- ==== Sys2Proof/Machine/State.lean ====
section
/-! DEFINITION. The state of the CORE (spec/10_state.md R20 to R42) as plain data, why a step can
stop, and the state right after reset (R40, spec/70_reset_and_hazards.md R280). -/

namespace Sys2Proof.Machine

/-- The record of the bus signals the DRAM engine last presented (R34): each field is the level of its
line (spec/43_dram_engine.md R183), `aL` being A0 to A2 and `aH` being A3 to A7. -/
structure MBus where
  aL : BitVec 3
  we : Bool
  ras : Bool
  din : Bool
  aH : BitVec 5
  cas : Bool
deriving DecidableEq, Repr

/-- The bytes of the Vector Store by address, strictly rising, no entry equal to what an unlisted
address reads as (spec/20_memory.md R61; log entry 6). -/
abbrev Memory := List Host.Cell

/-- Everything the spec gives the machine. `IN[b]` is not stored (R25). -/
structure State where
  /-- `PB[0..2]` (R21). -/
  pb : PerBank PinBank
  /-- `PB` is written (R39). -/
  pbWritten : Bool
  /-- `DDR[0..2]` (R23). -/
  ddr : PerBank Byte
  /-- `OUT[0..2]` (R24). -/
  out : PerBank Byte
  /-- `TS.type` (R28). -/
  tsType : SessionType
  /-- `TS.length`, 11 bits (R28). -/
  tsLength : BitVec 11
  /-- `TS` is written (R39). -/
  tsWritten : Bool
  /-- `VS` (R29, spec/20_memory.md R61). -/
  vs : Memory
  /-- `pos`, the vector index (R31). -/
  pos : BitVec 11
  /-- `rep`, the repetitions still to run (R32). -/
  rep : BitVec 16
  /-- `result` (R33). -/
  result : Verdict
  /-- `row` (R34). -/
  row : BitVec 9
  /-- `col` (R34). -/
  col : BitVec 9
  /-- `pat` (R34). -/
  pat : Bool
  /-- `pulse` (R34). -/
  pulse : BitVec 4
  /-- `mbus` (R34). -/
  mbus : MBus
  /-- `irq_inhibit` (R35). -/
  irqInhibit : Bool
  /-- `rx`, from the host, head first (R36). -/
  rx : List Byte
  /-- `tx`, to the host, oldest first (R36). -/
  tx : List Byte
  /-- `phase` (R37). -/
  phase : Phase
  /-- The model's own field: the bytes of the command in reception, which R37's phases count (log entry
  12). -/
  cmdBuf : List Byte
  /-- The history `H`, oldest event first: the spec's bookkeeping, which the hardware never reads
  (spec/00_scope.md R16). -/
  history : List Event
  /-- The model's own field: what the environment saw before the history began, oldest event first: the
  histories that hardware resets ended, each with the events of its reset (log entry 21). -/
  past : List Event
  /-- The model's own field: answers of the DUT written out as data, used up one for each read before
  the environment is asked (log entry 1). -/
  pinScript : List PinDrive
deriving DecidableEq, Repr

/-- Why a step can end in a fault. The hardware has none (spec/60_exceptions.md R253). -/
inductive Fault where
  /-- Raised by `step` alone, for a state whose phase is `RUNNING` or `REPLY`: this model executes a
  command in one step, so no step ends in such a state and no run reaches one. Safe (log entry 11). -/
  | midCommand
deriving DecidableEq, Repr

/-- Why a step can be refused: the complete list of spec/60_exceptions.md R254, after the host's own
first constructor. -/
inductive Refusal where
  /-- An instruction without a meaning. No arm of `exec` answers it. Safe. -/
  | notModelled (mnemonic : String)
  /-- `BadType`: raised by Upload for a type byte that is none of the three encodings. Safe. -/
  | badType
  /-- `LengthOverflow`: raised by Upload for a length above 1024. Safe. -/
  | lengthOverflow
  /-- `ExponentTooLarge`: raised by Run for an exponent above `MAX_REP_EXP`. Safe. -/
  | exponentTooLarge
  /-- `NotConfigured`: raised by Run while `PB` or `TS` is unwritten. Safe. -/
  | notConfigured
deriving DecidableEq, Repr

/-- The machine right after power-on (R40, spec/70_reset_and_hazards.md R280). The values of `pb`,
`tsType`, `tsLength` and `pos` to `mbus` are the model's (log entries 3 to 5); `vs` lists nothing (log
entry 6). -/
def State.reset : State where
  pb := ⟨⟨0, 0, 0⟩, ⟨0, 0, 0⟩, ⟨0, 0, 0⟩⟩
  pbWritten := false
  ddr := ⟨0, 0, 0⟩
  out := ⟨0, 0, 0⟩
  tsType := .combinational
  tsLength := 0
  tsWritten := false
  vs := []
  pos := 0
  rep := 0
  result := .pass
  row := 0
  col := 0
  pat := false
  pulse := 0
  mbus := ⟨0, false, false, false, 0, false⟩
  irqInhibit := false
  rx := []
  tx := []
  phase := .waitCmd
  cmdBuf := []
  history := []
  past := []
  pinScript := []

end Sys2Proof.Machine
end

