-- ==== Sys2Proof/Machine/Operands.lean ====
section
/-! DEFINITION. Every operand form: the session type, Vector Store addresses, the mask formulas of the
pin banks, the byte a port read gives, the address split and the bus images of the DRAM engine. -/

namespace Sys2Proof.Machine

/-! ## Operands of the commands -/

/-- The type a type byte encodes (spec/30_encoding.md R100). -/
def decodeType (P : Params) (t : Byte) : Option SessionType :=
  if t = P.typeComb then some .combinational
  else if t = P.typeSeq then some .sequential
  else if t = P.typeMem then some .memory
  else none

/-- `repetitions = 2^exponent` (spec/30_encoding.md R102). -/
def repetitions (e : Byte) : Nat := 2 ^ e.toNat

/-- The reply byte of a result (spec/30_encoding.md R99). -/
def resultByte (P : Params) : Result → Byte
  | .ok => P.resOk
  | .err => P.resErr
  | .pass => P.resPass
  | .fail => P.resFail

/-- Run's reply to a verdict (spec/44_commands.md R234). -/
def verdictResult : Verdict → Result
  | .pass => .pass
  | .fail => .fail

/-! ## The Vector Store -/

/-- The address of the byte of vector `p` for bank `b` (spec/20_memory.md R61). -/
def vecAddress (p : Nat) (b : Bank) : Nat := 3 * p + b.index

/-- The store's size in bytes (spec/20_memory.md R60). -/
def storeBytes : Nat := 3072

/-! ## The pin banks -/

/-- What `configure` puts in a bank's direction register (spec/40_pin_bank_driver.md R121). -/
def directionByte (c : PinBank) : Byte := c.used &&& c.direction

/-- What `drive` puts in a bank's output register for a vector byte (R123). -/
def driveByte (c : PinBank) (v : Byte) : Byte :=
  let data := v &&& c.direction
  let pull := c.idlePull &&& ~~~c.direction
  c.used &&& (data ||| pull)

/-- The pins `sample` and `expect` look at: connected, and driven by the DUT (R125,
spec/42_generic_logic_comparator.md R164). -/
def sampleMask (c : PinBank) : Byte := ~~~c.direction &&& c.used

/-- `expect(b, v)` for a bank with the masks `c` (spec/42_generic_logic_comparator.md R164). -/
def expectByte (c : PinBank) (v : Byte) : Byte := v &&& ~~~c.direction &&& c.used

/-- The byte a port read gives (spec/10_state.md R27): the driven level where `DDR` is 1; elsewhere the
DUT's level where it drives, else 1 where `OUT` pulls, else the draw. -/
def inputByte (ddr out : Byte) (dut : PinDrive) (draw : Byte) : Byte :=
  (ddr &&& out) |||
    (~~~ddr &&& ((dut.drives &&& dut.level) ||| (~~~dut.drives &&& (out ||| draw))))

/-! ## The DRAM bus -/

/-- `row(addr) = addr[15:8]` (spec/43_dram_engine.md R185). -/
def rowOf (addr : BitVec 16) : Byte := addr.extractLsb' 8 8

/-- `col(addr) = addr[7:0]` (R185). -/
def colOf (addr : BitVec 16) : Byte := addr.extractLsb' 0 8

/-- `low(h) = h[2:0]`, for A0 to A2 (R185). -/
def lowField (h : Byte) : BitVec 3 := h.extractLsb' 0 3

/-- `high(h) = h[7:3]`, for A3 to A7 (R185). -/
def highField (h : Byte) : BitVec 5 := h.extractLsb' 3 5

/-- One signal's level at its bit of a port. -/
def lineAt (level : Bool) (i : Nat) : Byte := (BitVec.ofBool level).setWidth 8 <<< i

/-- `busL(m)`, the image of the bus record on port L (R184). -/
def busL (P : Params) (m : MBus) : Byte :=
  (m.aL.setWidth 8 <<< P.lAPos) ||| lineAt m.we P.lWe ||| lineAt m.ras P.lRas ||| lineAt m.din P.lDin

/-- `busH(m)`, the image of the bus record on port H (R184). -/
def busH (P : Params) (m : MBus) : Byte :=
  (m.aH.setWidth 8 <<< P.hAPos) ||| lineAt m.cas P.hCas

/-- `DIRL` (R182). -/
def dirL (P : Params) : Byte :=
  (0b111#8 <<< P.lAPos) ||| (1#8 <<< P.lWe) ||| (1#8 <<< P.lRas) ||| (1#8 <<< P.lDin)

/-- `DIRH` (R182): `DOUT` is an input (spec/90_conflicts.md C2). -/
def dirH (P : Params) : Byte := (0b11111#8 <<< P.hAPos) ||| (1#8 <<< P.hCas)

end Sys2Proof.Machine
end

