-- ==== Sys2Proof/Machine/Flags.lean ====
section
/-! DEFINITION. How `result`, the CORE's only status value (spec/10_state.md R33), comes about: which
vectors are checked and what a comparison yields. -/

namespace Sys2Proof.Machine

/-- `samples(type, pos)` (spec/42_generic_logic_comparator.md R163). -/
def samples (type : SessionType) (pos : BitVec 11) : Bool :=
  match type with
  | .combinational => true
  | .sequential => pos.getLsbD 0
  | .memory => false

/-- The verdict of comparing a sampled bank with its expected byte (R161, R165). -/
def bankVerdict (sampled expected : Byte) : Verdict :=
  if sampled = expected then .pass else .fail

/-- The verdict of comparing a sampled `DOUT` bit with the bit written
(spec/43_dram_engine.md R197, R206). -/
def bitVerdict (sampled written : Bool) : Verdict :=
  if sampled = written then .pass else .fail

end Sys2Proof.Machine
end

