-- ==== Sys2Proof/Machine/Ops.lean ====
section
/-! DEFINITION. The named operations over registers, ports, channel and memory (spec/00_scope.md R12
to R15, spec/20_memory.md R60 to R64), the Err reply and the path on which every Run ends, Pass or Fail
(spec/60_exceptions.md R250, R257, R259, R261). Each register is written by one of these and by nothing
else. -/

namespace Sys2Proof.Machine

/-! ## The Vector Store -/

/-- What an address of the store that lists nothing reads as (log entry 6). -/
def unlistedByte : Byte := 0x00#8

/-- `MemRead(VS, a, 1)` (spec/20_memory.md R62). -/
def Memory.read : Memory → Nat → Byte
  | [], _ => unlistedByte
  | (b, w) :: m, a => if a = b then w else Memory.read m a

/-- `MemWrite(VS, a, 1, v)` (spec/20_memory.md R62), keeping the canonical form. -/
def Memory.write : Memory → Nat → Byte → Memory
  | [], a, v => if v = unlistedByte then [] else [(a, v)]
  | (b, w) :: m, a, v =>
      if a < b then (if v = unlistedByte then (b, w) :: m else (a, v) :: (b, w) :: m)
      else if a = b then (if v = unlistedByte then m else (a, v) :: m)
      else (b, w) :: Memory.write m a v

/-- The canonical form: addresses of the store, strictly rising, no entry an unlisted address would
read as. -/
def Memory.wf (m : Memory) : Bool :=
  decide (m.Pairwise fun x y => x.1 < y.1) &&
    m.all fun c => decide (c.1 < storeBytes) && decide (c.2 ≠ unlistedByte)

/-! ## History and ports -/

/-- Append an event to the history (spec/00_scope.md R16). -/
def record (e : Event) (s : State) : State := { s with history := s.history ++ [e] }

/-- `SetDir(b, v)` (spec/00_scope.md R13). -/
def setDir (b : Bank) (v : Byte) (s : State) : State :=
  { s with ddr := s.ddr.set b v, history := s.history ++ [.dir b v] }

/-- `PortWrite(b, v)` (spec/00_scope.md R13). -/
def portWrite (b : Bank) (v : Byte) (s : State) : State :=
  { s with out := s.out.set b v, history := s.history ++ [.wr b v] }

/-- Every event the environment has seen: those before the last hardware reset, then the history. It
grows by every read and never shrinks (log entries 2 and 21). -/
def observed (s : State) : List Event := s.past ++ s.history

/-- What the DUT does at the next read of bank `b`: the next scripted answer, or else what the
environment answers to the events so far (spec/10_state.md R38; log entries 1 and 21). -/
def dutAnswer (E : Env) (b : Bank) (s : State) : PinDrive :=
  match s.pinScript with
  | a :: _ => a
  | [] => E.dut (observed s) b

/-- `IN[b]` at this moment (spec/10_state.md R25, R27); a floating pin's level is a fresh draw
(spec/42_generic_logic_comparator.md R169; log entries 2 and 21). -/
def portInput (E : Env) (b : Bank) (s : State) : Byte :=
  inputByte (s.ddr.get b) (s.out.get b) (dutAnswer E b s) (E.draw (observed s) b)

/-- What `PortRead(b)` leaves: the read recorded, a scripted answer used up (spec/00_scope.md R13). -/
def afterRead (E : Env) (b : Bank) (s : State) : State :=
  { s with history := s.history ++ [.rd b (portInput E b s)], pinScript := s.pinScript.tail }

/-- `PortRead(b)`: the byte and the state after it (spec/00_scope.md R13). -/
def portRead (E : Env) (b : Bank) (s : State) : Byte × State :=
  (portInput E b s, afterRead E b s)

/-- `Delay(name)`: an event and nothing else (spec/00_scope.md R14). -/
def delay (n : DelayName) (s : State) : State := record (.dly n) s

/-- `irq_inhibit <- v` (spec/60_exceptions.md R257). -/
def setInhibit (v : Bool) (s : State) : State :=
  { s with irqInhibit := v, history := s.history ++ [.inh v] }

/-! ## Run registers -/

/-- `pos <- v` (spec/10_state.md R31). -/
def setPos (v : BitVec 11) (s : State) : State := { s with pos := v }

/-- `rep <- v` (spec/10_state.md R32). -/
def setRep (v : BitVec 16) (s : State) : State := { s with rep := v }

/-- `result <- v` (spec/10_state.md R33). -/
def setResult (v : Verdict) (s : State) : State := { s with result := v }

/-- `row <- v` (spec/10_state.md R34). -/
def setRow (v : BitVec 9) (s : State) : State := { s with row := v }

/-- `col <- v` (spec/10_state.md R34). -/
def setCol (v : BitVec 9) (s : State) : State := { s with col := v }

/-- `pat <- v` (spec/10_state.md R34). -/
def setPat (v : Bool) (s : State) : State := { s with pat := v }

/-- `pulse <- v` (spec/10_state.md R34). -/
def setPulse (v : BitVec 4) (s : State) : State := { s with pulse := v }

/-- `mbus <- v` (spec/10_state.md R34). -/
def setMBus (v : MBus) (s : State) : State := { s with mbus := v }

/-- `phase <- v` (spec/10_state.md R37). -/
def setPhase (v : Phase) (s : State) : State := { s with phase := v }

/-! ## Configuration and session -/

/-- `PB <- c`, all 72 bits; `PB` becomes written (spec/44_commands.md R230). -/
def storeConfig (c : PerBank PinBank) (s : State) : State := { s with pb := c, pbWritten := true }

/-- The session replaced wholesale; `TS` becomes written (spec/41_vector_sequencer.md R141). -/
def storeSession (type : SessionType) (length : BitVec 11) (m : Memory) (s : State) : State :=
  { s with tsType := type, tsLength := length, tsWritten := true, vs := m }

/-! ## The channel -/

/-- `Reply(v)`: one byte to the host, after which the CORE waits for a command
(spec/00_scope.md R15, spec/20_memory.md R64, spec/60_exceptions.md R261). -/
def reply (P : Params) (r : Result) (s : State) : State :=
  { s with
    tx := s.tx ++ [resultByte P r]
    history := s.history ++ [.tx (resultByte P r)]
    phase := .waitCmd }

/-- The bytes of a whole command were taken from the channel; `rest` stays in `rx`
(spec/44_commands.md R229, spec/10_state.md R36). -/
def takeCommand (rest : List Byte) (s : State) : State := { s with rx := rest, cmdBuf := [] }

/-- Every byte of `rx` was taken and the command is not complete: wait, in the phase that says how far
reception has come (spec/30_encoding.md R97, spec/10_state.md R36, R37). -/
def awaitBytes (p : Phase) (s : State) : State :=
  { s with rx := [], cmdBuf := s.cmdBuf ++ s.rx, phase := p }

/-! ## Idle, Err, and the end of a run -/

/-- The `reset()` operation: all pins inputs, no level, bank 0 first, `DDR` before `OUT`
(spec/40_pin_bank_driver.md R129). -/
def resetPins (s : State) : State :=
  let s0 := portWrite .b0 0x00#8 (setDir .b0 0x00#8 s)
  let s1 := portWrite .b1 0x00#8 (setDir .b1 0x00#8 s0)
  portWrite .b2 0x00#8 (setDir .b2 0x00#8 s1)

/-- `raise Err`: the reply and nothing else (spec/60_exceptions.md R250, spec/44_commands.md R236). -/
def raiseErr (P : Params) (s : State) : State := reply P .err s

/-- Where every run goes when its engine returns, the abort path of a Fail included: `reset()`, then
`irq_inhibit <- 0`, then the reply (spec/60_exceptions.md R259, spec/44_commands.md R234, R235). That
`result` and the run registers keep what the run left in them is the model's choice (log entry 20). -/
def endRun (P : Params) (v : Verdict) (s : State) : State :=
  reply P (verdictResult v) (setPhase .reply (setInhibit false (resetPins s)))

end Sys2Proof.Machine
end

