-- ==== Sys2Proof/Machine/Dram.lean ====
section
/-! DEFINITION. The dram_engine: the bus steps, `memSetup`, `testBit`, `testPage`, `runMemory`,
`dramEngine` (spec/43_dram_engine.md R180 to R214). It reads nothing of the state but its own run
registers (R212). -/

namespace Sys2Proof.Machine

/-! ## Bus steps (R184, R186) -/

/-- `WriteL()` (R184). -/
def writeL (P : Params) (s : State) : State := portWrite P.memLBank (busL P s.mbus) s

/-- `WriteH()` (R184). -/
def writeH (P : Params) (s : State) : State := portWrite P.memHBank (busH P s.mbus) s

/-- `mbus.aL <- v`. -/
def setAL (v : BitVec 3) (s : State) : State := setMBus { s.mbus with aL := v } s

/-- `mbus.aH <- v`. -/
def setAH (v : BitVec 5) (s : State) : State := setMBus { s.mbus with aH := v } s

/-- `mbus.we <- v`. -/
def setWe (v : Bool) (s : State) : State := setMBus { s.mbus with we := v } s

/-- `mbus.ras <- v`. -/
def setRas (v : Bool) (s : State) : State := setMBus { s.mbus with ras := v } s

/-- `mbus.cas <- v`. -/
def setCas (v : Bool) (s : State) : State := setMBus { s.mbus with cas := v } s

/-- `mbus.din <- v`. -/
def setDin (v : Bool) (s : State) : State := setMBus { s.mbus with din := v } s

/-- `openRow(r)`: present the row address, assert the row strobe (R186). -/
def openRow (P : Params) (r : Byte) (s : State) : State :=
  let s1 := writeH P (setAH (highField r) s)
  let s2 := writeL P (setAL (lowField r) s1)
  writeL P (setRas false s2)

/-- `closeRow()`: release the row strobe (R186). -/
def closeRow (P : Params) (s : State) : State := writeL P (setRas true s)

/-- `writeCol(c, d)`: the write sub-cycle (R186). -/
def writeCol (P : Params) (c : Byte) (d : Bool) (s : State) : State :=
  let s1 := writeL P (setDin d (setWe false (setAL (lowField c) s)))
  let s2 := writeH P (setAH (highField c) s1)
  let s3 := writeH P (setCas false s2)
  let s4 := writeL P (setWe true s3)
  writeH P (setCas true s4)

/-- The part of `readCol` before its `PortRead` (R186). -/
def readColOpen (P : Params) (c : Byte) (s : State) : State :=
  let s1 := writeL P (setAL (lowField c) s)
  let s2 := writeH P (setAH (highField c) s1)
  let s3 := writeH P (setCas false s2)
  delay .cac s3

/-- `readCol(c)`: the read sub-cycle and the bit sampled on `DOUT` (R186). -/
def readCol (P : Params) (E : Env) (c : Byte) (s : State) : State × Bool :=
  let raw := portRead E P.memHBank (readColOpen P c s)
  (writeH P (setCas true raw.2), raw.1.getLsbD P.hDout)

/-! ## `memSetup` (R190) -/

/-- The idle bus: strobes high, address 0, `DIN` 0 (R190). -/
def idleBus : MBus := ⟨0, true, true, false, 0, true⟩

/-- One warm-up pulse of the row strobe (R190). -/
def warmupPulse (P : Params) (s : State) : State :=
  let low := delay .rasPw (writeL P (setRas false s))
  let high := writeL P (setRas true low)
  setPulse (high.pulse + 1) high

/-- The `n` warm-up pulses still to give (R190). -/
def warmupLoop (P : Params) : Nat → State → State
  | 0, s => s
  | n + 1, s => warmupLoop P n (warmupPulse P s)

/-- `memSetup()`: levels before directions, the power-up delay, eight pulses (R190). -/
def memSetup (P : Params) (s : State) : State :=
  let s1 := writeH P (writeL P (setMBus idleBus s))
  let s2 := setDir P.memHBank (dirH P) (setDir P.memLBank (dirL P) s1)
  warmupLoop P 8 (setPulse 0 (delay .powerUp s2))

/-! ## `testBit` (R195 to R197) -/

/-- `testBit(addr, d)`: a write cycle, then a read cycle at the same address (R197). No command and no
other operation calls it (R203). -/
def testBit (P : Params) (E : Env) (addr : BitVec 16) (d : Bool) (s : State) : State × Verdict :=
  let written := closeRow P (writeCol P (colOf addr) d (openRow P (rowOf addr) s))
  let r := readCol P E (colOf addr) (openRow P (rowOf addr) written)
  (closeRow P r.1, bitVerdict r.2 d)

/-! ## `testPage` (R205, R206) -/

/-- The column a page loop is at, as the byte `writeCol` and `readCol` take. -/
def colByte (s : State) : Byte := s.col.setWidth 8

/-- The write phase over the `n` columns still to write (R206). -/
def pageWriteLoop (P : Params) (d : Bool) : Nat → State → State
  | 0, s => s
  | n + 1, s =>
      let w := writeCol P (colByte s) d s
      pageWriteLoop P d n (setCol (w.col + 1) w)

/-- The read phase over the `n` columns still to read; it ends at the first bit that differs (R206). -/
def pageReadLoop (P : Params) (E : Env) (d : Bool) : Nat → State → State × Verdict
  | 0, s => (s, .pass)
  | n + 1, s =>
      let r := readCol P E (colByte s) s
      match bitVerdict r.2 d with
      | .fail => (r.1, .fail)
      | .pass => pageReadLoop P E d n (setCol (r.1.col + 1) r.1)

/-- The write phase of a page: the row strobe asserted once, 256 columns, released (R206, R207). -/
def pageWrite (P : Params) (r : Byte) (d : Bool) (s : State) : State :=
  closeRow P (pageWriteLoop P d 256 (setCol 0 (openRow P r s)))

/-- The read phase of a page; the row strobe is released whatever the verdict (R206). -/
def pageRead (P : Params) (E : Env) (r : Byte) (d : Bool) (s : State) : State × Verdict :=
  let x := pageReadLoop P E d 256 (setCol 0 (openRow P r s))
  (closeRow P x.1, x.2)

/-- `testPage(r, d)`: the whole row is written before any column of it is read (R206, R207). -/
def testPage (P : Params) (E : Env) (r : Byte) (d : Bool) (s : State) : State × Verdict :=
  pageRead P E r d (pageWrite P r d s)

/-! ## `runMemory` and the engine (R210 to R213) -/

/-- The row `runMemory` is at, as the byte `testPage` takes. -/
def rowByte (s : State) : Byte := s.row.setWidth 8

/-- One page test of `runMemory` with a data pattern (R211). -/
def patternPage (P : Params) (E : Env) (d : Bool) (s : State) : State × Verdict :=
  testPage P E (rowByte s) d (setPat d s)

/-- One row of `runMemory`: pattern 0, then pattern 1 (R210, R211). -/
def testRow (P : Params) (E : Env) (s : State) : State × Verdict :=
  let zeros := patternPage P E false s
  match zeros.2 with
  | .fail => (zeros.1, .fail)
  | .pass => patternPage P E true zeros.1

/-- The `n` rows still to test; it ends at the first failing page (R211). -/
def rowLoop (P : Params) (E : Env) : Nat → State → State × Verdict
  | 0, s => (s, .pass)
  | n + 1, s =>
      let r := testRow P E s
      match r.2 with
      | .fail => (r.1, .fail)
      | .pass => rowLoop P E n (setRow (r.1.row + 1) r.1)

/-- `runMemory()` (R211). -/
def runMemory (P : Params) (E : Env) (s : State) : State × Verdict := rowLoop P E 256 (setRow 0 s)

/-- `dramEngine()` (R213). -/
def dramEngine (P : Params) (E : Env) (s : State) : State × Verdict := runMemory P E (memSetup P s)

end Sys2Proof.Machine
end

