-- ==== Sys2Proof/Machine/PinBanks.lean ====
section
/-! DEFINITION. The pin_bank_driver: `configure`, `drive`, `sample` (spec/40_pin_bank_driver.md R120 to
R126); its `reset()` stands in Ops.lean, where the end of a run needs it. -/

namespace Sys2Proof.Machine

/-- One bank of `configure` (R121). -/
def configureBank (b : Bank) (s : State) : State := setDir b (directionByte (s.pb.get b)) s

/-- `configure(PB)`: the direction registers, bank 0 first (R121). -/
def configure (s : State) : State := configureBank .b2 (configureBank .b1 (configureBank .b0 s))

/-- `drive(b, v)` (R123). -/
def drive (b : Bank) (v : Byte) (s : State) : State := portWrite b (driveByte (s.pb.get b) v) s

/-- `sample(b)`: the masked byte and the state after the read (R125). -/
def sample (E : Env) (b : Bank) (s : State) : Byte × State :=
  let raw := portRead E b s
  (raw.1 &&& ~~~(s.pb.get b).direction &&& (s.pb.get b).used, raw.2)

end Sys2Proof.Machine
end

