-- ==== Sys2Proof/Machine/Logic.lean ====
section
/-! DEFINITION. The generic_logic_comparator: `settle`, `expect`, `runLogic`, with the vector fetch
`get` it runs over (spec/42_generic_logic_comparator.md R160 to R170,
spec/41_vector_sequencer.md R143, R144). -/

namespace Sys2Proof.Machine

/-- `get(p)`: the three bytes of vector `p` (spec/41_vector_sequencer.md R143). -/
def getVector (s : State) (p : Nat) : Vec :=
  ⟨s.vs.read (vecAddress p .b0), s.vs.read (vecAddress p .b1), s.vs.read (vecAddress p .b2)⟩

/-- `settle()` (R166). -/
def settle (s : State) : State := delay .settle s

/-- `expect(b, v)` (R164). -/
def expect (b : Bank) (v : Byte) (s : State) : Byte := expectByte (s.pb.get b) v

/-- Drive the three banks, bank 0 first, then settle (R161, R162). -/
def driveVector (v : Vec) (s : State) : State :=
  settle (drive .b2 v.b2 (drive .b1 v.b1 (drive .b0 v.b0 s)))

/-- Sample and compare the banks in turn; the first mismatch ends it (R161, R165). -/
def compareBanks (E : Env) (v : Vec) : List Bank → State → State × Verdict
  | [], s => (s, .pass)
  | b :: bs, s =>
      let r := sample E b s
      match bankVerdict r.1 (expect b (v.get b) s) with
      | .fail => (r.2, .fail)
      | .pass => compareBanks E v bs r.2

/-- One vector: the body of `runLogic`'s loop but for the advance of `pos` (R161). -/
def applyVector (E : Env) (s : State) : State × Verdict :=
  let v := getVector s s.pos.toNat
  let driven := driveVector v s
  if samples s.tsType s.pos then compareBanks E v [.b0, .b1, .b2] driven else (driven, .pass)

/-- The loop of `runLogic` over the `n` vectors still to apply, from `pos` on (R161). -/
def logicLoop (E : Env) : Nat → State → State × Verdict
  | 0, s => (s, .pass)
  | n + 1, s =>
      let r := applyVector E s
      match r.2 with
      | .fail => (r.1, .fail)
      | .pass => logicLoop E n (setPos (r.1.pos + 1) r.1)

/-- `runLogic()` (R161). -/
def runLogic (E : Env) (s : State) : State × Verdict := logicLoop E s.tsLength.toNat (setPos 0 s)

end Sys2Proof.Machine
end

