-- ==== Sys2Proof/Machine/Sequencer.lean ====
section
/-! DEFINITION. The vector_sequencer: `upload` and the repetition loop `repeat`
(spec/41_vector_sequencer.md R141 to R149); `get` stands in Logic.lean. -/

namespace Sys2Proof.Machine

/-- Write one vector's three bytes, bank 0 first (R141). -/
def writeVector (p : Nat) (v : Vec) (m : Memory) : Memory :=
  ((m.write (vecAddress p .b0) v.b0).write (vecAddress p .b1) v.b1).write (vecAddress p .b2) v.b2

/-- Write the vectors from position `p` on (R141). -/
def writeVectors : Nat → List Vec → Memory → Memory
  | _, [], m => m
  | p, v :: vs, m => writeVectors (p + 1) vs (writeVector p v m)

/-- `upload(type, length, vectors)`: the session replaced wholesale. The store starts with nothing
listed, so no byte of the session before is kept (R141, spec/10_state.md R29). -/
def upload (type : SessionType) (length : Nat) (vectors : List Vec) (s : State) : State :=
  storeSession type (BitVec.ofNat 11 length) (writeVectors 0 (vectors.take length) []) s

/-- One execution of the engine the session's type selects (R145, R147). -/
def runEngine (P : Params) (E : Env) (s : State) : State × Verdict :=
  match s.tsType with
  | .memory => dramEngine P E s
  | .combinational => runLogic E s
  | .sequential => runLogic E s

/-- The loop of `repeat` over the `n` repetitions still to run, for any engine: `result` holds each
verdict, the first Fail ends it, nothing else happens between two repetitions (R145, R146). -/
def repeatLoop (engine : State → State × Verdict) : Nat → State → State × Verdict
  | 0, s => (s, .pass)
  | n + 1, s =>
      let r := engine s
      let ended := setResult r.2 r.1
      match r.2 with
      | .fail => (ended, .fail)
      | .pass => repeatLoop engine n (setRep (ended.rep - 1) ended)

/-- `repeat(exponent)` for any engine (R145). -/
def repeatEngine (engine : State → State × Verdict) (e : Byte) (s : State) : State × Verdict :=
  repeatLoop engine (repetitions e) (setRep (BitVec.ofNat 16 (repetitions e)) s)

end Sys2Proof.Machine
end

