-- ==== Sys2Proof/Machine/Commands.lean ====
section
/-! DEFINITION. The host commands: a meaning for each constructor of Instr
(spec/44_commands.md R229 to R237). Each is written once for any parameters and any environment and
then fixed to this model's. -/

namespace Sys2Proof.Machine

/-- Setup (R230): the configuration is stored and no port register is touched. -/
def setupIn (P : Params) (banks : PerBank PinBank) (s : State) : State :=
  reply P .ok (storeConfig banks s)

/-- Upload (R231, R232): an unknown type is refused first, then a length above 1024. -/
def uploadIn (P : Params) (t hi lo : Byte) (vectors : List Vec) (s : State) :
    Host.Outcome State Fault Refusal :=
  match decodeType P t with
  | none => .refused .badType
  | some type =>
      if assembleLength hi lo > maxVectors then .refused .lengthOverflow
      else .next (reply P .ok (upload type (assembleLength hi lo) vectors s))

/-- The run a Run command starts once its preconditions are met (R234): interrupts inhibited, the
stored configuration applied, the engine repeated, then the end that every run has. -/
def runBody (P : Params) (E : Env) (e : Byte) (s : State) : State :=
  let started := configure (setInhibit true (setPhase .running s))
  let r := repeatEngine (runEngine P E) e started
  endRun P r.2 r.1

/-- Run (R233, R234): the exponent is checked before the written marks (spec/60_exceptions.md R258). -/
def runIn (P : Params) (E : Env) (e : Byte) (s : State) : Host.Outcome State Fault Refusal :=
  if e.toNat > P.maxRepExp then .refused .exponentTooLarge
  else if s.pbWritten && s.tsWritten then .next (runBody P E e s)
  else .refused .notConfigured

/-- SETUP (R230). -/
def execSetup (_low : BitVec 5) (banks : PerBank PinBank) (s : State) :
    Host.Outcome State Fault Refusal :=
  .next (setupIn Config.params banks s)

/-- UPLOAD (R231). -/
def execUpload (_low : BitVec 5) (t hi lo : Byte) (vectors : List Vec) (s : State) :
    Host.Outcome State Fault Refusal :=
  uploadIn Config.params t hi lo vectors s

/-- RUN (R233, R234). -/
def execRun (_low : BitVec 5) (e : Byte) (s : State) : Host.Outcome State Fault Refusal :=
  runIn Config.params Config.env e s

/-- BAD3 (R236). -/
def execBad3 (_low : BitVec 5) (s : State) : Host.Outcome State Fault Refusal :=
  .next (raiseErr Config.params s)

/-- BAD4 (R236). -/
def execBad4 (_low : BitVec 5) (s : State) : Host.Outcome State Fault Refusal :=
  .next (raiseErr Config.params s)

/-- BAD5 (R236). -/
def execBad5 (_low : BitVec 5) (s : State) : Host.Outcome State Fault Refusal :=
  .next (raiseErr Config.params s)

/-- BAD6 (R236). -/
def execBad6 (_low : BitVec 5) (s : State) : Host.Outcome State Fault Refusal :=
  .next (raiseErr Config.params s)

/-- BAD7 (R236). -/
def execBad7 (_low : BitVec 5) (s : State) : Host.Outcome State Fault Refusal :=
  .next (raiseErr Config.params s)

end Sys2Proof.Machine
end

