-- ==== Sys2Proof/Machine/Dispatch.lean ====
section
/-! DEFINITION. One arm per constructor of Instr. -/

namespace Sys2Proof.Machine

-- the host commands (spec/44_commands.md)
def exec (i : Instr) (s : State) : Host.Outcome State Fault Refusal :=
  match i with
  | .setup low banks => Sys2Proof.Machine.execSetup low banks s
  | .upload low t hi lo vectors => Sys2Proof.Machine.execUpload low t hi lo vectors s
  | .run low e => Sys2Proof.Machine.execRun low e s
  | .bad3 low => Sys2Proof.Machine.execBad3 low s
  | .bad4 low => Sys2Proof.Machine.execBad4 low s
  | .bad5 low => Sys2Proof.Machine.execBad5 low s
  | .bad6 low => Sys2Proof.Machine.execBad6 low s
  | .bad7 low => Sys2Proof.Machine.execBad7 low s

end Sys2Proof.Machine
end

