-- ==== Sys2Proof/Machine/Receive.lean ====
section
/-! DEFINITION. Fetching a command from the byte channel (spec/30_encoding.md R97,
spec/10_state.md R36, R37), and what the outside can do between two steps. -/

namespace Sys2Proof.Machine

/-- What the channel offers the CORE at the start of a step. -/
inductive Received where
  /-- A whole command, and the bytes that stay in `rx`. -/
  | command (i : Instr) (rest : List Byte)
  /-- Not a whole command: the phase to wait in. -/
  | waiting (p : Phase)
  /-- The state stands inside a command. -/
  | inside
deriving DecidableEq, Repr

/-- The phases in which the CORE takes bytes (R37). -/
def receiving : Phase → Bool
  | .waitCmd => true
  | .rxSetup _ => true
  | .rxUploadHdr _ => true
  | .rxUploadVec _ => true
  | .rxRun => true
  | .running => false
  | .reply => false

/-- The bytes taken so far, then those in `rx`, read as a command. -/
def received (s : State) : Received :=
  if receiving s.phase then
    match decode Config.params (s.cmdBuf ++ s.rx) with
    | .done i rest => .command i rest
    | .more p => .waiting p
  else .inside

/-- The command of a table word put where the next step fetches. -/
def placeWord (nbits w : Nat) (s : State) : State :=
  { s with rx := wordCommand Config.params nbits w, cmdBuf := [], phase := .waitCmd }

/-- The host sends bytes: they join the tail of `rx` (spec/10_state.md R36). -/
def State.hostSend (bytes : List Byte) (s : State) : State := { s with rx := s.rx ++ bytes }

/-- The host takes the `n` oldest replies that are there (spec/10_state.md R36). -/
def State.hostTake (n : Nat) (s : State) : State := { s with tx := s.tx.drop n }

end Sys2Proof.Machine
end

