-- ==== Sys2Proof/Machine/Step.lean ====
section
/-! DEFINITION. One step (spec/44_commands.md R229): take in the bytes that have arrived; if they
complete a command, execute it to its reply; if not, wait. -/

namespace Sys2Proof.Machine

/-- One step. In a phase inside a command there is no step to take (log entry 11). -/
def step (s : State) : Host.Outcome State Fault Refusal :=
  match received s with
  | .inside => .fault .midCommand
  | .command i rest => exec i (takeCommand rest s)
  | .waiting p => .next (awaitBytes p s)

/-- `s` with the one command the word stands for at the head of the channel, and nothing else there:
the host has sent it and the CORE waits for a command (log entry 13). -/
def State.withFetchWord (s : State) (nbits w : Nat) : State := placeWord nbits w s

end Sys2Proof.Machine
end

