-- ==== Sys2Proof/Machine/Environments.lean ====
section
/-! DEFINITION. What an outside observer makes of a history: the levels at the pins
(spec/10_state.md R26), and the two environments the spec's testable properties name, a loopback wiring
(spec/42_generic_logic_comparator.md R170) and the ideal DRAM (spec/95_test_vectors.md section 2.4; log
entry 18). No meaning uses this file. -/

namespace Sys2Proof.Machine

/-! ## Pins -/

/-- The tester's side of the 24 pins: 48 bits (R26). -/
structure Pins where
  ddr : PerBank Byte
  out : PerBank Byte
deriving DecidableEq, Repr

/-- The pins change at `Dir` and `Wr` events only (R26). -/
def Pins.after (p : Pins) : Event → Pins
  | .dir b v => { p with ddr := p.ddr.set b v }
  | .wr b v => { p with out := p.out.set b v }
  | .rd _ _ => p
  | .dly _ => p
  | .inh _ => p
  | .tx _ => p

/-- The pins after a run of events. -/
def Pins.afterAll (p : Pins) (h : List Event) : Pins := h.foldl Pins.after p

/-- The safe idle state (spec/40_pin_bank_driver.md R129), in which a history begins. -/
def Pins.idle : Pins := ⟨⟨0, 0, 0⟩, ⟨0, 0, 0⟩⟩

/-- The pins a history leaves. -/
def pinsOf (h : List Event) : Pins := Pins.idle.afterAll h

/-! ## Loopback -/

/-- A wiring of a DUT: for pin `i` of bank `b`, the pin whose level it mirrors. -/
abbrev Wiring := Bank → Nat → Bank × Nat

/-- The environment is a DUT wired in loopback: it drives every pin with the output level of the pin it
is wired to (R170). -/
def WiredAs (w : Wiring) (E : Env) : Prop :=
  ∀ (h : List Event) (b : Bank) (i : Nat), i < 8 →
    (E.dut h b).drives.getLsbD i = true ∧
    (E.dut h b).level.getLsbD i = ((pinsOf h).out.get (w b i).1).getLsbD (w b i).2

/-! ## The ideal DRAM -/

/-- An ideal DRAM: the pins it watches, its two latches, its cells, and what it presents on `DOUT`. -/
structure IdealDram where
  pins : Pins
  row : Byte
  col : Byte
  cells : Byte → Byte → Bool
  presented : Option Bool

/-- The levels of a bank's lines: "A line counts as high while its pin is not yet an output". -/
def lineLevels (p : Pins) (b : Bank) : Byte := ~~~(p.ddr.get b) ||| p.out.get b

/-- The level of `RAS`. -/
def rasLevel (P : Params) (p : Pins) : Bool := (lineLevels p P.memLBank).getLsbD P.lRas

/-- The level of `CAS`. -/
def casLevel (P : Params) (p : Pins) : Bool := (lineLevels p P.memHBank).getLsbD P.hCas

/-- The level of `WE`. -/
def weLevel (P : Params) (p : Pins) : Bool := (lineLevels p P.memLBank).getLsbD P.lWe

/-- The level of `DIN`. -/
def dinLevel (P : Params) (p : Pins) : Bool := (lineLevels p P.memLBank).getLsbD P.lDin

/-- `A7` to `A0`: the high field above the low one. -/
def addressLines (P : Params) (p : Pins) : Byte :=
  (lineLevels p P.memHBank).extractLsb' P.hAPos 5 ++ (lineLevels p P.memLBank).extractLsb' P.lAPos 3

/-- The cells with one of them set. -/
def setCell (cells : Byte → Byte → Bool) (r c : Byte) (d : Bool) : Byte → Byte → Bool :=
  fun r' c' => if r' = r ∧ c' = c then d else cells r' c'

/-- What an event does to the DRAM: a falling `RAS` latches the row; a falling `CAS` under a low `RAS`
latches the column and writes the cell or presents it; a high `CAS` presents nothing. -/
def IdealDram.after (P : Params) (m : IdealDram) (e : Event) : IdealDram :=
  let p := m.pins.after e
  let row := if rasLevel P m.pins && !rasLevel P p then addressLines P p else m.row
  if casLevel P m.pins && !casLevel P p && !rasLevel P p then
    let col := addressLines P p
    if weLevel P p then
      { pins := p, row := row, col := col, cells := m.cells, presented := some (m.cells row col) }
    else
      { pins := p, row := row, col := col, cells := setCell m.cells row col (dinLevel P p),
        presented := none }
  else
    { pins := p, row := row, col := m.col, cells := m.cells,
      presented := if casLevel P p then none else m.presented }

/-- The DRAM as a history leaves it, given the cells' contents at its start. -/
def dramOf (P : Params) (cells : Byte → Byte → Bool) (h : List Event) : IdealDram :=
  h.foldl (IdealDram.after P) ⟨Pins.idle, 0, 0, cells, none⟩

/-- The environment that is an ideal DRAM: it drives `DOUT` alone, 0 where it presents nothing. -/
def idealDram (P : Params) (cells : Byte → Byte → Bool) (draw : List Event → Bank → Byte) : Env where
  dut h b :=
    if b = P.memHBank then
      ⟨1#8 <<< P.hDout, lineAt ((dramOf P cells h).presented == some true) P.hDout⟩
    else ⟨0, 0⟩
  draw := draw

end Sys2Proof.Machine
end

