-- ==== Sys2Proof/Machine/Reset.lean ====
section
/-! DEFINITION. Hardware reset, between two steps and inside one (spec/70_reset_and_hazards.md R280,
R281). It is the outside's, so no step performs it. -/

namespace Sys2Proof.Machine

/-- `rst` is asserted (R280): the CORE is as after power-on, with an empty history. The DUT is outside and
not reset: it goes on from all it has seen, the effect of `reset()` on the pins being the last of it
(R281; log entry 21). -/
def State.hardwareReset (s : State) : State :=
  { State.reset with past := observed (resetPins s), pinScript := s.pinScript }

/-- The events a step from `s` to `t` added to the history. -/
def newEvents (s t : State) : List Event := t.history.drop s.history.length

/-- How many of the events are reads. -/
def readsIn (h : List Event) : Nat :=
  h.countP fun
    | .rd _ _ => true
    | .dir _ _ => false
    | .wr _ _ => false
    | .dly _ => false
    | .inh _ => false
    | .tx _ => false

/-- `s` as the outside sees it once the events `es` of a command have happened: they are in the history,
and each read among them has used up a scripted answer. -/
def cutAfter (es : List Event) (s : State) : State :=
  { s with history := s.history ++ es, pinScript := s.pinScript.drop (readsIn es) }

/-- `rst` is asserted inside the command the next step executes, when the first `n` of its events have
happened: the command is abandoned there, and the DUT is left as those events left it (R280, R281). A
command that is refused has no behaviour before a reset either (spec/60_exceptions.md R254). -/
def State.resetDuring (n : Nat) (s : State) : Host.Outcome State Fault Refusal :=
  match step s with
  | .next t => .next (cutAfter ((newEvents s t).take n) s).hardwareReset
  | .fault f => .fault f
  | .refused r => .refused r

end Sys2Proof.Machine
end

