-- ==== Sys2Proof/Safety.lean ====
section
/-! DEFINITION. What holds of the machine between two commands, and the words in which statements
speak of a run's events. -/

namespace Sys2Proof.Machine

/-! ## Events -/

/-- The six events of `reset()` (spec/40_pin_bank_driver.md R129). -/
def resetEvents : List Event :=
  [.dir .b0 0x00#8, .wr .b0 0x00#8, .dir .b1 0x00#8, .wr .b1 0x00#8, .dir .b2 0x00#8, .wr .b2 0x00#8]

/-- The three events of `configure` (spec/40_pin_bank_driver.md R121). -/
def configureEvents (pb : PerBank PinBank) : List Event :=
  [.dir .b0 (pb.b0.used &&& pb.b0.direction), .dir .b1 (pb.b1.used &&& pb.b1.direction),
   .dir .b2 (pb.b2.used &&& pb.b2.direction)]

/-- The two events that end every run after `reset()` (spec/44_commands.md R235). -/
def farewellEvents (P : Params) (v : Verdict) : List Event :=
  [.inh false, .tx (match v with | .pass => P.resPass | .fail => P.resFail)]

/-- An event an engine may leave: one of the pins' or a delay. -/
def engineEvent : Event → Bool
  | .dir _ _ => true
  | .wr _ _ => true
  | .rd _ _ => true
  | .dly _ => true
  | .inh _ => false
  | .tx _ => false

/-- The reply bytes among events. -/
def repliesIn (h : List Event) : List Byte :=
  h.filterMap fun
    | .tx v => some v
    | .dir _ _ => none
    | .wr _ _ => none
    | .rd _ _ => none
    | .dly _ => none
    | .inh _ => none

/-- `irq_inhibit` after events, from its value before them. -/
def inhibitAfter (v : Bool) (h : List Event) : Bool :=
  h.foldl (fun w e => match e with
    | .inh x => x
    | .dir _ _ => w
    | .wr _ _ => w
    | .rd _ _ => w
    | .dly _ => w
    | .tx _ => w) v

/-- The events of driving a vector: bank 0 first, then the settle delay
(spec/42_generic_logic_comparator.md R161, R162). -/
def driveEvents (pb : PerBank PinBank) (v : Vec) : List Event :=
  [.wr .b0 (driveByte pb.b0 v.b0), .wr .b1 (driveByte pb.b1 v.b1), .wr .b2 (driveByte pb.b2 v.b2),
   .dly .settle]

/-- The events of a vector: it is driven, then the bytes `xs` are read, one for each bank from bank 0 on
(spec/42_generic_logic_comparator.md R161, R162). -/
def vectorEvents (pb : PerBank PinBank) (v : Vec) (xs : List Byte) : List Event :=
  driveEvents pb v ++ List.zipWith Event.rd [.b0, .b1, .b2] xs

/-- A byte read at a bank agrees with the vector at the sampled pins (R164, R165). -/
def Agrees (pb : PerBank PinBank) (v : Vec) (bx : Bank × Byte) : Prop :=
  bx.2 &&& sampleMask (pb.get bx.1) = v.get bx.1 &&& sampleMask (pb.get bx.1)

/-- The bytes read for a vector that passes: none if it is not checked, else all three banks', each in
agreement (R161). -/
def VectorPasses (pb : PerBank PinBank) (checked : Bool) (v : Vec) (xs : List Byte) : Prop :=
  xs.length = (if checked then 3 else 0) ∧ ∀ bx ∈ List.zip [Bank.b0, .b1, .b2] xs, Agrees pb v bx

/-- The bytes read for a vector that fails: it is checked, the last byte is the first that disagrees
(R161, R165). -/
def VectorFails (pb : PerBank PinBank) (checked : Bool) (v : Vec) (xs : List Byte) : Prop :=
  checked = true ∧ xs.length ≤ 3 ∧
    (∀ bx ∈ (List.zip [Bank.b0, .b1, .b2] xs).dropLast, Agrees pb v bx) ∧
    ∃ bx ∈ (List.zip [Bank.b0, .b1, .b2] xs).getLast?, ¬ Agrees pb v bx

/-! ## Events of the DRAM bus (spec/43_dram_engine.md R184, R186) -/

/-- A write of port L with these levels on its lines. -/
def writesL (P : Params) (aL : BitVec 3) (we ras din : Bool) : Event :=
  .wr P.memLBank (busL P ⟨aL, we, ras, din, 0, false⟩)

/-- A write of port H with these levels on its lines. -/
def writesH (P : Params) (aH : BitVec 5) (cas : Bool) : Event :=
  .wr P.memHBank (busH P ⟨0, false, false, false, aH, cas⟩)

/-- `openRow(r)` with `DIN` at `din`. -/
def openRowEvents (P : Params) (r : Byte) (din : Bool) : List Event :=
  [writesH P (highField r) true, writesL P (lowField r) true true din,
   writesL P (lowField r) true false din]

/-- `closeRow()` with column `c` on the address lines and `DIN` at `din`. -/
def closeRowEvents (P : Params) (c : Byte) (din : Bool) : List Event :=
  [writesL P (lowField c) true true din]

/-- `writeCol(c, d)` with the row strobe low. -/
def writeColEvents (P : Params) (c : Byte) (d : Bool) : List Event :=
  [writesL P (lowField c) false false d, writesH P (highField c) true, writesH P (highField c) false,
   writesL P (lowField c) true false d, writesH P (highField c) true]

/-- `readCol(c)` with the row strobe low, `DIN` at `din`, and `x` read. -/
def readColEvents (P : Params) (c : Byte) (din : Bool) (x : Byte) : List Event :=
  [writesL P (lowField c) true false din, writesH P (highField c) true, writesH P (highField c) false,
   .dly .cac, .rd P.memHBank x, writesH P (highField c) true]

/-- `memSetup()` (R190). -/
def memSetupEvents (P : Params) : List Event :=
  [writesL P 0 true true false, writesH P 0 true, .dir P.memLBank (dirL P), .dir P.memHBank (dirH P),
   .dly .powerUp] ++
  (List.replicate 8 [writesL P 0 true false false, .dly .rasPw, writesL P 0 true true false]).flatten

/-- The columns of a page in the order of a page test (R206). -/
def columns : List Byte := (List.range 256).map (BitVec.ofNat 8)

/-- The write phase of a page, `DIN` being at `din` before it (R206). -/
def pageWriteEvents (P : Params) (r : Byte) (d din : Bool) : List Event :=
  openRowEvents P r din ++ columns.flatMap (fun c => writeColEvents P c d) ++
    closeRowEvents P 0xFF#8 d

/-- The read phase of a page in which the bytes `xs` were read, one for each column from 0 on (R206). -/
def pageReadEvents (P : Params) (r : Byte) (d : Bool) (xs : List Byte) : List Event :=
  openRowEvents P r d ++ (columns.zip xs).flatMap (fun cx => readColEvents P cx.1 d cx.2) ++
    closeRowEvents P (BitVec.ofNat 8 (xs.length - 1)) d

/-- The pages of a full test in their order: each row with 0, then with 1 (R210, R211). -/
def pages : List (Byte × Bool) := columns.flatMap fun r => [(r, false), (r, true)]

/-- The events of page tests in turn, each with the bytes read in it, `DIN` being at `din` before the
first (R206, R211). -/
def pagesEvents (P : Params) : Bool → List ((Byte × Bool) × List Byte) → List Event
  | _, [] => []
  | din, ((r, d), xs) :: rest =>
      pageWriteEvents P r d din ++ pageReadEvents P r d xs ++ pagesEvents P d rest

/-- The bytes of a page's read phase that passes: all 256, each with `DOUT` at the bit written (R206). -/
def PagePasses (P : Params) (d : Bool) (xs : List Byte) : Prop :=
  xs.length = 256 ∧ ∀ x ∈ xs, x.getLsbD P.hDout = d

/-- The three strobes are released (R183). -/
def StrobesIdle (m : MBus) : Prop := m.we = true ∧ m.ras = true ∧ m.cas = true

/-! ## Between two commands -/

/-- The safe idle state with interrupts allowed (spec/70_reset_and_hazards.md R284). -/
def Idle (s : State) : Prop :=
  (∀ b, s.ddr.get b = 0x00#8) ∧ (∀ b, s.out.get b = 0x00#8) ∧ s.irqInhibit = false

/-- The session's length is legal and the store is canonical and holds nothing past the session
(spec/10_state.md R28, R29). -/
def SessionOk (s : State) : Prop :=
  s.tsLength.toNat ≤ 1024 ∧ Memory.wf s.vs = true ∧ ∀ c ∈ s.vs, c.1 < 3 * s.tsLength.toNat

/-- The bytes taken so far are a command that is not complete, and the phase is the one they name
(spec/10_state.md R37). -/
def Waiting (s : State) : Prop := decode Config.params s.cmdBuf = .more s.phase

/-- What holds before and after every step. -/
structure Inv (s : State) : Prop where
  idle : Idle s
  session : SessionOk s
  waiting : Waiting s

end Sys2Proof.Machine
end

