-- ==== Sys2Proof/Certificates/Slice0/Obligations.lean ====
section
/-! DEFINITION. The statements about the model, for the provers. Each docstring names the rule of spec/
it formalises, or says which choice it rests on. -/

open Sys2Proof Sys2Proof.Machine

/-! ## Steps and decoding -/

/-- A step runs the decoded command (spec/44_commands.md R229): where the bytes taken so far and those
in `rx` begin with a command, the step is `exec` of that command on the state with the command's bytes
gone from the channel. The bulk reception is the model's (log entry 12). -/
def Obligations.StepRunsTheDecodedCommand : Prop :=
  ∀ (s : State) (i : Instr) (rest : List Byte),
    s.phase ≠ .running → s.phase ≠ .reply →
    decode Config.params (s.cmdBuf ++ s.rx) = .done i rest →
    step s = exec i { s with rx := rest, cmdBuf := [] }

/-- A command whose payload is not complete leaves the CORE waiting, its bytes kept as the first part of
that command, in the phase that says how far reception has come (spec/30_encoding.md R97; the reception
buffer is the model's, log entry 12). -/
def Obligations.StepWaitsForTheRestOfACommand : Prop :=
  ∀ (s : State) (p : Phase),
    s.phase ≠ .running → s.phase ≠ .reply →
    decode Config.params (s.cmdBuf ++ s.rx) = .more p →
    step s = .next { s with rx := [], cmdBuf := s.cmdBuf ++ s.rx, phase := p }

/-- Words written out from the formats of spec/30_encoding.md R93 to R96 decode to their commands, the
unused bits of the command byte set or not. -/
def Obligations.WrittenOutWordsDecode : Prop :=
  decode Config.params [0x1F, 0x01, 0x02, 0x03, 0x04, 0x05, 0x06, 0x07, 0x08, 0x09, 0xAA] =
    .done (.setup 31 ⟨⟨0x01, 0x02, 0x03⟩, ⟨0x04, 0x05, 0x06⟩, ⟨0x07, 0x08, 0x09⟩⟩) [0xAA] ∧
  decode Config.params [0x20, 0x01, 0x00, 0x02, 0x11, 0x12, 0x13, 0x21, 0x22, 0x23, 0x40] =
    .done (.upload 0 0x01 0x00 0x02 [⟨0x11, 0x12, 0x13⟩, ⟨0x21, 0x22, 0x23⟩]) [0x40] ∧
  decode Config.params [0x5A, 0x0F] = .done (.run 26 0x0F) [] ∧
  decode Config.params [0x60] = .done (.bad3 0) [] ∧
  decode Config.params [0x81, 0x00] = .done (.bad4 1) [0x00] ∧
  decode Config.params [0xA0] = .done (.bad5 0) [] ∧
  decode Config.params [0xDF] = .done (.bad6 31) [] ∧
  decode Config.params [0xE7] = .done (.bad7 7) []

/-- Decode and encode agree: the bytes of every command, well-formed or of the shape the decoder
answers with, followed by any bytes, decode to that command with every operand and leave those bytes
(spec/30_encoding.md R91 to R97). -/
def Obligations.DecodeOfEncodeGivesTheCommand : Prop :=
  ∀ (P : Params) (i : Instr) (rest : List Byte),
    i.wf P = true ∨ framed P i = true →
    decode P (encode i ++ rest) = .done i rest

/-- The other direction: bytes that decode to a command are that command's encoding and the bytes left
over, so no two commands share their bytes (spec/30_encoding.md R90 to R97). -/
def Obligations.EncodeOfDecodeGivesTheBytes : Prop :=
  ∀ (P : Params) (bs : List Byte) (i : Instr) (rest : List Byte),
    decode P bs = .done i rest → bs = encode i ++ rest ∧ framed P i = true

/-- The phase of a command that is not complete says which bytes it has (spec/10_state.md R37,
spec/30_encoding.md R97): nothing; fewer than nine payload bytes of Setup; fewer than three header bytes
of Upload, or its whole header and fewer than `3*length` vector bytes; Run without its exponent. What
`k` counts in the vector phase is the model's reading (log entry 12). -/
def Obligations.PhaseTellsTheBytesReceived : Prop :=
  ∀ (P : Params) (bs : List Byte) (p : Phase),
    decode P bs = .more p ↔
      (bs = [] ∧ p = .waitCmd) ∨
      ∃ cmd pl, bs = cmd :: pl ∧
        ((cmd >>> 5 = 0x00#8 ∧ pl.length < 9 ∧ p = .rxSetup pl.length) ∨
         (cmd >>> 5 = 0x01#8 ∧ pl.length < 3 ∧ p = .rxUploadHdr pl.length) ∨
         (cmd >>> 5 = 0x01#8 ∧ ∃ t hi lo vb, pl = t :: hi :: lo :: vb ∧
            (t = P.typeComb ∨ t = P.typeSeq ∨ t = P.typeMem) ∧
            256 * hi.toNat + lo.toNat ≤ 1024 ∧
            vb.length < 3 * (256 * hi.toNat + lo.toNat) ∧ p = .rxUploadVec vb.length) ∨
         (cmd >>> 5 = 0x02#8 ∧ pl = [] ∧ p = .rxRun))

/-! ## Reset and invariants -/

/-- What reset leaves of the state the spec gives a value to (spec/70_reset_and_hazards.md R280, from
decision D5), at power-on and after a reset at any later time. -/
def Obligations.ResetLeavesTheCoreIdleAndUnwritten : Prop :=
  ∀ s : State, ∀ t ∈ [State.reset, s.hardwareReset],
    (∀ b, t.ddr.get b = 0x00#8) ∧ (∀ b, t.out.get b = 0x00#8) ∧ t.irqInhibit = false ∧
    t.rx = [] ∧ t.tx = [] ∧ t.pbWritten = false ∧ t.tsWritten = false ∧ t.phase = .waitCmd ∧
    t.history = []

/-- The invariant between two commands holds at power-on (spec/70_reset_and_hazards.md R284,
spec/10_state.md R40). That the session is within its bounds there is the model's choice: the spec gives
`TS` no value until Upload, and `tsLength` 0 is log entry 4, the empty store log entry 6. -/
def Obligations.ResetMeetsTheIdleInvariant : Prop := Inv State.reset

/-- Every step keeps it: the pins are idle and interrupts allowed whenever the CORE waits
(spec/70_reset_and_hazards.md R284), the session is within its bounds and the store canonical
(spec/10_state.md R28, R29), and the phase is the one the bytes received name (R37). -/
def Obligations.StepKeepsTheIdleInvariant : Prop :=
  ∀ s t : State, Inv s → step s = .next t → Inv t

/-- The history accounts for everything the outside sees: after a step from any state the pins are
those the new events leave (spec/10_state.md R26), the replies sent are the `Tx` events, and
`irq_inhibit` is what the last `Inh` event says (spec/60_exceptions.md R257). -/
def Obligations.HistoryAccountsForPinsAndReplies : Prop :=
  ∀ s t : State, step s = .next t →
    ∃ es, t.history = s.history ++ es ∧
      (⟨t.ddr, t.out⟩ : Pins) = Pins.afterAll ⟨s.ddr, s.out⟩ es ∧
      t.tx = s.tx ++ repliesIn es ∧
      t.irqInhibit = inhibitAfter s.irqInhibit es

/-! ## Commands -/

/-- Setup stores its nine bytes, marks `PB` written, replies Ok, and changes nothing else
(spec/44_commands.md R230 with decision D7). -/
def Obligations.SetupStoresTheConfiguration : Prop :=
  ∀ (low : BitVec 5) (banks : PerBank PinBank) (s : State),
    exec (.setup low banks) s = .next
      { s with
        pb := banks, pbWritten := true, tx := s.tx ++ [Config.params.resOk],
        history := s.history ++ [.tx Config.params.resOk], phase := .waitCmd }

/-- Upload within the contract replaces the session wholesale (spec/41_vector_sequencer.md R141): it
completes with the new type, length and vectors, nothing listed in the store past them, the same store
whatever the state before, the reply Ok, and nothing else changed. -/
def Obligations.UploadReplacesTheSession : Prop :=
  ∀ (low : BitVec 5) (type : SessionType) (t hi lo : Byte) (vectors : List Vec),
    decodeType Config.params t = some type →
    256 * hi.toNat + lo.toNat ≤ 1024 → vectors.length = 256 * hi.toNat + lo.toNat →
    ∃ m : Memory, Memory.wf m = true ∧ (∀ c ∈ m, c.1 < 3 * vectors.length) ∧
      ∀ s : State,
        exec (.upload low t hi lo vectors) s = .next
          { s with
            tsType := type, tsLength := BitVec.ofNat 11 vectors.length, tsWritten := true, vs := m,
            tx := s.tx ++ [Config.params.resOk], history := s.history ++ [.tx Config.params.resOk],
            phase := .waitCmd } ∧
        ∀ (p : Nat) (h : p < vectors.length), getVector { s with vs := m } p = vectors[p]

/-- Upload outside the contract is refused: an unknown type first, then a length above 1024
(spec/60_exceptions.md R254 with decisions D10 and D12). -/
def Obligations.UploadRefusesOutsideTheContract : Prop :=
  ∀ (low : BitVec 5) (t hi lo : Byte) (vectors : List Vec) (s : State),
    ((t ≠ 0x00#8 ∧ t ≠ 0x01#8 ∧ t ≠ 0x02#8) →
      exec (.upload low t hi lo vectors) s = .refused .badType) ∧
    ((t = 0x00#8 ∨ t = 0x01#8 ∨ t = 0x02#8) → 1024 < 256 * hi.toNat + lo.toNat →
      exec (.upload low t hi lo vectors) s = .refused .lengthOverflow)

/-- The five unrecognised opcodes reply Err and leave everything else untouched
(spec/60_exceptions.md R250). -/
def Obligations.UnrecognisedCommandsReplyErr : Prop :=
  ∀ (low : BitVec 5) (s : State),
    ∀ i ∈ [Instr.bad3 low, Instr.bad4 low, Instr.bad5 low, Instr.bad6 low, Instr.bad7 low],
      exec i s = .next
        { s with
          tx := s.tx ++ [Config.params.resErr], history := s.history ++ [.tx Config.params.resErr],
          phase := .waitCmd }

/-- Run outside its preconditions is refused, the exponent being looked at first
(spec/44_commands.md R233 with decisions D6 and D13, spec/60_exceptions.md R258). -/
def Obligations.RunRefusesOutsideItsPreconditions : Prop :=
  ∀ (low : BitVec 5) (e : Byte) (s : State),
    (15 < e.toNat → exec (.run low e) s = .refused .exponentTooLarge) ∧
    (e.toNat ≤ 15 → (s.pbWritten = false ∨ s.tsWritten = false) →
      exec (.run low e) s = .refused .notConfigured)

/-- Run within its preconditions completes, whatever the DUT answers (spec/44_commands.md R234): it inhibits
interrupts, applies the stored configuration, repeats the engine the session selects
(spec/41_vector_sequencer.md R145), and replies the verdict of that. The events are those of R235 in their
order, the engine's repetitions leaving the ones between `configure` and `reset()`; the pins end in the
safe idle state with interrupts allowed; configuration, session, both written marks, `rx` and the bytes in
reception are as before, and so are the registers of the engine that did not run. Inhibition over logic
runs and `configure` and `reset` once per run are decisions D31 and D32 (log entry 14); that `result` keeps
the verdict after the reply is the model's choice (log entry 20). -/
def Obligations.RunCompletesAndRestoresIdle : Prop :=
  ∀ (low : BitVec 5) (e : Byte) (s : State),
    e.toNat ≤ 15 → s.pbWritten = true → s.tsWritten = true →
    let started := configure (setInhibit true (setPhase .running s))
    let r := repeatEngine (runEngine Config.params Config.env) e started
    ∃ t : State, exec (.run low e) s = .next t ∧
      (∀ b, t.ddr.get b = 0x00#8) ∧ (∀ b, t.out.get b = 0x00#8) ∧ t.irqInhibit = false ∧
      t.phase = .waitCmd ∧ t.result = r.2 ∧
      (∃ es, (∀ x ∈ es, engineEvent x = true) ∧ r.1.history = started.history ++ es ∧
        t.history = s.history ++ [.inh true] ++ configureEvents s.pb ++ es ++ resetEvents ++
          farewellEvents Config.params r.2) ∧
      t.tx = s.tx ++
        [match r.2 with | .pass => Config.params.resPass | .fail => Config.params.resFail] ∧
      t.pb = s.pb ∧ t.pbWritten = true ∧ t.tsType = s.tsType ∧ t.tsLength = s.tsLength ∧
      t.tsWritten = true ∧ (∀ a, t.vs.read a = s.vs.read a) ∧ t.rx = s.rx ∧ t.cmdBuf = s.cmdBuf ∧
      t.past = s.past ∧
      (s.tsType = .memory → t.pos = s.pos) ∧
      (s.tsType ≠ .memory →
        t.row = s.row ∧ t.col = s.col ∧ t.pat = s.pat ∧ t.pulse = s.pulse ∧ t.mbus = s.mbus)

/-- "There is no other hardware-detected condition": no command ends in a fault
(spec/60_exceptions.md R253), and a refusal comes only of the four violations of R254. -/
def Obligations.CommandsStopOnlyOutsideTheContract : Prop :=
  ∀ (i : Instr) (s : State),
    (∀ f, exec i s ≠ .fault f) ∧
    ∀ r, exec i s = .refused r →
      (∃ low t hi lo vectors, i = .upload low t hi lo vectors ∧
        ((r = .badType ∧ decodeType Config.params t = none) ∨
         (r = .lengthOverflow ∧ 1024 < 256 * hi.toNat + lo.toNat))) ∨
      (∃ low e, i = .run low e ∧
        ((r = .exponentTooLarge ∧ 15 < e.toNat) ∨
         (r = .notConfigured ∧ (s.pbWritten = false ∨ s.tsWritten = false))))

/-- Every command that completes sends exactly one byte, one of the four results
(spec/30_encoding.md R98): Ok for Setup and Upload, Pass or Fail for Run, Err for the rest. -/
def Obligations.EveryCommandSendsOneReply : Prop :=
  ∀ (i : Instr) (s t : State), exec i s = .next t →
    ∃ r : Result, t.tx = s.tx ++ [resultByte Config.params r] ∧
      match i with
      | .setup _ _ => r = .ok
      | .upload _ _ _ _ _ => r = .ok
      | .run _ _ => r = .pass ∨ r = .fail
      | .bad3 _ => r = .err
      | .bad4 _ => r = .err
      | .bad5 _ => r = .err
      | .bad6 _ => r = .err
      | .bad7 _ => r = .err

/-- Configuration and session "persist across commands until explicitly overwritten"
(spec/10_state.md R30): a command other than Setup leaves `PB`, one other than Upload leaves the session
and every byte of the store; after a reset both "must be re-sent". -/
def Obligations.ConfigurationAndSessionPersist : Prop :=
  ∀ (i : Instr) (s t : State), exec i s = .next t →
    ((∀ low banks, i ≠ .setup low banks) → t.pb = s.pb ∧ t.pbWritten = s.pbWritten) ∧
    ((∀ low ty hi lo vectors, i ≠ .upload low ty hi lo vectors) →
      t.tsType = s.tsType ∧ t.tsLength = s.tsLength ∧ t.tsWritten = s.tsWritten ∧
      ∀ a, t.vs.read a = s.vs.read a) ∧
    (s.hardwareReset.pbWritten = false ∧ s.hardwareReset.tsWritten = false)

/-- A run that fails takes the abort path (spec/60_exceptions.md R259, R260). For a logic session a checked
vector was driven, the banks from bank 0 on were read, and the last read, which differs from the vector
under the sample mask, is the last event before `reset()`. For a Memory session the last read shows on
`DOUT` the other bit than the pattern `d` that port L still carries on `DIN`, and the release of the column
strobe and of the row strobe follow it. Then come `reset()`, the release of interrupts and the reply Fail.
Releasing the row strobe on abort is decision D27 (log entry 14). -/
def Obligations.FailingRunTakesTheAbortPath : Prop :=
  ∀ (low : BitVec 5) (e : Byte) (s t : State),
    exec (.run low e) s = .next t → t.tx = s.tx ++ [Config.params.resFail] →
    (s.tsType ≠ .memory →
      ∃ es p xs b x,
        t.history = s.history ++ es ++ driveEvents s.pb (getVector s p) ++
          List.zipWith Event.rd [.b0, .b1, .b2] xs ++ [.rd b x] ++ resetEvents ++
          [.inh false, .tx Config.params.resFail] ∧
        p < s.tsLength.toNat ∧ samples s.tsType (BitVec.ofNat 11 p) = true ∧ xs.length = b.index ∧
        x &&& sampleMask (s.pb.get b) ≠ (getVector s p).get b &&& sampleMask (s.pb.get b)) ∧
    (s.tsType = .memory →
      ∃ es x aH aL d,
        t.history = s.history ++ es ++
          [.rd Config.params.memHBank x, writesH Config.params aH true,
            writesL Config.params aL true true d] ++
          resetEvents ++ [.inh false, .tx Config.params.resFail] ∧
        x.getLsbD Config.params.hDout ≠ d)

/-! ## pin_bank_driver -/

/-- `drive(b, v)` writes the masked byte and nothing else (spec/40_pin_bank_driver.md R123). -/
def Obligations.DriveWritesTheMaskedByte : Prop :=
  ∀ (b : Bank) (v : Byte) (s : State),
    let c := s.pb.get b
    let w := c.used &&& ((v &&& c.direction) ||| (c.idlePull &&& ~~~c.direction))
    drive b v s = { s with out := s.out.set b w, history := s.history ++ [.wr b w] }

/-- `sample(b)` reads the input register once and gives its bits at connected pins the DUT drives
(spec/40_pin_bank_driver.md R125); it writes no state but the event (and the script of log entry 1). -/
def Obligations.SampleMasksTheInput : Prop :=
  ∀ (E : Env) (b : Bank) (s : State),
    let raw := portInput E b s
    (sample E b s).1 = raw &&& ~~~(s.pb.get b).direction &&& (s.pb.get b).used ∧
      (sample E b s).2 =
        { s with history := s.history ++ [.rd b raw], pinScript := s.pinScript.tail }

/-- Each bit of a port read (spec/10_state.md R27, decisions D3 and D34): the driven level on an output
pin; else the DUT's level where it drives; else 1 under the pull; else the draw for this read, which is given
every event so far (log entries 2 and 21). -/
def Obligations.ReadGivesThePinLevels : Prop :=
  ∀ (E : Env) (b : Bank) (s : State) (i : Nat), i < 8 →
    (portRead E b s).1.getLsbD i =
      if (s.ddr.get b).getLsbD i then (s.out.get b).getLsbD i
      else if (dutAnswer E b s).drives.getLsbD i then (dutAnswer E b s).level.getLsbD i
      else if (s.out.get b).getLsbD i then true
      else (E.draw (s.past ++ s.history) b).getLsbD i

/-- `configure` writes the three direction registers, bank 0 first, and nothing else; `reset()` clears
every direction and output register, `DDR` before `OUT` in each bank, and touches nothing else, `PB` and
`TS` included (spec/40_pin_bank_driver.md R121, R129; the orders are decision D28). -/
def Obligations.ConfigureAndResetTouchPortsOnly : Prop :=
  ∀ s : State,
    configure s =
      { s with
        ddr := ⟨s.pb.b0.used &&& s.pb.b0.direction, s.pb.b1.used &&& s.pb.b1.direction,
          s.pb.b2.used &&& s.pb.b2.direction⟩,
        history := s.history ++ configureEvents s.pb } ∧
    resetPins s =
      { s with ddr := ⟨0, 0, 0⟩, out := ⟨0, 0, 0⟩, history := s.history ++ resetEvents }

/-- After `configure` the driven-pin mask of every bank is `used & direction`, and no `Wr` event of
`drive` or `reset()` has a bit outside `used` (spec/40_pin_bank_driver.md R130). -/
def Obligations.DrivenPinsAreUsedAndDirection : Prop :=
  ∀ (s : State) (b : Bank),
    ((configure s).ddr.get b = (s.pb.get b).used &&& (s.pb.get b).direction) ∧
    (∀ v, ∃ w, (drive b v s).history = s.history ++ [.wr b w] ∧ w &&& ~~~(s.pb.get b).used = 0x00#8) ∧
    (∃ es, (resetPins s).history = s.history ++ es ∧
      ∀ w, Event.wr b w ∈ es → w &&& ~~~(s.pb.get b).used = 0x00#8)

/-- "Only bits set in `used` ever affect the physical port" (spec/10_state.md R22): over a whole logic run
no `Dir` and no `Wr` event has a bit outside `used`, and no sampled value has one. -/
def Obligations.LogicRunLeavesUnusedPinsAlone : Prop :=
  ∀ (low : BitVec 5) (e : Byte) (s t : State), s.tsType ≠ .memory →
    exec (.run low e) s = .next t →
    (∃ es, t.history = s.history ++ es ∧
      ∀ b v, Event.dir b v ∈ es ∨ Event.wr b v ∈ es → v &&& ~~~(s.pb.get b).used = 0x00#8) ∧
    ∀ E b, (sample E b s).1 &&& ~~~(s.pb.get b).used = 0x00#8

/-! ## vector_sequencer -/

/-- `get(p)` gives the bytes of the store at `3*p`, `3*p + 1`, `3*p + 2`
(spec/41_vector_sequencer.md R143). -/
def Obligations.GetReadsThreeBytesOfTheStore : Prop :=
  ∀ (s : State) (p : Nat),
    getVector s p = ⟨s.vs.read (3 * p), s.vs.read (3 * p + 1), s.vs.read (3 * p + 2)⟩

/-- "The engine is selected by `TS.type` alone" (spec/41_vector_sequencer.md R147). -/
def Obligations.EngineIsSelectedByTypeAlone : Prop :=
  ∀ (P : Params) (E : Env) (s : State),
    (s.tsType = .memory → runEngine P E s = dramEngine P E s) ∧
    (s.tsType = .combinational → runEngine P E s = runLogic E s) ∧
    (s.tsType = .sequential → runEngine P E s = runLogic E s)

/-- A mock engine: it leaves one delay event at each execution and answers the verdict listed for that
execution, counted from the history's length `base` (spec/41_vector_sequencer.md R148). -/
def mockEngine (base : Nat) (verdicts : Nat → Verdict) (s : State) : State × Verdict :=
  (delay .settle s, verdicts (s.history.length - base))

/-- Repetition control (spec/41_vector_sequencer.md R148): the engine runs `2^exponent` times if no
execution fails, and stops at the first that does; `rep` and `result` end accordingly. -/
def Obligations.RepetitionStopsAtTheFirstFail : Prop :=
  ∀ (verdicts : Nat → Verdict) (e : Byte) (s : State), e.toNat ≤ 15 →
    let r := repeatEngine (mockEngine s.history.length verdicts) e s
    ((∀ j, j < 2 ^ e.toNat → verdicts j = .pass) →
      r.2 = .pass ∧ r.1.result = .pass ∧ r.1.rep = 0#16 ∧
      r.1.history = s.history ++ List.replicate (2 ^ e.toNat) (.dly .settle)) ∧
    (∀ k, k < 2 ^ e.toNat → (∀ j, j < k → verdicts j = .pass) → verdicts k = .fail →
      r.2 = .fail ∧ r.1.result = .fail ∧ r.1.rep = BitVec.ofNat 16 (2 ^ e.toNat - k) ∧
      r.1.history = s.history ++ List.replicate (k + 1) (.dly .settle))

/-! ## generic_logic_comparator -/

/-- Which vectors are checked (spec/42_generic_logic_comparator.md R163). -/
def Obligations.SamplingPolicyByTypeAndParity : Prop :=
  ∀ pos : BitVec 11,
    samples .combinational pos = true ∧
    samples .sequential pos = decide (pos.toNat % 2 = 1) ∧
    samples .memory pos = false

/-- Order within one vector (spec/42_generic_logic_comparator.md R162): the three drives, bank 0 first,
then the settle delay, then, for a sampled vector, reads of banks 0, 1, 2 in that order, of which a
mismatch leaves out the later ones; an unsampled vector is driven and settled all the same. -/
def Obligations.VectorEventsInOrder : Prop :=
  ∀ (E : Env) (s : State),
    let r := applyVector E s
    let v := getVector s s.pos.toNat
    (samples s.tsType s.pos = false →
      r.2 = .pass ∧ r.1.history = s.history ++ driveEvents s.pb v) ∧
    (samples s.tsType s.pos = true →
      ∃ x0 x1 x2,
        let ok := fun (b : Bank) (x : Byte) =>
          x &&& ~~~(s.pb.get b).direction &&& (s.pb.get b).used =
            (v.get b) &&& ~~~(s.pb.get b).direction &&& (s.pb.get b).used
        let before := s.history ++ driveEvents s.pb v
        (¬ ok .b0 x0 ∧ r.2 = .fail ∧ r.1.history = before ++ [.rd .b0 x0]) ∨
        (ok .b0 x0 ∧ ¬ ok .b1 x1 ∧ r.2 = .fail ∧
          r.1.history = before ++ [.rd .b0 x0, .rd .b1 x1]) ∨
        (ok .b0 x0 ∧ ok .b1 x1 ∧ ¬ ok .b2 x2 ∧ r.2 = .fail ∧
          r.1.history = before ++ [.rd .b0 x0, .rd .b1 x1, .rd .b2 x2]) ∨
        (ok .b0 x0 ∧ ok .b1 x1 ∧ ok .b2 x2 ∧ r.2 = .pass ∧
          r.1.history = before ++ [.rd .b0 x0, .rd .b1 x1, .rd .b2 x2]))

/-- A mismatch ends `runLogic` at once (spec/42_generic_logic_comparator.md R165, R161): on Fail `pos` is
the index of a sampled vector of the session and the output registers stay as that vector drove them; on
Pass `pos` is `TS.length`. -/
def Obligations.MismatchEndsTheLogicRun : Prop :=
  ∀ (E : Env) (s : State),
    let r := runLogic E s
    (r.2 = .fail → r.1.pos.toNat < s.tsLength.toNat ∧ samples s.tsType r.1.pos = true ∧
      ∀ b, r.1.out.get b =
        driveByte (s.pb.get b) ((getVector s r.1.pos.toNat).get b)) ∧
    (r.2 = .pass → r.1.pos = s.tsLength)

/-- The loopback round trip and the odd/even split (spec/42_generic_logic_comparator.md R170): with
every sampled pin wired to mirror a driven pin, a logic session passes exactly when, in every vector that
is checked, the bit expected at each sampled pin equals the bit driven at the pin it mirrors; in a
Sequential session only odd-indexed vectors are checked. The script of answers, the model's own field, is
empty, so that the wiring answers every read (log entry 1). -/
def Obligations.LoopbackRoundTrip : Prop :=
  ∀ (w : Wiring) (E : Env) (s : State),
    WiredAs w E → s.pinScript = [] → s.tsType ≠ .memory →
    (∀ b, s.ddr.get b = (s.pb.get b).used &&& (s.pb.get b).direction) →
    (∀ b i, i < 8 → (sampleMask (s.pb.get b)).getLsbD i = true →
      ((s.pb.get (w b i).1).used &&& (s.pb.get (w b i).1).direction).getLsbD (w b i).2 = true) →
    ((runLogic E s).2 = .pass ↔
      ∀ p, p < s.tsLength.toNat → (s.tsType = .combinational ∨ p % 2 = 1) →
        ∀ b i, i < 8 → (sampleMask (s.pb.get b)).getLsbD i = true →
          ((getVector s p).get b).getLsbD i =
            ((getVector s p).get (w b i).1).getLsbD (w b i).2)

/-- A Run of an empty logic session passes at every exponent, whatever the DUT, and leaves only the
events of `configure` and `reset()` between its own (spec/42_generic_logic_comparator.md R167). That `rep`
keeps its last value after the reply is the model's choice (log entry 20). -/
def Obligations.EmptySessionPassesAtEveryExponent : Prop :=
  ∀ (low : BitVec 5) (e : Byte) (s : State),
    e.toNat ≤ 15 → s.pbWritten = true → s.tsWritten = true → s.tsType ≠ .memory →
    s.tsLength = 0#11 →
    ∃ t, exec (.run low e) s = .next t ∧ t.tx = s.tx ++ [Config.params.resPass] ∧
      t.history = s.history ++ [.inh true] ++ configureEvents s.pb ++ resetEvents ++
        [.inh false, .tx Config.params.resPass] ∧
      t.rep = 0#16

/-- Event counts of a passing execution of `runLogic` over `n` vectors: `7n` for Combinational,
`4n + 3*floor(n/2)` for Sequential (spec/95_test_vectors.md section 2.3 (d)). -/
def Obligations.PassingLogicRunEventCount : Prop :=
  ∀ (E : Env) (s : State), (runLogic E s).2 = .pass →
    (s.tsType = .combinational →
      (runLogic E s).1.history.length = s.history.length + 7 * s.tsLength.toNat) ∧
    (s.tsType = .sequential →
      (runLogic E s).1.history.length =
        s.history.length + 4 * s.tsLength.toNat + 3 * (s.tsLength.toNat / 2))

/-! ## dram_engine -/

/-- The address split (spec/43_dram_engine.md R185): row above column, each half a 5-bit high field
above a 3-bit low field; which half is the row is decision D20. -/
def Obligations.AddressSplitsIntoRowAndColumn : Prop :=
  (∀ addr : BitVec 16, rowOf addr ++ colOf addr = addr) ∧
  (∀ h : Byte, highField h ++ lowField h = h ∧
    (highField h).toNat = h.toNat / 8 ∧ (lowField h).toNat = h.toNat % 8)

/-- Under parameters within R9's constraints every signal has its own bit of its port's image, all other
bits are 0, and the direction masks have a 1 at exactly the driven signals
(spec/43_dram_engine.md R181, R182, R184, decisions D18, D19, D21). -/
def Obligations.BusSignalsHaveTheirOwnBits : Prop :=
  ∀ (P : Params) (m : MBus), P.Valid →
    (∀ i, i < 8 → (busL P m).getLsbD i =
      if i = P.lWe then m.we else if i = P.lRas then m.ras else if i = P.lDin then m.din
      else if P.lAPos ≤ i ∧ i < P.lAPos + 3 then m.aL.getLsbD (i - P.lAPos) else false) ∧
    (∀ i, i < 8 → (busH P m).getLsbD i =
      if i = P.hCas then m.cas
      else if P.hAPos ≤ i ∧ i < P.hAPos + 5 then m.aH.getLsbD (i - P.hAPos) else false) ∧
    (∀ i, i < 8 → (dirL P).getLsbD i =
      decide (i = P.lWe ∨ i = P.lRas ∨ i = P.lDin ∨ (P.lAPos ≤ i ∧ i < P.lAPos + 3))) ∧
    (∀ i, i < 8 → (dirH P).getLsbD i =
      decide (i = P.hCas ∨ (P.hAPos ≤ i ∧ i < P.hAPos + 5)))

/-- `memSetup` leaves exactly its 29 events, the bus idle, both ports' directions and levels set and the
pulse counter at 8, and nothing else changed (spec/43_dram_engine.md R190, decisions D23, D24, D29). -/
def Obligations.MemSetupLeavesTheBusIdle : Prop :=
  ∀ (P : Params) (s : State), P.memLBank ≠ P.memHBank →
    (memSetupEvents P).length = 29 ∧
    memSetup P s =
      { s with
        mbus := ⟨0, true, true, false, 0, true⟩, pulse := 8#4,
        ddr := (s.ddr.set P.memLBank (dirL P)).set P.memHBank (dirH P),
        out := (s.out.set P.memLBank (busL P ⟨0, true, true, false, 0, true⟩)).set P.memHBank
          (busH P ⟨0, true, true, false, 0, true⟩),
        history := s.history ++ memSetupEvents P }

/-- `testBit` is a write cycle, then a read cycle at the same address, in the signal order of R195 and
R196, and passes exactly when the bit sampled on `DOUT` is the bit written (spec/43_dram_engine.md R197,
decision D22). -/
def Obligations.TestBitWritesThenReadsBack : Prop :=
  ∀ (P : Params) (E : Env) (addr : BitVec 16) (d : Bool) (s : State), StrobesIdle s.mbus →
    ∃ x, (testBit P E addr d s).1.history = s.history ++
        (openRowEvents P (rowOf addr) s.mbus.din ++ writeColEvents P (colOf addr) d ++
          closeRowEvents P (colOf addr) d) ++
        (openRowEvents P (rowOf addr) d ++ readColEvents P (colOf addr) d x ++
          closeRowEvents P (colOf addr) d) ∧
      ((testBit P E addr d s).2 = .pass ↔ x.getLsbD P.hDout = d) ∧
      StrobesIdle (testBit P E addr d s).1.mbus

/-- A page test writes the whole row, releasing the row strobe once, before it reads any column, and
reads in ascending order up to the first bit that differs (spec/43_dram_engine.md R205 to R207); the strobes
are idle whenever it returns. Write enable raised in every column, the row presented again, the row strobe
released on abort and the ascending columns are decisions D25 to D28 (log entry 14). -/
def Obligations.PageIsWrittenWholeBeforeItIsRead : Prop :=
  ∀ (P : Params) (E : Env) (r : Byte) (d : Bool) (s : State), StrobesIdle s.mbus →
    ∃ xs : List Byte,
      (testPage P E r d s).1.history =
        s.history ++ pageWriteEvents P r d s.mbus.din ++ pageReadEvents P r d xs ∧
      0 < xs.length ∧ xs.length ≤ 256 ∧
      (∀ x ∈ xs.dropLast, x.getLsbD P.hDout = d) ∧
      ((testPage P E r d s).2 = .pass → xs.length = 256 ∧ ∀ x ∈ xs, x.getLsbD P.hDout = d) ∧
      ((testPage P E r d s).2 = .fail → ∃ x ∈ xs.getLast?, x.getLsbD P.hDout ≠ d) ∧
      StrobesIdle (testPage P E r d s).1.mbus

/-- The full test visits the pages in order, each row with pattern 0 and then with pattern 1, and ends at
the first page that fails (spec/43_dram_engine.md R210); every page before the last passed, the verdict is
Pass exactly when all 512 pages passed, and on Fail the last bit read is not the bit written. The events of
each page and the ascending rows are decisions D25 to D28 (log entry 14). -/
def Obligations.FullTestVisitsThePagesInOrder : Prop :=
  ∀ (P : Params) (E : Env) (s : State), StrobesIdle s.mbus →
    ∃ xss : List (List Byte),
      0 < xss.length ∧ xss.length ≤ 512 ∧ (∀ xs ∈ xss, 0 < xs.length ∧ xs.length ≤ 256) ∧
      (runMemory P E s).1.history = s.history ++ pagesEvents P s.mbus.din (pages.zip xss) ∧
      (∀ p ∈ (pages.zip xss).dropLast, PagePasses P p.1.2 p.2) ∧
      ((runMemory P E s).2 = .pass ↔ xss.length = 512 ∧ ∀ p ∈ pages.zip xss, PagePasses P p.1.2 p.2) ∧
      ((runMemory P E s).2 = .fail →
        ∃ p ∈ (pages.zip xss).getLast?, ∃ x ∈ p.2.getLast?, x.getLsbD P.hDout ≠ p.1.2)

/-- The DRAM engine reads nothing of the CORE's state but its own run registers, the ports and the
environment (spec/43_dram_engine.md R212): with everything else as in another state `o` it does the same and
leaves all of that as it is. -/
def Obligations.DramEngineReadsOnlyItsOwnRegisters : Prop :=
  ∀ (P : Params) (E : Env) (s o : State),
    let other := fun x : State =>
      { x with
        pb := o.pb, pbWritten := o.pbWritten, tsType := o.tsType, tsLength := o.tsLength,
        tsWritten := o.tsWritten, vs := o.vs, pos := o.pos, rep := o.rep, result := o.result,
        irqInhibit := o.irqInhibit, rx := o.rx, tx := o.tx, phase := o.phase, cmdBuf := o.cmdBuf }
    dramEngine P E (other s) = (other (dramEngine P E s).1, (dramEngine P E s).2)

/-- The DRAM engine moves only its two ports (spec/43_dram_engine.md R182, R184, R191): the third bank keeps
its registers, the bus banks end with the engine's directions and with the images of the bus record, and
the strobes are idle, whatever the verdict (R206, R211, R213). The directions are decision D21, the strobes
released on abort decision D27 (log entry 14). -/
def Obligations.DramEngineMovesOnlyItsTwoPorts : Prop :=
  ∀ (P : Params) (E : Env) (s : State), P.memLBank ≠ P.memHBank →
    let t := (dramEngine P E s).1
    (∀ b, b ≠ P.memLBank → b ≠ P.memHBank →
      t.ddr.get b = s.ddr.get b ∧ t.out.get b = s.out.get b) ∧
    t.ddr.get P.memLBank = dirL P ∧ t.ddr.get P.memHBank = dirH P ∧
    t.out.get P.memLBank = busL P t.mbus ∧ t.out.get P.memHBank = busH P t.mbus ∧
    StrobesIdle t.mbus

/-- Every read of the DRAM engine comes right after the `T_CAC` delay, which comes right after a write of
port H that holds the column strobe low (spec/43_dram_engine.md R187). -/
def Obligations.DramReadsWaitForTheColumnDelay : Prop :=
  ∀ (P : Params) (E : Env) (s : State),
    ∃ es, (dramEngine P E s).1.history = s.history ++ es ∧
      ∀ (before after : List Event) (b : Bank) (x : Byte), es = before ++ .rd b x :: after →
        b = P.memHBank ∧ ∃ first aH, before = first ++ [writesH P aH false, .dly .cac]

/-- The round trip of R214: with an ideal DRAM of any contents on the bus, after `memSetup` from any
state, `testBit` passes at every address and `testPage` in every row, for either bit. The ideal DRAM is
presumed and its idle levels are chosen (log entry 18); the script of answers is empty, so that it answers
every read (log entry 1). -/
def Obligations.IdealDramRoundTrip : Prop :=
  ∀ (P : Params) (cells : Byte → Byte → Bool) (draw : List Event → Bank → Byte) (s : State),
    P.Valid → s.pinScript = [] →
    (∀ addr d, (testBit P (idealDram P cells draw) addr d (memSetup P s)).2 = .pass) ∧
    (∀ r d, (testPage P (idealDram P cells draw) r d (memSetup P s)).2 = .pass)

/-- The full test passes on an ideal DRAM of any contents, from any state, and leaves a 1 in every cell;
it is 1445917 events and ends with every row and column tested and the second pattern in use
(spec/43_dram_engine.md R210, R211, R213, spec/95_test_vectors.md section 2.4 (e) and (f), log entry
18; the count rests on decision D23; the script of answers is empty, log entry 1). -/
def Obligations.IdealDramPassesTheFullTest : Prop :=
  ∀ (P : Params) (cells : Byte → Byte → Bool) (draw : List Event → Bank → Byte) (s : State),
    P.Valid → s.pinScript = [] →
    (dramEngine P (idealDram P cells draw) s).2 = .pass ∧
    (∀ row col,
      (dramOf P cells (observed (dramEngine P (idealDram P cells draw) s).1)).cells row col = true) ∧
    (dramEngine P (idealDram P cells draw) s).1.history.length = s.history.length + 1445917 ∧
    (dramEngine P (idealDram P cells draw) s).1.row = 256#9 ∧
    (dramEngine P (idealDram P cells draw) s).1.col = 256#9 ∧
    (dramEngine P (idealDram P cells draw) s).1.pat = true

/-! ## Order over a whole logic run, and reset inside a command -/

/-- The events of one execution of `runLogic` are those of vectors 0, 1, 2, ... in ascending order, each
once, with nothing between (spec/41_vector_sequencer.md R144, spec/42_generic_logic_comparator.md R161,
R165): on Pass every vector of the session passed; on Fail all but the last one applied passed, and that
one is checked and fails at the first bank that disagrees. -/
def Obligations.LogicRunAppliesTheVectorsInOrder : Prop :=
  ∀ (E : Env) (s : State),
    let r := runLogic E s
    let checked := fun p : Nat => samples s.tsType (BitVec.ofNat 11 p)
    ∃ xss : List (List Byte), xss.length ≤ s.tsLength.toNat ∧
      r.1.history = s.history ++
        xss.zipIdx.flatMap (fun xp => vectorEvents s.pb (getVector s xp.2) xp.1) ∧
      (r.2 = .pass → xss.length = s.tsLength.toNat ∧
        ∀ xp ∈ xss.zipIdx, VectorPasses s.pb (checked xp.2) (getVector s xp.2) xp.1) ∧
      (r.2 = .fail →
        (∀ xp ∈ xss.zipIdx.dropLast, VectorPasses s.pb (checked xp.2) (getVector s xp.2) xp.1) ∧
        ∃ xp ∈ xss.zipIdx.getLast?, VectorFails s.pb (checked xp.2) (getVector s xp.2) xp.1)

/-- A hardware reset ends a command after any number of its events (spec/70_reset_and_hazards.md R280,
R281): the CORE is as after power-on, and the DUT has seen the events up to there, those of earlier times
before them and the effect of `reset()` after them, each read having used up one scripted answer. After all
of its events it is the reset of the state the command leaves. The model's and not the spec's are: that a
reset inside a command is an act beside the step and falls between two of the command's events (log entry
11), how the environment is given these events (log entries 1 and 21), and the values of the registers that
R40 leaves open (log entries 3 to 6), which the equation with `State.reset` fixes too. -/
def Obligations.ResetEndsACommandAfterAnyOfItsEvents : Prop :=
  ∀ (n : Nat) (s t : State), step s = .next t →
    ∃ es, t.history = s.history ++ es ∧
      s.resetDuring n = .next
        { State.reset with
          past := s.past ++ s.history ++ es.take n ++ resetEvents
          pinScript := s.pinScript.drop (readsIn (es.take n)) } ∧
      (es.length ≤ n → s.resetDuring n = .next t.hardwareReset)
end

