-- ==== Sys2Proof/Laws/Closure.lean ====
section
/-! SUPPORT. Everything an engine can do, said once: a relation between states that holds of each
primitive move of an engine, and is reflexive and transitive, holds of the whole engine. Frames and
history laws follow by naming the relation. -/

namespace Sys2Proof.Machine

/-- A relation closed under the moves of the logic engine. -/
structure LogicClosed (E : Env) (R : State → State → Prop) : Prop where
  refl : ∀ s, R s s
  trans : ∀ {s t u}, R s t → R t u → R s u
  drive : ∀ b v s, R s (drive b v s)
  read : ∀ b s, R s (afterRead E b s)
  settle : ∀ s, R s (settle s)
  pos : ∀ v s, R s (setPos v s)

/-- A relation closed under the moves of the DRAM engine. -/
structure DramClosed (P : Params) (E : Env) (R : State → State → Prop) : Prop where
  refl : ∀ s, R s s
  trans : ∀ {s t u}, R s t → R t u → R s u
  bus : ∀ v s, R s (setMBus v s)
  writeL : ∀ s, R s (writeL P s)
  writeH : ∀ s, R s (writeH P s)
  read : ∀ s, R s (afterRead E P.memHBank s)
  delay : ∀ n s, R s (delay n s)
  dirL : ∀ s, R s (setDir P.memLBank (dirL P) s)
  dirH : ∀ s, R s (setDir P.memHBank (dirH P) s)
  pulse : ∀ v s, R s (setPulse v s)
  col : ∀ v s, R s (setCol v s)
  row : ∀ v s, R s (setRow v s)
  pat : ∀ v s, R s (setPat v s)

section Logic

variable {E : Env} {R : State → State → Prop} (h : LogicClosed E R)
include h

theorem driveVector_closed (v : Vec) (s : State) : R s (driveVector v s) :=
  h.trans (h.trans (h.trans (h.drive _ _ _) (h.drive _ _ _)) (h.drive _ _ _)) (h.settle _)

theorem compareBanks_closed (v : Vec) (bs : List Bank) (s : State) : R s (compareBanks E v bs s).1 := by
  induction bs generalizing s with
  | nil => exact h.refl s
  | cons b bs ih =>
    simp only [compareBanks]
    split
    · exact h.read b s
    · exact h.trans (h.read b s) (ih _)

theorem applyVector_closed (s : State) : R s (applyVector E s).1 := by
  unfold applyVector
  dsimp only
  split
  · exact h.trans (driveVector_closed h _ s) (compareBanks_closed h _ _ _)
  · exact driveVector_closed h _ s

theorem logicLoop_closed (n : Nat) (s : State) : R s (logicLoop E n s).1 := by
  induction n generalizing s with
  | zero => exact h.refl s
  | succ n ih =>
    simp only [logicLoop]
    split
    · exact applyVector_closed h s
    · exact h.trans (applyVector_closed h s) (h.trans (h.pos _ _) (ih _))

theorem runLogic_closed (s : State) : R s (runLogic E s).1 :=
  h.trans (h.pos 0 s) (logicLoop_closed h _ _)

end Logic

section Dram

variable {P : Params} {E : Env} {R : State → State → Prop} (h : DramClosed P E R)
include h

theorem busStep_closed (v : MBus) (s : State) :
    R s (writeL P (setMBus v s)) ∧ R s (writeH P (setMBus v s)) :=
  ⟨h.trans (h.bus v s) (h.writeL _), h.trans (h.bus v s) (h.writeH _)⟩

theorem openRow_closed (r : Byte) (s : State) : R s (openRow P r s) :=
  h.trans (h.trans (busStep_closed h _ _).2 (busStep_closed h _ _).1) (busStep_closed h _ _).1

theorem closeRow_closed (s : State) : R s (closeRow P s) := (busStep_closed h _ _).1

theorem writeCol_closed (c : Byte) (d : Bool) (s : State) : R s (writeCol P c d s) :=
  h.trans
    (h.trans
      (h.trans
        (h.trans
          (h.trans (h.trans (h.trans (h.bus _ s) (h.bus _ _)) (h.bus _ _)) (h.writeL _))
          (busStep_closed h _ _).2)
        (busStep_closed h _ _).2)
      (busStep_closed h _ _).1)
    (busStep_closed h _ _).2

theorem readCol_closed (c : Byte) (s : State) : R s (readCol P E c s).1 :=
  h.trans
    (h.trans
      (h.trans
        (h.trans (h.trans (busStep_closed h _ s).1 (busStep_closed h _ _).2) (busStep_closed h _ _).2)
        (h.delay _ _))
      (h.read _))
    (busStep_closed h _ _).2

theorem warmupLoop_closed (n : Nat) (s : State) : R s (warmupLoop P n s) := by
  induction n generalizing s with
  | zero => exact h.refl s
  | succ n ih =>
    exact h.trans
      (h.trans
        (h.trans (h.trans (busStep_closed h _ s).1 (h.delay _ _)) (busStep_closed h _ _).1)
        (h.pulse _ _))
      (ih _)

theorem memSetup_closed (s : State) : R s (memSetup P s) :=
  h.trans
    (h.trans
      (h.trans (h.trans (h.trans (h.trans (busStep_closed h _ s).1 (h.writeH _)) (h.dirL _)) (h.dirH _))
        (h.delay _ _))
      (h.pulse _ _))
    (warmupLoop_closed h 8 _)

theorem testBit_closed (addr : BitVec 16) (d : Bool) (s : State) : R s (testBit P E addr d s).1 :=
  h.trans
    (h.trans
      (h.trans
        (h.trans (h.trans (openRow_closed h _ s) (writeCol_closed h _ _ _)) (closeRow_closed h _))
        (openRow_closed h _ _))
      (readCol_closed h _ _))
    (closeRow_closed h _)

theorem pageWriteLoop_closed (d : Bool) (n : Nat) (s : State) : R s (pageWriteLoop P d n s) := by
  induction n generalizing s with
  | zero => exact h.refl s
  | succ n ih => exact h.trans (h.trans (writeCol_closed h _ _ s) (h.col _ _)) (ih _)

theorem pageReadLoop_closed (d : Bool) (n : Nat) (s : State) : R s (pageReadLoop P E d n s).1 := by
  induction n generalizing s with
  | zero => exact h.refl s
  | succ n ih =>
    simp only [pageReadLoop]
    split
    · exact readCol_closed h _ s
    · exact h.trans (readCol_closed h _ s) (h.trans (h.col _ _) (ih _))

theorem pageWrite_closed (r : Byte) (d : Bool) (s : State) : R s (pageWrite P r d s) :=
  h.trans (h.trans (h.trans (openRow_closed h r s) (h.col _ _)) (pageWriteLoop_closed h d 256 _))
    (closeRow_closed h _)

theorem pageRead_closed (r : Byte) (d : Bool) (s : State) : R s (pageRead P E r d s).1 :=
  h.trans (h.trans (h.trans (openRow_closed h r s) (h.col _ _)) (pageReadLoop_closed h d 256 _))
    (closeRow_closed h _)

theorem testPage_closed (r : Byte) (d : Bool) (s : State) : R s (testPage P E r d s).1 :=
  h.trans (pageWrite_closed h r d s) (pageRead_closed h r d _)

theorem patternPage_closed (d : Bool) (s : State) : R s (patternPage P E d s).1 :=
  h.trans (h.pat d s) (testPage_closed h _ d _)

theorem testRow_closed (s : State) : R s (testRow P E s).1 := by
  unfold testRow
  dsimp only
  split
  · exact patternPage_closed h false s
  · exact h.trans (patternPage_closed h false s) (patternPage_closed h true _)

theorem rowLoop_closed (n : Nat) (s : State) : R s (rowLoop P E n s).1 := by
  induction n generalizing s with
  | zero => exact h.refl s
  | succ n ih =>
    simp only [rowLoop]
    split
    · exact testRow_closed h s
    · exact h.trans (testRow_closed h s) (h.trans (h.row _ _) (ih _))

theorem runMemory_closed (s : State) : R s (runMemory P E s).1 :=
  h.trans (h.row 0 s) (rowLoop_closed h 256 _)

theorem dramEngine_closed (s : State) : R s (dramEngine P E s).1 :=
  h.trans (memSetup_closed h s) (runMemory_closed h _)

end Dram

/-- The repetition loop, given the engine's own closure from states on which an invariant `I` of the run
holds. -/
theorem repeatLoop_closed {R : State → State → Prop} {engine : State → State × Verdict}
    (refl : ∀ s, R s s) (trans : ∀ {s t u}, R s t → R t u → R s u) (I : State → Prop)
    (keeps : ∀ {s t}, I s → R s t → I t)
    (run : ∀ s, I s → R s (engine s).1) (result : ∀ v s, R s (setResult v s))
    (rep : ∀ v s, R s (setRep v s)) (n : Nat) (s : State) (hs : I s) :
    R s (repeatLoop engine n s).1 := by
  induction n generalizing s with
  | zero => exact refl s
  | succ n ih =>
    simp only [repeatLoop]
    have hr : R s (setResult (engine s).2 (engine s).1) := trans (run s hs) (result _ _)
    split
    · exact hr
    · have hr' : R s (setRep ((setResult (engine s).2 (engine s).1).rep - 1)
          (setResult (engine s).2 (engine s).1)) := trans hr (rep _ _)
      exact trans hr' (ih _ (keeps hs hr'))

end Sys2Proof.Machine
end

