-- ==== Sys2Proof/Laws/Decode.lean ====
section
/-! SUPPORT. The fields of the command byte, and the vectors of an Upload taken from its payload
(spec/30_encoding.md R91, R92, R94). -/

namespace Sys2Proof

@[simp] theorem opcodeOf_opcodeBits (o : Opcode) : opcodeOf (opcodeBits o) = o := by
  cases o <;> rfl

@[simp] theorem opcodeBits_opcodeOf (c : BitVec 3) : opcodeBits (opcodeOf c) = c := by
  revert c; decide

@[simp] theorem opcodeField_commandByte (o : Opcode) (low : BitVec 5) :
    opcodeField (commandByte o low) = opcodeBits o := by
  cases o <;> revert low <;> decide

@[simp] theorem unusedField_commandByte (o : Opcode) (low : BitVec 5) :
    unusedField (commandByte o low) = low := by
  cases o <;> revert low <;> decide

/-- A command byte is its opcode and its unused bits. -/
theorem commandByte_fields (cmd : Byte) (o : Opcode) (h : opcodeOf (opcodeField cmd) = o) :
    commandByte o (unusedField cmd) = cmd := by
  subst h
  apply BitVec.eq_of_getLsbD_eq
  intro i hi
  unfold commandByte
  rw [opcodeBits_opcodeOf, BitVec.getLsbD_append]
  simp only [opcodeField, unusedField, BitVec.getLsbD_extractLsb']
  split
  · simp [*]
  · have h1 : i - 5 < 3 := by omega
    have h2 : 5 + (i - 5) = i := by omega
    simp [h1, h2]

/-- What `takeVectors` answers, it took from the front of the bytes. -/
theorem takeVectors_sound (n : Nat) (bs : List Byte) (vs : List Vec) (rest : List Byte)
    (h : takeVectors n bs = some (vs, rest)) :
    vs.length = n ∧ bs = vs.flatMap encodeVec ++ rest := by
  induction n generalizing bs vs with
  | zero =>
    simp only [takeVectors, Option.some.injEq, Prod.mk.injEq] at h
    obtain ⟨rfl, rfl⟩ := h
    exact ⟨rfl, rfl⟩
  | succ n ih =>
    match bs, h with
    | [], h => simp [takeVectors] at h
    | [_], h => simp [takeVectors] at h
    | [_, _], h => simp [takeVectors] at h
    | a :: b :: c :: bs, h =>
      simp only [takeVectors] at h
      split at h
      · rename_i vs' rest' heq
        simp only [Option.some.injEq, Prod.mk.injEq] at h
        obtain ⟨rfl, rfl⟩ := h
        obtain ⟨rfl, rfl⟩ := ih bs vs' heq
        exact ⟨rfl, by simp [encodeVec]⟩
      · cases h

/-- It takes back vectors that were encoded. -/
theorem takeVectors_flatMap (vs : List Vec) (rest : List Byte) :
    takeVectors vs.length (vs.flatMap encodeVec ++ rest) = some (vs, rest) := by
  induction vs with
  | nil => rfl
  | cons v vs ih => simp [encodeVec, takeVectors] at ih ⊢; simp [ih]

/-- It fails exactly when there are too few bytes. -/
theorem takeVectors_eq_none (n : Nat) (bs : List Byte) :
    takeVectors n bs = none ↔ bs.length < 3 * n := by
  induction n generalizing bs with
  | zero => simp [takeVectors]
  | succ n ih =>
    match bs with
    | [] => simp [takeVectors]
    | [_] => simp [takeVectors]; omega
    | [_, _] => simp [takeVectors]; omega
    | a :: b :: c :: bs =>
      have := ih bs
      simp only [takeVectors, List.length_cons]
      cases hq : takeVectors n bs with
      | none => simp [hq] at this; simp; omega
      | some q => simp [hq] at this; simp; omega

/-- The condition on an Upload's header in its parts. -/
theorem headerAccepted_iff (P : Params) (t hi lo : Byte) :
    headerAccepted P t hi lo = true ↔
      (t = P.typeComb ∨ t = P.typeSeq ∨ t = P.typeMem) ∧ 256 * hi.toNat + lo.toNat ≤ 1024 := by
  rw [headerAccepted, Bool.and_eq_true, decide_eq_true_iff]
  simp [assembleLength, maxVectors, or_assoc]

/-- A command within the contract has the shape the decoder answers with. -/
theorem framed_of_wf (P : Params) (i : Instr) (h : i.wf P = true) : framed P i = true := by
  cases i with
  | upload low t hi lo vs =>
    simp only [Instr.wf, Bool.and_eq_true, typeWithinContract, lengthWithinContract,
      vectorsFillLength] at h
    have ha : headerAccepted P t hi lo = true := by
      simp only [headerAccepted, assembleLength, maxVectors, Bool.and_eq_true]
      exact ⟨h.1.1, h.1.2⟩
    simp only [framed, ha, if_true]
    exact h.2
  | setup _ _ => rfl
  | run _ _ => rfl
  | bad3 _ => rfl
  | bad4 _ => rfl
  | bad5 _ => rfl
  | bad6 _ => rfl
  | bad7 _ => rfl

/-- An incomplete command never names a phase inside a command. -/
theorem decode_more_receiving (P : Params) (bs : List Byte) (p : Phase) (h : decode P bs = .more p) :
    p ≠ .running ∧ p ≠ .reply := by
  match bs with
  | [] => simp only [decode, DecodeResult.more.injEq] at h; subst h; exact ⟨by simp, by simp⟩
  | cmd :: bs =>
    simp only [decode] at h
    split at h <;> try cases h
    · unfold decodeSetup at h
      split at h
      · cases h
      · cases h; exact ⟨by simp, by simp⟩
    · unfold decodeUpload at h
      split at h
      · split at h
        · split at h
          · cases h
          · cases h; exact ⟨by simp, by simp⟩
        · cases h
      · cases h; exact ⟨by simp, by simp⟩
    · unfold decodeRun at h
      split at h
      · cases h
      · cases h; exact ⟨by simp, by simp⟩

end Sys2Proof
end

