-- ==== Sys2Proof/Laws/State.lean ====
section
/-! SUPPORT. What each named update of the state does to each field, one lemma per field, so that no
proof unfolds an update. The fields an update writes come first. -/

namespace Sys2Proof.Machine

variable (s : State)

/-! ## `record` -/

@[simp] theorem record_history (e : Event) : (record e s).history = s.history ++ [e] := rfl
@[simp] theorem record_pb (e : Event) : (record e s).pb = s.pb := rfl
@[simp] theorem record_pbWritten (e : Event) : (record e s).pbWritten = s.pbWritten := rfl
@[simp] theorem record_ddr (e : Event) : (record e s).ddr = s.ddr := rfl
@[simp] theorem record_out (e : Event) : (record e s).out = s.out := rfl
@[simp] theorem record_tsType (e : Event) : (record e s).tsType = s.tsType := rfl
@[simp] theorem record_tsLength (e : Event) : (record e s).tsLength = s.tsLength := rfl
@[simp] theorem record_tsWritten (e : Event) : (record e s).tsWritten = s.tsWritten := rfl
@[simp] theorem record_vs (e : Event) : (record e s).vs = s.vs := rfl
@[simp] theorem record_pos (e : Event) : (record e s).pos = s.pos := rfl
@[simp] theorem record_rep (e : Event) : (record e s).rep = s.rep := rfl
@[simp] theorem record_result (e : Event) : (record e s).result = s.result := rfl
@[simp] theorem record_row (e : Event) : (record e s).row = s.row := rfl
@[simp] theorem record_col (e : Event) : (record e s).col = s.col := rfl
@[simp] theorem record_pat (e : Event) : (record e s).pat = s.pat := rfl
@[simp] theorem record_pulse (e : Event) : (record e s).pulse = s.pulse := rfl
@[simp] theorem record_mbus (e : Event) : (record e s).mbus = s.mbus := rfl
@[simp] theorem record_irqInhibit (e : Event) : (record e s).irqInhibit = s.irqInhibit := rfl
@[simp] theorem record_rx (e : Event) : (record e s).rx = s.rx := rfl
@[simp] theorem record_tx (e : Event) : (record e s).tx = s.tx := rfl
@[simp] theorem record_phase (e : Event) : (record e s).phase = s.phase := rfl
@[simp] theorem record_cmdBuf (e : Event) : (record e s).cmdBuf = s.cmdBuf := rfl
@[simp] theorem record_past (e : Event) : (record e s).past = s.past := rfl
@[simp] theorem record_pinScript (e : Event) : (record e s).pinScript = s.pinScript := rfl

/-! ## `setDir` -/

@[simp] theorem setDir_ddr (b : Bank) (v : Byte) : (setDir b v s).ddr = s.ddr.set b v := rfl
@[simp] theorem setDir_history (b : Bank) (v : Byte) : (setDir b v s).history = s.history ++ [.dir b v] := rfl
@[simp] theorem setDir_pb (b : Bank) (v : Byte) : (setDir b v s).pb = s.pb := rfl
@[simp] theorem setDir_pbWritten (b : Bank) (v : Byte) : (setDir b v s).pbWritten = s.pbWritten := rfl
@[simp] theorem setDir_out (b : Bank) (v : Byte) : (setDir b v s).out = s.out := rfl
@[simp] theorem setDir_tsType (b : Bank) (v : Byte) : (setDir b v s).tsType = s.tsType := rfl
@[simp] theorem setDir_tsLength (b : Bank) (v : Byte) : (setDir b v s).tsLength = s.tsLength := rfl
@[simp] theorem setDir_tsWritten (b : Bank) (v : Byte) : (setDir b v s).tsWritten = s.tsWritten := rfl
@[simp] theorem setDir_vs (b : Bank) (v : Byte) : (setDir b v s).vs = s.vs := rfl
@[simp] theorem setDir_pos (b : Bank) (v : Byte) : (setDir b v s).pos = s.pos := rfl
@[simp] theorem setDir_rep (b : Bank) (v : Byte) : (setDir b v s).rep = s.rep := rfl
@[simp] theorem setDir_result (b : Bank) (v : Byte) : (setDir b v s).result = s.result := rfl
@[simp] theorem setDir_row (b : Bank) (v : Byte) : (setDir b v s).row = s.row := rfl
@[simp] theorem setDir_col (b : Bank) (v : Byte) : (setDir b v s).col = s.col := rfl
@[simp] theorem setDir_pat (b : Bank) (v : Byte) : (setDir b v s).pat = s.pat := rfl
@[simp] theorem setDir_pulse (b : Bank) (v : Byte) : (setDir b v s).pulse = s.pulse := rfl
@[simp] theorem setDir_mbus (b : Bank) (v : Byte) : (setDir b v s).mbus = s.mbus := rfl
@[simp] theorem setDir_irqInhibit (b : Bank) (v : Byte) : (setDir b v s).irqInhibit = s.irqInhibit := rfl
@[simp] theorem setDir_rx (b : Bank) (v : Byte) : (setDir b v s).rx = s.rx := rfl
@[simp] theorem setDir_tx (b : Bank) (v : Byte) : (setDir b v s).tx = s.tx := rfl
@[simp] theorem setDir_phase (b : Bank) (v : Byte) : (setDir b v s).phase = s.phase := rfl
@[simp] theorem setDir_cmdBuf (b : Bank) (v : Byte) : (setDir b v s).cmdBuf = s.cmdBuf := rfl
@[simp] theorem setDir_past (b : Bank) (v : Byte) : (setDir b v s).past = s.past := rfl
@[simp] theorem setDir_pinScript (b : Bank) (v : Byte) : (setDir b v s).pinScript = s.pinScript := rfl

/-! ## `portWrite` -/

@[simp] theorem portWrite_out (b : Bank) (v : Byte) : (portWrite b v s).out = s.out.set b v := rfl
@[simp] theorem portWrite_history (b : Bank) (v : Byte) : (portWrite b v s).history = s.history ++ [.wr b v] := rfl
@[simp] theorem portWrite_pb (b : Bank) (v : Byte) : (portWrite b v s).pb = s.pb := rfl
@[simp] theorem portWrite_pbWritten (b : Bank) (v : Byte) : (portWrite b v s).pbWritten = s.pbWritten := rfl
@[simp] theorem portWrite_ddr (b : Bank) (v : Byte) : (portWrite b v s).ddr = s.ddr := rfl
@[simp] theorem portWrite_tsType (b : Bank) (v : Byte) : (portWrite b v s).tsType = s.tsType := rfl
@[simp] theorem portWrite_tsLength (b : Bank) (v : Byte) : (portWrite b v s).tsLength = s.tsLength := rfl
@[simp] theorem portWrite_tsWritten (b : Bank) (v : Byte) : (portWrite b v s).tsWritten = s.tsWritten := rfl
@[simp] theorem portWrite_vs (b : Bank) (v : Byte) : (portWrite b v s).vs = s.vs := rfl
@[simp] theorem portWrite_pos (b : Bank) (v : Byte) : (portWrite b v s).pos = s.pos := rfl
@[simp] theorem portWrite_rep (b : Bank) (v : Byte) : (portWrite b v s).rep = s.rep := rfl
@[simp] theorem portWrite_result (b : Bank) (v : Byte) : (portWrite b v s).result = s.result := rfl
@[simp] theorem portWrite_row (b : Bank) (v : Byte) : (portWrite b v s).row = s.row := rfl
@[simp] theorem portWrite_col (b : Bank) (v : Byte) : (portWrite b v s).col = s.col := rfl
@[simp] theorem portWrite_pat (b : Bank) (v : Byte) : (portWrite b v s).pat = s.pat := rfl
@[simp] theorem portWrite_pulse (b : Bank) (v : Byte) : (portWrite b v s).pulse = s.pulse := rfl
@[simp] theorem portWrite_mbus (b : Bank) (v : Byte) : (portWrite b v s).mbus = s.mbus := rfl
@[simp] theorem portWrite_irqInhibit (b : Bank) (v : Byte) : (portWrite b v s).irqInhibit = s.irqInhibit := rfl
@[simp] theorem portWrite_rx (b : Bank) (v : Byte) : (portWrite b v s).rx = s.rx := rfl
@[simp] theorem portWrite_tx (b : Bank) (v : Byte) : (portWrite b v s).tx = s.tx := rfl
@[simp] theorem portWrite_phase (b : Bank) (v : Byte) : (portWrite b v s).phase = s.phase := rfl
@[simp] theorem portWrite_cmdBuf (b : Bank) (v : Byte) : (portWrite b v s).cmdBuf = s.cmdBuf := rfl
@[simp] theorem portWrite_past (b : Bank) (v : Byte) : (portWrite b v s).past = s.past := rfl
@[simp] theorem portWrite_pinScript (b : Bank) (v : Byte) : (portWrite b v s).pinScript = s.pinScript := rfl

/-! ## `afterRead` -/

@[simp] theorem afterRead_history (E : Env) (b : Bank) : (afterRead E b s).history = s.history ++ [.rd b (portInput E b s)] := rfl
@[simp] theorem afterRead_pinScript (E : Env) (b : Bank) : (afterRead E b s).pinScript = s.pinScript.tail := rfl
@[simp] theorem afterRead_pb (E : Env) (b : Bank) : (afterRead E b s).pb = s.pb := rfl
@[simp] theorem afterRead_pbWritten (E : Env) (b : Bank) : (afterRead E b s).pbWritten = s.pbWritten := rfl
@[simp] theorem afterRead_ddr (E : Env) (b : Bank) : (afterRead E b s).ddr = s.ddr := rfl
@[simp] theorem afterRead_out (E : Env) (b : Bank) : (afterRead E b s).out = s.out := rfl
@[simp] theorem afterRead_tsType (E : Env) (b : Bank) : (afterRead E b s).tsType = s.tsType := rfl
@[simp] theorem afterRead_tsLength (E : Env) (b : Bank) : (afterRead E b s).tsLength = s.tsLength := rfl
@[simp] theorem afterRead_tsWritten (E : Env) (b : Bank) : (afterRead E b s).tsWritten = s.tsWritten := rfl
@[simp] theorem afterRead_vs (E : Env) (b : Bank) : (afterRead E b s).vs = s.vs := rfl
@[simp] theorem afterRead_pos (E : Env) (b : Bank) : (afterRead E b s).pos = s.pos := rfl
@[simp] theorem afterRead_rep (E : Env) (b : Bank) : (afterRead E b s).rep = s.rep := rfl
@[simp] theorem afterRead_result (E : Env) (b : Bank) : (afterRead E b s).result = s.result := rfl
@[simp] theorem afterRead_row (E : Env) (b : Bank) : (afterRead E b s).row = s.row := rfl
@[simp] theorem afterRead_col (E : Env) (b : Bank) : (afterRead E b s).col = s.col := rfl
@[simp] theorem afterRead_pat (E : Env) (b : Bank) : (afterRead E b s).pat = s.pat := rfl
@[simp] theorem afterRead_pulse (E : Env) (b : Bank) : (afterRead E b s).pulse = s.pulse := rfl
@[simp] theorem afterRead_mbus (E : Env) (b : Bank) : (afterRead E b s).mbus = s.mbus := rfl
@[simp] theorem afterRead_irqInhibit (E : Env) (b : Bank) : (afterRead E b s).irqInhibit = s.irqInhibit := rfl
@[simp] theorem afterRead_rx (E : Env) (b : Bank) : (afterRead E b s).rx = s.rx := rfl
@[simp] theorem afterRead_tx (E : Env) (b : Bank) : (afterRead E b s).tx = s.tx := rfl
@[simp] theorem afterRead_phase (E : Env) (b : Bank) : (afterRead E b s).phase = s.phase := rfl
@[simp] theorem afterRead_cmdBuf (E : Env) (b : Bank) : (afterRead E b s).cmdBuf = s.cmdBuf := rfl
@[simp] theorem afterRead_past (E : Env) (b : Bank) : (afterRead E b s).past = s.past := rfl

/-! ## `delay` -/

@[simp] theorem delay_history (n : DelayName) : (delay n s).history = s.history ++ [.dly n] := rfl
@[simp] theorem delay_pb (n : DelayName) : (delay n s).pb = s.pb := rfl
@[simp] theorem delay_pbWritten (n : DelayName) : (delay n s).pbWritten = s.pbWritten := rfl
@[simp] theorem delay_ddr (n : DelayName) : (delay n s).ddr = s.ddr := rfl
@[simp] theorem delay_out (n : DelayName) : (delay n s).out = s.out := rfl
@[simp] theorem delay_tsType (n : DelayName) : (delay n s).tsType = s.tsType := rfl
@[simp] theorem delay_tsLength (n : DelayName) : (delay n s).tsLength = s.tsLength := rfl
@[simp] theorem delay_tsWritten (n : DelayName) : (delay n s).tsWritten = s.tsWritten := rfl
@[simp] theorem delay_vs (n : DelayName) : (delay n s).vs = s.vs := rfl
@[simp] theorem delay_pos (n : DelayName) : (delay n s).pos = s.pos := rfl
@[simp] theorem delay_rep (n : DelayName) : (delay n s).rep = s.rep := rfl
@[simp] theorem delay_result (n : DelayName) : (delay n s).result = s.result := rfl
@[simp] theorem delay_row (n : DelayName) : (delay n s).row = s.row := rfl
@[simp] theorem delay_col (n : DelayName) : (delay n s).col = s.col := rfl
@[simp] theorem delay_pat (n : DelayName) : (delay n s).pat = s.pat := rfl
@[simp] theorem delay_pulse (n : DelayName) : (delay n s).pulse = s.pulse := rfl
@[simp] theorem delay_mbus (n : DelayName) : (delay n s).mbus = s.mbus := rfl
@[simp] theorem delay_irqInhibit (n : DelayName) : (delay n s).irqInhibit = s.irqInhibit := rfl
@[simp] theorem delay_rx (n : DelayName) : (delay n s).rx = s.rx := rfl
@[simp] theorem delay_tx (n : DelayName) : (delay n s).tx = s.tx := rfl
@[simp] theorem delay_phase (n : DelayName) : (delay n s).phase = s.phase := rfl
@[simp] theorem delay_cmdBuf (n : DelayName) : (delay n s).cmdBuf = s.cmdBuf := rfl
@[simp] theorem delay_past (n : DelayName) : (delay n s).past = s.past := rfl
@[simp] theorem delay_pinScript (n : DelayName) : (delay n s).pinScript = s.pinScript := rfl

/-! ## `setInhibit` -/

@[simp] theorem setInhibit_irqInhibit (v : Bool) : (setInhibit v s).irqInhibit = v := rfl
@[simp] theorem setInhibit_history (v : Bool) : (setInhibit v s).history = s.history ++ [.inh v] := rfl
@[simp] theorem setInhibit_pb (v : Bool) : (setInhibit v s).pb = s.pb := rfl
@[simp] theorem setInhibit_pbWritten (v : Bool) : (setInhibit v s).pbWritten = s.pbWritten := rfl
@[simp] theorem setInhibit_ddr (v : Bool) : (setInhibit v s).ddr = s.ddr := rfl
@[simp] theorem setInhibit_out (v : Bool) : (setInhibit v s).out = s.out := rfl
@[simp] theorem setInhibit_tsType (v : Bool) : (setInhibit v s).tsType = s.tsType := rfl
@[simp] theorem setInhibit_tsLength (v : Bool) : (setInhibit v s).tsLength = s.tsLength := rfl
@[simp] theorem setInhibit_tsWritten (v : Bool) : (setInhibit v s).tsWritten = s.tsWritten := rfl
@[simp] theorem setInhibit_vs (v : Bool) : (setInhibit v s).vs = s.vs := rfl
@[simp] theorem setInhibit_pos (v : Bool) : (setInhibit v s).pos = s.pos := rfl
@[simp] theorem setInhibit_rep (v : Bool) : (setInhibit v s).rep = s.rep := rfl
@[simp] theorem setInhibit_result (v : Bool) : (setInhibit v s).result = s.result := rfl
@[simp] theorem setInhibit_row (v : Bool) : (setInhibit v s).row = s.row := rfl
@[simp] theorem setInhibit_col (v : Bool) : (setInhibit v s).col = s.col := rfl
@[simp] theorem setInhibit_pat (v : Bool) : (setInhibit v s).pat = s.pat := rfl
@[simp] theorem setInhibit_pulse (v : Bool) : (setInhibit v s).pulse = s.pulse := rfl
@[simp] theorem setInhibit_mbus (v : Bool) : (setInhibit v s).mbus = s.mbus := rfl
@[simp] theorem setInhibit_rx (v : Bool) : (setInhibit v s).rx = s.rx := rfl
@[simp] theorem setInhibit_tx (v : Bool) : (setInhibit v s).tx = s.tx := rfl
@[simp] theorem setInhibit_phase (v : Bool) : (setInhibit v s).phase = s.phase := rfl
@[simp] theorem setInhibit_cmdBuf (v : Bool) : (setInhibit v s).cmdBuf = s.cmdBuf := rfl
@[simp] theorem setInhibit_past (v : Bool) : (setInhibit v s).past = s.past := rfl
@[simp] theorem setInhibit_pinScript (v : Bool) : (setInhibit v s).pinScript = s.pinScript := rfl

/-! ## `setPos` -/

@[simp] theorem setPos_pos (v : BitVec 11) : (setPos v s).pos = v := rfl
@[simp] theorem setPos_pb (v : BitVec 11) : (setPos v s).pb = s.pb := rfl
@[simp] theorem setPos_pbWritten (v : BitVec 11) : (setPos v s).pbWritten = s.pbWritten := rfl
@[simp] theorem setPos_ddr (v : BitVec 11) : (setPos v s).ddr = s.ddr := rfl
@[simp] theorem setPos_out (v : BitVec 11) : (setPos v s).out = s.out := rfl
@[simp] theorem setPos_tsType (v : BitVec 11) : (setPos v s).tsType = s.tsType := rfl
@[simp] theorem setPos_tsLength (v : BitVec 11) : (setPos v s).tsLength = s.tsLength := rfl
@[simp] theorem setPos_tsWritten (v : BitVec 11) : (setPos v s).tsWritten = s.tsWritten := rfl
@[simp] theorem setPos_vs (v : BitVec 11) : (setPos v s).vs = s.vs := rfl
@[simp] theorem setPos_rep (v : BitVec 11) : (setPos v s).rep = s.rep := rfl
@[simp] theorem setPos_result (v : BitVec 11) : (setPos v s).result = s.result := rfl
@[simp] theorem setPos_row (v : BitVec 11) : (setPos v s).row = s.row := rfl
@[simp] theorem setPos_col (v : BitVec 11) : (setPos v s).col = s.col := rfl
@[simp] theorem setPos_pat (v : BitVec 11) : (setPos v s).pat = s.pat := rfl
@[simp] theorem setPos_pulse (v : BitVec 11) : (setPos v s).pulse = s.pulse := rfl
@[simp] theorem setPos_mbus (v : BitVec 11) : (setPos v s).mbus = s.mbus := rfl
@[simp] theorem setPos_irqInhibit (v : BitVec 11) : (setPos v s).irqInhibit = s.irqInhibit := rfl
@[simp] theorem setPos_rx (v : BitVec 11) : (setPos v s).rx = s.rx := rfl
@[simp] theorem setPos_tx (v : BitVec 11) : (setPos v s).tx = s.tx := rfl
@[simp] theorem setPos_phase (v : BitVec 11) : (setPos v s).phase = s.phase := rfl
@[simp] theorem setPos_cmdBuf (v : BitVec 11) : (setPos v s).cmdBuf = s.cmdBuf := rfl
@[simp] theorem setPos_history (v : BitVec 11) : (setPos v s).history = s.history := rfl
@[simp] theorem setPos_past (v : BitVec 11) : (setPos v s).past = s.past := rfl
@[simp] theorem setPos_pinScript (v : BitVec 11) : (setPos v s).pinScript = s.pinScript := rfl

/-! ## `setRep` -/

@[simp] theorem setRep_rep (v : BitVec 16) : (setRep v s).rep = v := rfl
@[simp] theorem setRep_pb (v : BitVec 16) : (setRep v s).pb = s.pb := rfl
@[simp] theorem setRep_pbWritten (v : BitVec 16) : (setRep v s).pbWritten = s.pbWritten := rfl
@[simp] theorem setRep_ddr (v : BitVec 16) : (setRep v s).ddr = s.ddr := rfl
@[simp] theorem setRep_out (v : BitVec 16) : (setRep v s).out = s.out := rfl
@[simp] theorem setRep_tsType (v : BitVec 16) : (setRep v s).tsType = s.tsType := rfl
@[simp] theorem setRep_tsLength (v : BitVec 16) : (setRep v s).tsLength = s.tsLength := rfl
@[simp] theorem setRep_tsWritten (v : BitVec 16) : (setRep v s).tsWritten = s.tsWritten := rfl
@[simp] theorem setRep_vs (v : BitVec 16) : (setRep v s).vs = s.vs := rfl
@[simp] theorem setRep_pos (v : BitVec 16) : (setRep v s).pos = s.pos := rfl
@[simp] theorem setRep_result (v : BitVec 16) : (setRep v s).result = s.result := rfl
@[simp] theorem setRep_row (v : BitVec 16) : (setRep v s).row = s.row := rfl
@[simp] theorem setRep_col (v : BitVec 16) : (setRep v s).col = s.col := rfl
@[simp] theorem setRep_pat (v : BitVec 16) : (setRep v s).pat = s.pat := rfl
@[simp] theorem setRep_pulse (v : BitVec 16) : (setRep v s).pulse = s.pulse := rfl
@[simp] theorem setRep_mbus (v : BitVec 16) : (setRep v s).mbus = s.mbus := rfl
@[simp] theorem setRep_irqInhibit (v : BitVec 16) : (setRep v s).irqInhibit = s.irqInhibit := rfl
@[simp] theorem setRep_rx (v : BitVec 16) : (setRep v s).rx = s.rx := rfl
@[simp] theorem setRep_tx (v : BitVec 16) : (setRep v s).tx = s.tx := rfl
@[simp] theorem setRep_phase (v : BitVec 16) : (setRep v s).phase = s.phase := rfl
@[simp] theorem setRep_cmdBuf (v : BitVec 16) : (setRep v s).cmdBuf = s.cmdBuf := rfl
@[simp] theorem setRep_history (v : BitVec 16) : (setRep v s).history = s.history := rfl
@[simp] theorem setRep_past (v : BitVec 16) : (setRep v s).past = s.past := rfl
@[simp] theorem setRep_pinScript (v : BitVec 16) : (setRep v s).pinScript = s.pinScript := rfl

/-! ## `setResult` -/

@[simp] theorem setResult_result (v : Verdict) : (setResult v s).result = v := rfl
@[simp] theorem setResult_pb (v : Verdict) : (setResult v s).pb = s.pb := rfl
@[simp] theorem setResult_pbWritten (v : Verdict) : (setResult v s).pbWritten = s.pbWritten := rfl
@[simp] theorem setResult_ddr (v : Verdict) : (setResult v s).ddr = s.ddr := rfl
@[simp] theorem setResult_out (v : Verdict) : (setResult v s).out = s.out := rfl
@[simp] theorem setResult_tsType (v : Verdict) : (setResult v s).tsType = s.tsType := rfl
@[simp] theorem setResult_tsLength (v : Verdict) : (setResult v s).tsLength = s.tsLength := rfl
@[simp] theorem setResult_tsWritten (v : Verdict) : (setResult v s).tsWritten = s.tsWritten := rfl
@[simp] theorem setResult_vs (v : Verdict) : (setResult v s).vs = s.vs := rfl
@[simp] theorem setResult_pos (v : Verdict) : (setResult v s).pos = s.pos := rfl
@[simp] theorem setResult_rep (v : Verdict) : (setResult v s).rep = s.rep := rfl
@[simp] theorem setResult_row (v : Verdict) : (setResult v s).row = s.row := rfl
@[simp] theorem setResult_col (v : Verdict) : (setResult v s).col = s.col := rfl
@[simp] theorem setResult_pat (v : Verdict) : (setResult v s).pat = s.pat := rfl
@[simp] theorem setResult_pulse (v : Verdict) : (setResult v s).pulse = s.pulse := rfl
@[simp] theorem setResult_mbus (v : Verdict) : (setResult v s).mbus = s.mbus := rfl
@[simp] theorem setResult_irqInhibit (v : Verdict) : (setResult v s).irqInhibit = s.irqInhibit := rfl
@[simp] theorem setResult_rx (v : Verdict) : (setResult v s).rx = s.rx := rfl
@[simp] theorem setResult_tx (v : Verdict) : (setResult v s).tx = s.tx := rfl
@[simp] theorem setResult_phase (v : Verdict) : (setResult v s).phase = s.phase := rfl
@[simp] theorem setResult_cmdBuf (v : Verdict) : (setResult v s).cmdBuf = s.cmdBuf := rfl
@[simp] theorem setResult_history (v : Verdict) : (setResult v s).history = s.history := rfl
@[simp] theorem setResult_past (v : Verdict) : (setResult v s).past = s.past := rfl
@[simp] theorem setResult_pinScript (v : Verdict) : (setResult v s).pinScript = s.pinScript := rfl

/-! ## `setRow` -/

@[simp] theorem setRow_row (v : BitVec 9) : (setRow v s).row = v := rfl
@[simp] theorem setRow_pb (v : BitVec 9) : (setRow v s).pb = s.pb := rfl
@[simp] theorem setRow_pbWritten (v : BitVec 9) : (setRow v s).pbWritten = s.pbWritten := rfl
@[simp] theorem setRow_ddr (v : BitVec 9) : (setRow v s).ddr = s.ddr := rfl
@[simp] theorem setRow_out (v : BitVec 9) : (setRow v s).out = s.out := rfl
@[simp] theorem setRow_tsType (v : BitVec 9) : (setRow v s).tsType = s.tsType := rfl
@[simp] theorem setRow_tsLength (v : BitVec 9) : (setRow v s).tsLength = s.tsLength := rfl
@[simp] theorem setRow_tsWritten (v : BitVec 9) : (setRow v s).tsWritten = s.tsWritten := rfl
@[simp] theorem setRow_vs (v : BitVec 9) : (setRow v s).vs = s.vs := rfl
@[simp] theorem setRow_pos (v : BitVec 9) : (setRow v s).pos = s.pos := rfl
@[simp] theorem setRow_rep (v : BitVec 9) : (setRow v s).rep = s.rep := rfl
@[simp] theorem setRow_result (v : BitVec 9) : (setRow v s).result = s.result := rfl
@[simp] theorem setRow_col (v : BitVec 9) : (setRow v s).col = s.col := rfl
@[simp] theorem setRow_pat (v : BitVec 9) : (setRow v s).pat = s.pat := rfl
@[simp] theorem setRow_pulse (v : BitVec 9) : (setRow v s).pulse = s.pulse := rfl
@[simp] theorem setRow_mbus (v : BitVec 9) : (setRow v s).mbus = s.mbus := rfl
@[simp] theorem setRow_irqInhibit (v : BitVec 9) : (setRow v s).irqInhibit = s.irqInhibit := rfl
@[simp] theorem setRow_rx (v : BitVec 9) : (setRow v s).rx = s.rx := rfl
@[simp] theorem setRow_tx (v : BitVec 9) : (setRow v s).tx = s.tx := rfl
@[simp] theorem setRow_phase (v : BitVec 9) : (setRow v s).phase = s.phase := rfl
@[simp] theorem setRow_cmdBuf (v : BitVec 9) : (setRow v s).cmdBuf = s.cmdBuf := rfl
@[simp] theorem setRow_history (v : BitVec 9) : (setRow v s).history = s.history := rfl
@[simp] theorem setRow_past (v : BitVec 9) : (setRow v s).past = s.past := rfl
@[simp] theorem setRow_pinScript (v : BitVec 9) : (setRow v s).pinScript = s.pinScript := rfl

/-! ## `setCol` -/

@[simp] theorem setCol_col (v : BitVec 9) : (setCol v s).col = v := rfl
@[simp] theorem setCol_pb (v : BitVec 9) : (setCol v s).pb = s.pb := rfl
@[simp] theorem setCol_pbWritten (v : BitVec 9) : (setCol v s).pbWritten = s.pbWritten := rfl
@[simp] theorem setCol_ddr (v : BitVec 9) : (setCol v s).ddr = s.ddr := rfl
@[simp] theorem setCol_out (v : BitVec 9) : (setCol v s).out = s.out := rfl
@[simp] theorem setCol_tsType (v : BitVec 9) : (setCol v s).tsType = s.tsType := rfl
@[simp] theorem setCol_tsLength (v : BitVec 9) : (setCol v s).tsLength = s.tsLength := rfl
@[simp] theorem setCol_tsWritten (v : BitVec 9) : (setCol v s).tsWritten = s.tsWritten := rfl
@[simp] theorem setCol_vs (v : BitVec 9) : (setCol v s).vs = s.vs := rfl
@[simp] theorem setCol_pos (v : BitVec 9) : (setCol v s).pos = s.pos := rfl
@[simp] theorem setCol_rep (v : BitVec 9) : (setCol v s).rep = s.rep := rfl
@[simp] theorem setCol_result (v : BitVec 9) : (setCol v s).result = s.result := rfl
@[simp] theorem setCol_row (v : BitVec 9) : (setCol v s).row = s.row := rfl
@[simp] theorem setCol_pat (v : BitVec 9) : (setCol v s).pat = s.pat := rfl
@[simp] theorem setCol_pulse (v : BitVec 9) : (setCol v s).pulse = s.pulse := rfl
@[simp] theorem setCol_mbus (v : BitVec 9) : (setCol v s).mbus = s.mbus := rfl
@[simp] theorem setCol_irqInhibit (v : BitVec 9) : (setCol v s).irqInhibit = s.irqInhibit := rfl
@[simp] theorem setCol_rx (v : BitVec 9) : (setCol v s).rx = s.rx := rfl
@[simp] theorem setCol_tx (v : BitVec 9) : (setCol v s).tx = s.tx := rfl
@[simp] theorem setCol_phase (v : BitVec 9) : (setCol v s).phase = s.phase := rfl
@[simp] theorem setCol_cmdBuf (v : BitVec 9) : (setCol v s).cmdBuf = s.cmdBuf := rfl
@[simp] theorem setCol_history (v : BitVec 9) : (setCol v s).history = s.history := rfl
@[simp] theorem setCol_past (v : BitVec 9) : (setCol v s).past = s.past := rfl
@[simp] theorem setCol_pinScript (v : BitVec 9) : (setCol v s).pinScript = s.pinScript := rfl

/-! ## `setPat` -/

@[simp] theorem setPat_pat (v : Bool) : (setPat v s).pat = v := rfl
@[simp] theorem setPat_pb (v : Bool) : (setPat v s).pb = s.pb := rfl
@[simp] theorem setPat_pbWritten (v : Bool) : (setPat v s).pbWritten = s.pbWritten := rfl
@[simp] theorem setPat_ddr (v : Bool) : (setPat v s).ddr = s.ddr := rfl
@[simp] theorem setPat_out (v : Bool) : (setPat v s).out = s.out := rfl
@[simp] theorem setPat_tsType (v : Bool) : (setPat v s).tsType = s.tsType := rfl
@[simp] theorem setPat_tsLength (v : Bool) : (setPat v s).tsLength = s.tsLength := rfl
@[simp] theorem setPat_tsWritten (v : Bool) : (setPat v s).tsWritten = s.tsWritten := rfl
@[simp] theorem setPat_vs (v : Bool) : (setPat v s).vs = s.vs := rfl
@[simp] theorem setPat_pos (v : Bool) : (setPat v s).pos = s.pos := rfl
@[simp] theorem setPat_rep (v : Bool) : (setPat v s).rep = s.rep := rfl
@[simp] theorem setPat_result (v : Bool) : (setPat v s).result = s.result := rfl
@[simp] theorem setPat_row (v : Bool) : (setPat v s).row = s.row := rfl
@[simp] theorem setPat_col (v : Bool) : (setPat v s).col = s.col := rfl
@[simp] theorem setPat_pulse (v : Bool) : (setPat v s).pulse = s.pulse := rfl
@[simp] theorem setPat_mbus (v : Bool) : (setPat v s).mbus = s.mbus := rfl
@[simp] theorem setPat_irqInhibit (v : Bool) : (setPat v s).irqInhibit = s.irqInhibit := rfl
@[simp] theorem setPat_rx (v : Bool) : (setPat v s).rx = s.rx := rfl
@[simp] theorem setPat_tx (v : Bool) : (setPat v s).tx = s.tx := rfl
@[simp] theorem setPat_phase (v : Bool) : (setPat v s).phase = s.phase := rfl
@[simp] theorem setPat_cmdBuf (v : Bool) : (setPat v s).cmdBuf = s.cmdBuf := rfl
@[simp] theorem setPat_history (v : Bool) : (setPat v s).history = s.history := rfl
@[simp] theorem setPat_past (v : Bool) : (setPat v s).past = s.past := rfl
@[simp] theorem setPat_pinScript (v : Bool) : (setPat v s).pinScript = s.pinScript := rfl

/-! ## `setPulse` -/

@[simp] theorem setPulse_pulse (v : BitVec 4) : (setPulse v s).pulse = v := rfl
@[simp] theorem setPulse_pb (v : BitVec 4) : (setPulse v s).pb = s.pb := rfl
@[simp] theorem setPulse_pbWritten (v : BitVec 4) : (setPulse v s).pbWritten = s.pbWritten := rfl
@[simp] theorem setPulse_ddr (v : BitVec 4) : (setPulse v s).ddr = s.ddr := rfl
@[simp] theorem setPulse_out (v : BitVec 4) : (setPulse v s).out = s.out := rfl
@[simp] theorem setPulse_tsType (v : BitVec 4) : (setPulse v s).tsType = s.tsType := rfl
@[simp] theorem setPulse_tsLength (v : BitVec 4) : (setPulse v s).tsLength = s.tsLength := rfl
@[simp] theorem setPulse_tsWritten (v : BitVec 4) : (setPulse v s).tsWritten = s.tsWritten := rfl
@[simp] theorem setPulse_vs (v : BitVec 4) : (setPulse v s).vs = s.vs := rfl
@[simp] theorem setPulse_pos (v : BitVec 4) : (setPulse v s).pos = s.pos := rfl
@[simp] theorem setPulse_rep (v : BitVec 4) : (setPulse v s).rep = s.rep := rfl
@[simp] theorem setPulse_result (v : BitVec 4) : (setPulse v s).result = s.result := rfl
@[simp] theorem setPulse_row (v : BitVec 4) : (setPulse v s).row = s.row := rfl
@[simp] theorem setPulse_col (v : BitVec 4) : (setPulse v s).col = s.col := rfl
@[simp] theorem setPulse_pat (v : BitVec 4) : (setPulse v s).pat = s.pat := rfl
@[simp] theorem setPulse_mbus (v : BitVec 4) : (setPulse v s).mbus = s.mbus := rfl
@[simp] theorem setPulse_irqInhibit (v : BitVec 4) : (setPulse v s).irqInhibit = s.irqInhibit := rfl
@[simp] theorem setPulse_rx (v : BitVec 4) : (setPulse v s).rx = s.rx := rfl
@[simp] theorem setPulse_tx (v : BitVec 4) : (setPulse v s).tx = s.tx := rfl
@[simp] theorem setPulse_phase (v : BitVec 4) : (setPulse v s).phase = s.phase := rfl
@[simp] theorem setPulse_cmdBuf (v : BitVec 4) : (setPulse v s).cmdBuf = s.cmdBuf := rfl
@[simp] theorem setPulse_history (v : BitVec 4) : (setPulse v s).history = s.history := rfl
@[simp] theorem setPulse_past (v : BitVec 4) : (setPulse v s).past = s.past := rfl
@[simp] theorem setPulse_pinScript (v : BitVec 4) : (setPulse v s).pinScript = s.pinScript := rfl

/-! ## `setMBus` -/

@[simp] theorem setMBus_mbus (v : MBus) : (setMBus v s).mbus = v := rfl
@[simp] theorem setMBus_pb (v : MBus) : (setMBus v s).pb = s.pb := rfl
@[simp] theorem setMBus_pbWritten (v : MBus) : (setMBus v s).pbWritten = s.pbWritten := rfl
@[simp] theorem setMBus_ddr (v : MBus) : (setMBus v s).ddr = s.ddr := rfl
@[simp] theorem setMBus_out (v : MBus) : (setMBus v s).out = s.out := rfl
@[simp] theorem setMBus_tsType (v : MBus) : (setMBus v s).tsType = s.tsType := rfl
@[simp] theorem setMBus_tsLength (v : MBus) : (setMBus v s).tsLength = s.tsLength := rfl
@[simp] theorem setMBus_tsWritten (v : MBus) : (setMBus v s).tsWritten = s.tsWritten := rfl
@[simp] theorem setMBus_vs (v : MBus) : (setMBus v s).vs = s.vs := rfl
@[simp] theorem setMBus_pos (v : MBus) : (setMBus v s).pos = s.pos := rfl
@[simp] theorem setMBus_rep (v : MBus) : (setMBus v s).rep = s.rep := rfl
@[simp] theorem setMBus_result (v : MBus) : (setMBus v s).result = s.result := rfl
@[simp] theorem setMBus_row (v : MBus) : (setMBus v s).row = s.row := rfl
@[simp] theorem setMBus_col (v : MBus) : (setMBus v s).col = s.col := rfl
@[simp] theorem setMBus_pat (v : MBus) : (setMBus v s).pat = s.pat := rfl
@[simp] theorem setMBus_pulse (v : MBus) : (setMBus v s).pulse = s.pulse := rfl
@[simp] theorem setMBus_irqInhibit (v : MBus) : (setMBus v s).irqInhibit = s.irqInhibit := rfl
@[simp] theorem setMBus_rx (v : MBus) : (setMBus v s).rx = s.rx := rfl
@[simp] theorem setMBus_tx (v : MBus) : (setMBus v s).tx = s.tx := rfl
@[simp] theorem setMBus_phase (v : MBus) : (setMBus v s).phase = s.phase := rfl
@[simp] theorem setMBus_cmdBuf (v : MBus) : (setMBus v s).cmdBuf = s.cmdBuf := rfl
@[simp] theorem setMBus_history (v : MBus) : (setMBus v s).history = s.history := rfl
@[simp] theorem setMBus_past (v : MBus) : (setMBus v s).past = s.past := rfl
@[simp] theorem setMBus_pinScript (v : MBus) : (setMBus v s).pinScript = s.pinScript := rfl

/-! ## `setPhase` -/

@[simp] theorem setPhase_phase (v : Phase) : (setPhase v s).phase = v := rfl
@[simp] theorem setPhase_pb (v : Phase) : (setPhase v s).pb = s.pb := rfl
@[simp] theorem setPhase_pbWritten (v : Phase) : (setPhase v s).pbWritten = s.pbWritten := rfl
@[simp] theorem setPhase_ddr (v : Phase) : (setPhase v s).ddr = s.ddr := rfl
@[simp] theorem setPhase_out (v : Phase) : (setPhase v s).out = s.out := rfl
@[simp] theorem setPhase_tsType (v : Phase) : (setPhase v s).tsType = s.tsType := rfl
@[simp] theorem setPhase_tsLength (v : Phase) : (setPhase v s).tsLength = s.tsLength := rfl
@[simp] theorem setPhase_tsWritten (v : Phase) : (setPhase v s).tsWritten = s.tsWritten := rfl
@[simp] theorem setPhase_vs (v : Phase) : (setPhase v s).vs = s.vs := rfl
@[simp] theorem setPhase_pos (v : Phase) : (setPhase v s).pos = s.pos := rfl
@[simp] theorem setPhase_rep (v : Phase) : (setPhase v s).rep = s.rep := rfl
@[simp] theorem setPhase_result (v : Phase) : (setPhase v s).result = s.result := rfl
@[simp] theorem setPhase_row (v : Phase) : (setPhase v s).row = s.row := rfl
@[simp] theorem setPhase_col (v : Phase) : (setPhase v s).col = s.col := rfl
@[simp] theorem setPhase_pat (v : Phase) : (setPhase v s).pat = s.pat := rfl
@[simp] theorem setPhase_pulse (v : Phase) : (setPhase v s).pulse = s.pulse := rfl
@[simp] theorem setPhase_mbus (v : Phase) : (setPhase v s).mbus = s.mbus := rfl
@[simp] theorem setPhase_irqInhibit (v : Phase) : (setPhase v s).irqInhibit = s.irqInhibit := rfl
@[simp] theorem setPhase_rx (v : Phase) : (setPhase v s).rx = s.rx := rfl
@[simp] theorem setPhase_tx (v : Phase) : (setPhase v s).tx = s.tx := rfl
@[simp] theorem setPhase_cmdBuf (v : Phase) : (setPhase v s).cmdBuf = s.cmdBuf := rfl
@[simp] theorem setPhase_history (v : Phase) : (setPhase v s).history = s.history := rfl
@[simp] theorem setPhase_past (v : Phase) : (setPhase v s).past = s.past := rfl
@[simp] theorem setPhase_pinScript (v : Phase) : (setPhase v s).pinScript = s.pinScript := rfl

/-! ## `storeConfig` -/

@[simp] theorem storeConfig_pb (c : PerBank PinBank) : (storeConfig c s).pb = c := rfl
@[simp] theorem storeConfig_pbWritten (c : PerBank PinBank) : (storeConfig c s).pbWritten = true := rfl
@[simp] theorem storeConfig_ddr (c : PerBank PinBank) : (storeConfig c s).ddr = s.ddr := rfl
@[simp] theorem storeConfig_out (c : PerBank PinBank) : (storeConfig c s).out = s.out := rfl
@[simp] theorem storeConfig_tsType (c : PerBank PinBank) : (storeConfig c s).tsType = s.tsType := rfl
@[simp] theorem storeConfig_tsLength (c : PerBank PinBank) : (storeConfig c s).tsLength = s.tsLength := rfl
@[simp] theorem storeConfig_tsWritten (c : PerBank PinBank) : (storeConfig c s).tsWritten = s.tsWritten := rfl
@[simp] theorem storeConfig_vs (c : PerBank PinBank) : (storeConfig c s).vs = s.vs := rfl
@[simp] theorem storeConfig_pos (c : PerBank PinBank) : (storeConfig c s).pos = s.pos := rfl
@[simp] theorem storeConfig_rep (c : PerBank PinBank) : (storeConfig c s).rep = s.rep := rfl
@[simp] theorem storeConfig_result (c : PerBank PinBank) : (storeConfig c s).result = s.result := rfl
@[simp] theorem storeConfig_row (c : PerBank PinBank) : (storeConfig c s).row = s.row := rfl
@[simp] theorem storeConfig_col (c : PerBank PinBank) : (storeConfig c s).col = s.col := rfl
@[simp] theorem storeConfig_pat (c : PerBank PinBank) : (storeConfig c s).pat = s.pat := rfl
@[simp] theorem storeConfig_pulse (c : PerBank PinBank) : (storeConfig c s).pulse = s.pulse := rfl
@[simp] theorem storeConfig_mbus (c : PerBank PinBank) : (storeConfig c s).mbus = s.mbus := rfl
@[simp] theorem storeConfig_irqInhibit (c : PerBank PinBank) : (storeConfig c s).irqInhibit = s.irqInhibit := rfl
@[simp] theorem storeConfig_rx (c : PerBank PinBank) : (storeConfig c s).rx = s.rx := rfl
@[simp] theorem storeConfig_tx (c : PerBank PinBank) : (storeConfig c s).tx = s.tx := rfl
@[simp] theorem storeConfig_phase (c : PerBank PinBank) : (storeConfig c s).phase = s.phase := rfl
@[simp] theorem storeConfig_cmdBuf (c : PerBank PinBank) : (storeConfig c s).cmdBuf = s.cmdBuf := rfl
@[simp] theorem storeConfig_history (c : PerBank PinBank) : (storeConfig c s).history = s.history := rfl
@[simp] theorem storeConfig_past (c : PerBank PinBank) : (storeConfig c s).past = s.past := rfl
@[simp] theorem storeConfig_pinScript (c : PerBank PinBank) : (storeConfig c s).pinScript = s.pinScript := rfl

/-! ## `storeSession` -/

@[simp] theorem storeSession_tsType (t : SessionType) (n : BitVec 11) (m : Memory) : (storeSession t n m s).tsType = t := rfl
@[simp] theorem storeSession_tsLength (t : SessionType) (n : BitVec 11) (m : Memory) : (storeSession t n m s).tsLength = n := rfl
@[simp] theorem storeSession_tsWritten (t : SessionType) (n : BitVec 11) (m : Memory) : (storeSession t n m s).tsWritten = true := rfl
@[simp] theorem storeSession_vs (t : SessionType) (n : BitVec 11) (m : Memory) : (storeSession t n m s).vs = m := rfl
@[simp] theorem storeSession_pb (t : SessionType) (n : BitVec 11) (m : Memory) : (storeSession t n m s).pb = s.pb := rfl
@[simp] theorem storeSession_pbWritten (t : SessionType) (n : BitVec 11) (m : Memory) : (storeSession t n m s).pbWritten = s.pbWritten := rfl
@[simp] theorem storeSession_ddr (t : SessionType) (n : BitVec 11) (m : Memory) : (storeSession t n m s).ddr = s.ddr := rfl
@[simp] theorem storeSession_out (t : SessionType) (n : BitVec 11) (m : Memory) : (storeSession t n m s).out = s.out := rfl
@[simp] theorem storeSession_pos (t : SessionType) (n : BitVec 11) (m : Memory) : (storeSession t n m s).pos = s.pos := rfl
@[simp] theorem storeSession_rep (t : SessionType) (n : BitVec 11) (m : Memory) : (storeSession t n m s).rep = s.rep := rfl
@[simp] theorem storeSession_result (t : SessionType) (n : BitVec 11) (m : Memory) : (storeSession t n m s).result = s.result := rfl
@[simp] theorem storeSession_row (t : SessionType) (n : BitVec 11) (m : Memory) : (storeSession t n m s).row = s.row := rfl
@[simp] theorem storeSession_col (t : SessionType) (n : BitVec 11) (m : Memory) : (storeSession t n m s).col = s.col := rfl
@[simp] theorem storeSession_pat (t : SessionType) (n : BitVec 11) (m : Memory) : (storeSession t n m s).pat = s.pat := rfl
@[simp] theorem storeSession_pulse (t : SessionType) (n : BitVec 11) (m : Memory) : (storeSession t n m s).pulse = s.pulse := rfl
@[simp] theorem storeSession_mbus (t : SessionType) (n : BitVec 11) (m : Memory) : (storeSession t n m s).mbus = s.mbus := rfl
@[simp] theorem storeSession_irqInhibit (t : SessionType) (n : BitVec 11) (m : Memory) : (storeSession t n m s).irqInhibit = s.irqInhibit := rfl
@[simp] theorem storeSession_rx (t : SessionType) (n : BitVec 11) (m : Memory) : (storeSession t n m s).rx = s.rx := rfl
@[simp] theorem storeSession_tx (t : SessionType) (n : BitVec 11) (m : Memory) : (storeSession t n m s).tx = s.tx := rfl
@[simp] theorem storeSession_phase (t : SessionType) (n : BitVec 11) (m : Memory) : (storeSession t n m s).phase = s.phase := rfl
@[simp] theorem storeSession_cmdBuf (t : SessionType) (n : BitVec 11) (m : Memory) : (storeSession t n m s).cmdBuf = s.cmdBuf := rfl
@[simp] theorem storeSession_history (t : SessionType) (n : BitVec 11) (m : Memory) : (storeSession t n m s).history = s.history := rfl
@[simp] theorem storeSession_past (t : SessionType) (n : BitVec 11) (m : Memory) : (storeSession t n m s).past = s.past := rfl
@[simp] theorem storeSession_pinScript (t : SessionType) (n : BitVec 11) (m : Memory) : (storeSession t n m s).pinScript = s.pinScript := rfl

/-! ## `reply` -/

@[simp] theorem reply_tx (P : Params) (r : Result) : (reply P r s).tx = s.tx ++ [resultByte P r] := rfl
@[simp] theorem reply_history (P : Params) (r : Result) : (reply P r s).history = s.history ++ [.tx (resultByte P r)] := rfl
@[simp] theorem reply_phase (P : Params) (r : Result) : (reply P r s).phase = .waitCmd := rfl
@[simp] theorem reply_pb (P : Params) (r : Result) : (reply P r s).pb = s.pb := rfl
@[simp] theorem reply_pbWritten (P : Params) (r : Result) : (reply P r s).pbWritten = s.pbWritten := rfl
@[simp] theorem reply_ddr (P : Params) (r : Result) : (reply P r s).ddr = s.ddr := rfl
@[simp] theorem reply_out (P : Params) (r : Result) : (reply P r s).out = s.out := rfl
@[simp] theorem reply_tsType (P : Params) (r : Result) : (reply P r s).tsType = s.tsType := rfl
@[simp] theorem reply_tsLength (P : Params) (r : Result) : (reply P r s).tsLength = s.tsLength := rfl
@[simp] theorem reply_tsWritten (P : Params) (r : Result) : (reply P r s).tsWritten = s.tsWritten := rfl
@[simp] theorem reply_vs (P : Params) (r : Result) : (reply P r s).vs = s.vs := rfl
@[simp] theorem reply_pos (P : Params) (r : Result) : (reply P r s).pos = s.pos := rfl
@[simp] theorem reply_rep (P : Params) (r : Result) : (reply P r s).rep = s.rep := rfl
@[simp] theorem reply_result (P : Params) (r : Result) : (reply P r s).result = s.result := rfl
@[simp] theorem reply_row (P : Params) (r : Result) : (reply P r s).row = s.row := rfl
@[simp] theorem reply_col (P : Params) (r : Result) : (reply P r s).col = s.col := rfl
@[simp] theorem reply_pat (P : Params) (r : Result) : (reply P r s).pat = s.pat := rfl
@[simp] theorem reply_pulse (P : Params) (r : Result) : (reply P r s).pulse = s.pulse := rfl
@[simp] theorem reply_mbus (P : Params) (r : Result) : (reply P r s).mbus = s.mbus := rfl
@[simp] theorem reply_irqInhibit (P : Params) (r : Result) : (reply P r s).irqInhibit = s.irqInhibit := rfl
@[simp] theorem reply_rx (P : Params) (r : Result) : (reply P r s).rx = s.rx := rfl
@[simp] theorem reply_cmdBuf (P : Params) (r : Result) : (reply P r s).cmdBuf = s.cmdBuf := rfl
@[simp] theorem reply_past (P : Params) (r : Result) : (reply P r s).past = s.past := rfl
@[simp] theorem reply_pinScript (P : Params) (r : Result) : (reply P r s).pinScript = s.pinScript := rfl

/-! ## `takeCommand` -/

@[simp] theorem takeCommand_rx (rest : List Byte) : (takeCommand rest s).rx = rest := rfl
@[simp] theorem takeCommand_cmdBuf (rest : List Byte) : (takeCommand rest s).cmdBuf = [] := rfl
@[simp] theorem takeCommand_pb (rest : List Byte) : (takeCommand rest s).pb = s.pb := rfl
@[simp] theorem takeCommand_pbWritten (rest : List Byte) : (takeCommand rest s).pbWritten = s.pbWritten := rfl
@[simp] theorem takeCommand_ddr (rest : List Byte) : (takeCommand rest s).ddr = s.ddr := rfl
@[simp] theorem takeCommand_out (rest : List Byte) : (takeCommand rest s).out = s.out := rfl
@[simp] theorem takeCommand_tsType (rest : List Byte) : (takeCommand rest s).tsType = s.tsType := rfl
@[simp] theorem takeCommand_tsLength (rest : List Byte) : (takeCommand rest s).tsLength = s.tsLength := rfl
@[simp] theorem takeCommand_tsWritten (rest : List Byte) : (takeCommand rest s).tsWritten = s.tsWritten := rfl
@[simp] theorem takeCommand_vs (rest : List Byte) : (takeCommand rest s).vs = s.vs := rfl
@[simp] theorem takeCommand_pos (rest : List Byte) : (takeCommand rest s).pos = s.pos := rfl
@[simp] theorem takeCommand_rep (rest : List Byte) : (takeCommand rest s).rep = s.rep := rfl
@[simp] theorem takeCommand_result (rest : List Byte) : (takeCommand rest s).result = s.result := rfl
@[simp] theorem takeCommand_row (rest : List Byte) : (takeCommand rest s).row = s.row := rfl
@[simp] theorem takeCommand_col (rest : List Byte) : (takeCommand rest s).col = s.col := rfl
@[simp] theorem takeCommand_pat (rest : List Byte) : (takeCommand rest s).pat = s.pat := rfl
@[simp] theorem takeCommand_pulse (rest : List Byte) : (takeCommand rest s).pulse = s.pulse := rfl
@[simp] theorem takeCommand_mbus (rest : List Byte) : (takeCommand rest s).mbus = s.mbus := rfl
@[simp] theorem takeCommand_irqInhibit (rest : List Byte) : (takeCommand rest s).irqInhibit = s.irqInhibit := rfl
@[simp] theorem takeCommand_tx (rest : List Byte) : (takeCommand rest s).tx = s.tx := rfl
@[simp] theorem takeCommand_phase (rest : List Byte) : (takeCommand rest s).phase = s.phase := rfl
@[simp] theorem takeCommand_history (rest : List Byte) : (takeCommand rest s).history = s.history := rfl
@[simp] theorem takeCommand_past (rest : List Byte) : (takeCommand rest s).past = s.past := rfl
@[simp] theorem takeCommand_pinScript (rest : List Byte) : (takeCommand rest s).pinScript = s.pinScript := rfl

/-! ## `awaitBytes` -/

@[simp] theorem awaitBytes_rx (p : Phase) : (awaitBytes p s).rx = [] := rfl
@[simp] theorem awaitBytes_cmdBuf (p : Phase) : (awaitBytes p s).cmdBuf = s.cmdBuf ++ s.rx := rfl
@[simp] theorem awaitBytes_phase (p : Phase) : (awaitBytes p s).phase = p := rfl
@[simp] theorem awaitBytes_pb (p : Phase) : (awaitBytes p s).pb = s.pb := rfl
@[simp] theorem awaitBytes_pbWritten (p : Phase) : (awaitBytes p s).pbWritten = s.pbWritten := rfl
@[simp] theorem awaitBytes_ddr (p : Phase) : (awaitBytes p s).ddr = s.ddr := rfl
@[simp] theorem awaitBytes_out (p : Phase) : (awaitBytes p s).out = s.out := rfl
@[simp] theorem awaitBytes_tsType (p : Phase) : (awaitBytes p s).tsType = s.tsType := rfl
@[simp] theorem awaitBytes_tsLength (p : Phase) : (awaitBytes p s).tsLength = s.tsLength := rfl
@[simp] theorem awaitBytes_tsWritten (p : Phase) : (awaitBytes p s).tsWritten = s.tsWritten := rfl
@[simp] theorem awaitBytes_vs (p : Phase) : (awaitBytes p s).vs = s.vs := rfl
@[simp] theorem awaitBytes_pos (p : Phase) : (awaitBytes p s).pos = s.pos := rfl
@[simp] theorem awaitBytes_rep (p : Phase) : (awaitBytes p s).rep = s.rep := rfl
@[simp] theorem awaitBytes_result (p : Phase) : (awaitBytes p s).result = s.result := rfl
@[simp] theorem awaitBytes_row (p : Phase) : (awaitBytes p s).row = s.row := rfl
@[simp] theorem awaitBytes_col (p : Phase) : (awaitBytes p s).col = s.col := rfl
@[simp] theorem awaitBytes_pat (p : Phase) : (awaitBytes p s).pat = s.pat := rfl
@[simp] theorem awaitBytes_pulse (p : Phase) : (awaitBytes p s).pulse = s.pulse := rfl
@[simp] theorem awaitBytes_mbus (p : Phase) : (awaitBytes p s).mbus = s.mbus := rfl
@[simp] theorem awaitBytes_irqInhibit (p : Phase) : (awaitBytes p s).irqInhibit = s.irqInhibit := rfl
@[simp] theorem awaitBytes_tx (p : Phase) : (awaitBytes p s).tx = s.tx := rfl
@[simp] theorem awaitBytes_history (p : Phase) : (awaitBytes p s).history = s.history := rfl
@[simp] theorem awaitBytes_past (p : Phase) : (awaitBytes p s).past = s.past := rfl
@[simp] theorem awaitBytes_pinScript (p : Phase) : (awaitBytes p s).pinScript = s.pinScript := rfl

end Sys2Proof.Machine
end

