-- ==== Sys2Proof/Laws/Frames.lean ====
section
/-! SUPPORT. What an engine leaves alone and how its events account for the pins; the exact effect of
`configure`, `reset()` and the end of a run; and the run as a whole. -/

namespace Sys2Proof.Machine

theorem Pins.afterAll_append (p : Pins) (h k : List Event) :
    p.afterAll (h ++ k) = (p.afterAll h).afterAll k := List.foldl_append

@[simp] theorem Pins.afterAll_nil (p : Pins) : p.afterAll [] = p := rfl

@[simp] theorem Pins.afterAll_cons (p : Pins) (e : Event) (h : List Event) :
    p.afterAll (e :: h) = (p.after e).afterAll h := rfl

theorem readsIn_append (h k : List Event) : readsIn (h ++ k) = readsIn h + readsIn k :=
  List.countP_append

/-- What no engine touches, and what its events say of the pins and of the scripted answers. -/
structure EngineEffect (s t : State) : Prop where
  pb : t.pb = s.pb
  pbWritten : t.pbWritten = s.pbWritten
  tsType : t.tsType = s.tsType
  tsLength : t.tsLength = s.tsLength
  tsWritten : t.tsWritten = s.tsWritten
  vs : t.vs = s.vs
  irqInhibit : t.irqInhibit = s.irqInhibit
  rx : t.rx = s.rx
  tx : t.tx = s.tx
  phase : t.phase = s.phase
  cmdBuf : t.cmdBuf = s.cmdBuf
  past : t.past = s.past
  events : ∃ es, (∀ x ∈ es, engineEvent x = true) ∧ t.history = s.history ++ es ∧
    (⟨t.ddr, t.out⟩ : Pins) = Pins.afterAll ⟨s.ddr, s.out⟩ es ∧
    t.pinScript = s.pinScript.drop (readsIn es)

theorem EngineEffect.refl (s : State) : EngineEffect s s :=
  ⟨rfl, rfl, rfl, rfl, rfl, rfl, rfl, rfl, rfl, rfl, rfl, rfl, [], by simp, by simp, rfl, rfl⟩

theorem EngineEffect.trans {s t u : State} (h : EngineEffect s t) (k : EngineEffect t u) :
    EngineEffect s u := by
  obtain ⟨es, he, hh, hp, hs⟩ := h.events
  obtain ⟨fs, hf, kh, kp, ks⟩ := k.events
  refine ⟨k.pb.trans h.pb, k.pbWritten.trans h.pbWritten, k.tsType.trans h.tsType,
    k.tsLength.trans h.tsLength, k.tsWritten.trans h.tsWritten, k.vs.trans h.vs,
    k.irqInhibit.trans h.irqInhibit, k.rx.trans h.rx, k.tx.trans h.tx, k.phase.trans h.phase,
    k.cmdBuf.trans h.cmdBuf, k.past.trans h.past, es ++ fs, ?_, ?_, ?_, ?_⟩
  · intro x hx
    exact (List.mem_append.mp hx).elim (he x) (hf x)
  · rw [kh, hh, List.append_assoc]
  · rw [kp, hp, Pins.afterAll_append]
  · rw [ks, hs, List.drop_drop, readsIn_append, Nat.add_comm]

/-- One event that an engine may leave. -/
theorem EngineEffect.ofEvent {s t : State} (e : Event) (he : engineEvent e = true)
    (frame : t.pb = s.pb ∧ t.pbWritten = s.pbWritten ∧ t.tsType = s.tsType ∧ t.tsLength = s.tsLength ∧
      t.tsWritten = s.tsWritten ∧ t.vs = s.vs ∧ t.irqInhibit = s.irqInhibit ∧ t.rx = s.rx ∧
      t.tx = s.tx ∧ t.phase = s.phase ∧ t.cmdBuf = s.cmdBuf ∧ t.past = s.past)
    (hh : t.history = s.history ++ [e]) (hp : (⟨t.ddr, t.out⟩ : Pins) = Pins.after ⟨s.ddr, s.out⟩ e)
    (hs : t.pinScript = s.pinScript.drop (readsIn [e])) :
    EngineEffect s t := by
  obtain ⟨h1, h2, h3, h4, h5, h6, h7, h8, h9, h10, h11, h12⟩ := frame
  exact ⟨h1, h2, h3, h4, h5, h6, h7, h8, h9, h10, h11, h12, [e], by simpa using he, hh, hp, hs⟩

theorem setDir_effect (b : Bank) (v : Byte) (s : State) : EngineEffect s (setDir b v s) :=
  .ofEvent (.dir b v) rfl ⟨rfl, rfl, rfl, rfl, rfl, rfl, rfl, rfl, rfl, rfl, rfl, rfl⟩ rfl rfl rfl

theorem portWrite_effect (b : Bank) (v : Byte) (s : State) : EngineEffect s (portWrite b v s) :=
  .ofEvent (.wr b v) rfl ⟨rfl, rfl, rfl, rfl, rfl, rfl, rfl, rfl, rfl, rfl, rfl, rfl⟩ rfl rfl rfl

theorem afterRead_effect (E : Env) (b : Bank) (s : State) : EngineEffect s (afterRead E b s) :=
  .ofEvent (.rd b (portInput E b s)) rfl ⟨rfl, rfl, rfl, rfl, rfl, rfl, rfl, rfl, rfl, rfl, rfl, rfl⟩
    rfl rfl (by simp [readsIn])

theorem delay_effect (n : DelayName) (s : State) : EngineEffect s (delay n s) :=
  .ofEvent (.dly n) rfl ⟨rfl, rfl, rfl, rfl, rfl, rfl, rfl, rfl, rfl, rfl, rfl, rfl⟩ rfl rfl rfl

/-- A change of run registers only. -/
theorem EngineEffect.ofRegisters {s t : State}
    (h : t = { s with
      pos := t.pos, rep := t.rep, result := t.result, row := t.row, col := t.col, pat := t.pat,
      pulse := t.pulse, mbus := t.mbus }) : EngineEffect s t := by
  rw [h]
  exact ⟨rfl, rfl, rfl, rfl, rfl, rfl, rfl, rfl, rfl, rfl, rfl, rfl, [], by simp, by simp, rfl, rfl⟩

theorem logic_effect (E : Env) : LogicClosed E EngineEffect where
  refl := EngineEffect.refl
  trans := EngineEffect.trans
  drive _ _ s := portWrite_effect _ _ s
  read b s := afterRead_effect E b s
  settle s := delay_effect _ s
  pos _ _ := .ofRegisters rfl

theorem dram_effect (P : Params) (E : Env) : DramClosed P E EngineEffect where
  refl := EngineEffect.refl
  trans := EngineEffect.trans
  bus _ _ := .ofRegisters rfl
  writeL s := portWrite_effect _ _ s
  writeH s := portWrite_effect _ _ s
  read s := afterRead_effect E _ s
  delay n s := delay_effect n s
  dirL s := setDir_effect _ _ s
  dirH s := setDir_effect _ _ s
  pulse _ _ := .ofRegisters rfl
  col _ _ := .ofRegisters rfl
  row _ _ := .ofRegisters rfl
  pat _ _ := .ofRegisters rfl

theorem runEngine_effect (P : Params) (E : Env) (s : State) : EngineEffect s (runEngine P E s).1 := by
  unfold runEngine
  split
  · exact dramEngine_closed (dram_effect P E) s
  · exact runLogic_closed (logic_effect E) s
  · exact runLogic_closed (logic_effect E) s

theorem repeatEngine_effect {engine : State → State × Verdict} (h : ∀ s, EngineEffect s (engine s).1)
    (e : Byte) (s : State) : EngineEffect s (repeatEngine engine e s).1 :=
  EngineEffect.trans (.ofRegisters rfl : EngineEffect s (setRep (BitVec.ofNat 16 (repetitions e)) s))
    (repeatLoop_closed EngineEffect.refl EngineEffect.trans (fun _ => True) (fun _ _ => trivial)
      (fun s _ => h s) (fun _ _ => .ofRegisters rfl) (fun _ _ => .ofRegisters rfl) _ _ trivial)

/-- The registers of the DRAM engine, which a logic run leaves alone. -/
def SameDramRegisters (s t : State) : Prop :=
  t.row = s.row ∧ t.col = s.col ∧ t.pat = s.pat ∧ t.pulse = s.pulse ∧ t.mbus = s.mbus

theorem SameDramRegisters.trans {s t u : State} (h : SameDramRegisters s t)
    (k : SameDramRegisters t u) : SameDramRegisters s u :=
  ⟨k.1.trans h.1, k.2.1.trans h.2.1, k.2.2.1.trans h.2.2.1, k.2.2.2.1.trans h.2.2.2.1,
    k.2.2.2.2.trans h.2.2.2.2⟩

theorem logic_sameDramRegisters (E : Env) : LogicClosed E SameDramRegisters where
  refl _ := ⟨rfl, rfl, rfl, rfl, rfl⟩
  trans := SameDramRegisters.trans
  drive _ _ _ := ⟨rfl, rfl, rfl, rfl, rfl⟩
  read _ _ := ⟨rfl, rfl, rfl, rfl, rfl⟩
  settle _ := ⟨rfl, rfl, rfl, rfl, rfl⟩
  pos _ _ := ⟨rfl, rfl, rfl, rfl, rfl⟩

theorem dram_samePos (P : Params) (E : Env) : DramClosed P E (fun s t => t.pos = s.pos) where
  refl _ := rfl
  trans h k := k.trans h
  bus _ _ := rfl
  writeL _ := rfl
  writeH _ := rfl
  read _ := rfl
  delay _ _ := rfl
  dirL _ := rfl
  dirH _ := rfl
  pulse _ _ := rfl
  col _ _ := rfl
  row _ _ := rfl
  pat _ _ := rfl

/-- The verdict of a repetition loop stands in `result` once at least one repetition has run. -/
theorem repeatLoop_result (engine : State → State × Verdict) (n : Nat) (s : State)
    (h : 0 < n ∨ s.result = .pass) :
    (repeatLoop engine n s).1.result = (repeatLoop engine n s).2 := by
  induction n generalizing s with
  | zero => exact h.resolve_left (Nat.lt_irrefl 0)
  | succ n ih =>
    simp only [repeatLoop]
    split
    · rename_i hv
      simp [hv]
    · rename_i hv
      exact ih _ (.inr (by simp [hv]))

theorem repeatEngine_result (engine : State → State × Verdict) (e : Byte) (s : State) :
    (repeatEngine engine e s).1.result = (repeatEngine engine e s).2 :=
  repeatLoop_result engine _ _ (.inl (Nat.two_pow_pos _))

/-! ## `configure`, `reset()`, the end of a run -/

/-- `configure` in one update (spec/40_pin_bank_driver.md R121). -/
theorem configure_eq (s : State) :
    configure s =
      { s with
        ddr := ⟨directionByte s.pb.b0, directionByte s.pb.b1, directionByte s.pb.b2⟩
        history := s.history ++ configureEvents s.pb } := by
  simp [configure, configureBank, setDir, PerBank.get, PerBank.set, configureEvents, directionByte]

/-- `reset()` in one update (spec/40_pin_bank_driver.md R129). -/
theorem resetPins_eq (s : State) :
    resetPins s =
      { s with ddr := ⟨0, 0, 0⟩, out := ⟨0, 0, 0⟩, history := s.history ++ resetEvents } := by
  simp [resetPins, setDir, portWrite, PerBank.set, resetEvents]

/-- The end of a run in one update (spec/60_exceptions.md R259). -/
theorem endRun_eq (P : Params) (v : Verdict) (s : State) :
    endRun P v s =
      { s with
        ddr := ⟨0, 0, 0⟩, out := ⟨0, 0, 0⟩, irqInhibit := false
        tx := s.tx ++ [resultByte P (verdictResult v)], phase := .waitCmd
        history := s.history ++ resetEvents ++ farewellEvents P v } := by
  cases v <;>
    simp [endRun, resetPins_eq, setInhibit, setPhase, reply, farewellEvents, verdictResult, resultByte]

/-! ## The run -/

/-- The state in which a run's first repetition starts. -/
def runStart (s : State) : State := configure (setInhibit true (setPhase .running s))

/-- A run: the engine's repetitions between its start and its end. -/
theorem runBody_eq (P : Params) (E : Env) (e : Byte) (s : State) :
    runBody P E e s =
      endRun P (repeatEngine (runEngine P E) e (runStart s)).2
        (repeatEngine (runEngine P E) e (runStart s)).1 := rfl

/-- What a Run command answers, in its three cases (spec/44_commands.md R233, R234). -/
theorem runIn_cases (P : Params) (E : Env) (e : Byte) (s : State) :
    (P.maxRepExp < e.toNat ∧ runIn P E e s = .refused .exponentTooLarge) ∨
    (e.toNat ≤ P.maxRepExp ∧ (s.pbWritten = false ∨ s.tsWritten = false) ∧
      runIn P E e s = .refused .notConfigured) ∨
    (e.toNat ≤ P.maxRepExp ∧ s.pbWritten = true ∧ s.tsWritten = true ∧
      runIn P E e s = .next (runBody P E e s)) := by
  unfold runIn
  by_cases h : e.toNat > P.maxRepExp
  · exact .inl ⟨h, if_pos h⟩
  · rw [if_neg h]
    have h' : e.toNat ≤ P.maxRepExp := Nat.le_of_not_lt h
    cases hp : s.pbWritten <;> cases ht : s.tsWritten
    · exact .inr (.inl ⟨h', .inl rfl, rfl⟩)
    · exact .inr (.inl ⟨h', .inl rfl, rfl⟩)
    · exact .inr (.inl ⟨h', .inr rfl, rfl⟩)
    · exact .inr (.inr ⟨h', rfl, rfl, rfl⟩)

/-- What an Upload command answers, in its three cases (spec/44_commands.md R231, R232). -/
theorem uploadIn_cases (P : Params) (t hi lo : Byte) (vectors : List Vec) (s : State) :
    (decodeType P t = none ∧ uploadIn P t hi lo vectors s = .refused .badType) ∨
    (∃ type, decodeType P t = some type ∧ maxVectors < assembleLength hi lo ∧
      uploadIn P t hi lo vectors s = .refused .lengthOverflow) ∨
    (∃ type, decodeType P t = some type ∧ assembleLength hi lo ≤ maxVectors ∧
      uploadIn P t hi lo vectors s =
        .next (reply P .ok (upload type (assembleLength hi lo) vectors s))) := by
  unfold uploadIn
  cases ht : decodeType P t with
  | none => exact .inl ⟨rfl, rfl⟩
  | some type =>
    by_cases h : assembleLength hi lo > maxVectors
    · exact .inr (.inl ⟨type, rfl, h, if_pos h⟩)
    · exact .inr (.inr ⟨type, rfl, Nat.le_of_not_lt h, if_neg h⟩)

/-- The type bytes of this model (spec/30_encoding.md R100, log entry 7). -/
theorem decodeType_none_iff (t : Byte) :
    decodeType Config.params t = none ↔ t ≠ 0x00#8 ∧ t ≠ 0x01#8 ∧ t ≠ 0x02#8 := by
  revert t; decide

end Sys2Proof.Machine
end

