-- ==== Sys2Proof/Laws/Dram.lean ====
section
/-! SUPPORT. What each bus operation of the DRAM engine does to the history, the bus record and the run
registers, and what the two page loops do, for proofs about the DRAM engine; and the closure principle
over bus operations. -/

namespace Sys2Proof.Machine

variable (P : Params) (E : Env) (s : State)

/-! ## Bus operations -/

theorem openRow_history (r : Byte) :
    (openRow P r s).history = s.history ++
      [writesH P (highField r) s.mbus.cas, writesL P (lowField r) s.mbus.we s.mbus.ras s.mbus.din,
       writesL P (lowField r) s.mbus.we false s.mbus.din] := by
  simp [openRow, writeL, writeH, portWrite, setAL, setAH, setRas, setMBus, writesL, writesH, busL, busH]

theorem openRow_mbus (r : Byte) :
    (openRow P r s).mbus =
      ⟨lowField r, s.mbus.we, false, s.mbus.din, highField r, s.mbus.cas⟩ := rfl

theorem closeRow_history :
    (closeRow P s).history = s.history ++ [writesL P s.mbus.aL s.mbus.we true s.mbus.din] := rfl

theorem closeRow_mbus :
    (closeRow P s).mbus =
      ⟨s.mbus.aL, s.mbus.we, true, s.mbus.din, s.mbus.aH, s.mbus.cas⟩ := rfl

theorem writeCol_history (c : Byte) (d : Bool) :
    (writeCol P c d s).history = s.history ++
      [writesL P (lowField c) false s.mbus.ras d, writesH P (highField c) s.mbus.cas,
       writesH P (highField c) false, writesL P (lowField c) true s.mbus.ras d,
       writesH P (highField c) true] := by
  simp [writeCol, writeL, writeH, portWrite, setAL, setAH, setCas, setWe, setDin, setMBus, writesL,
    writesH, busL, busH]

theorem writeCol_mbus (c : Byte) (d : Bool) :
    (writeCol P c d s).mbus = ⟨lowField c, true, s.mbus.ras, d, highField c, true⟩ := rfl

theorem readCol_history (c : Byte) :
    ∃ x, (readCol P E c s).2 = x.getLsbD P.hDout ∧
      (readCol P E c s).1.history = s.history ++
        [writesL P (lowField c) s.mbus.we s.mbus.ras s.mbus.din, writesH P (highField c) s.mbus.cas,
         writesH P (highField c) false, .dly .cac, .rd P.memHBank x, writesH P (highField c) true] := by
  refine ⟨portInput E P.memHBank (readColOpen P c s), rfl, ?_⟩
  simp [readCol, readColOpen, delay, record, portRead, writeL, writeH, portWrite, setAL, setAH, setCas,
    setMBus, writesL, writesH, busL, busH]

theorem readCol_mbus (c : Byte) :
    (readCol P E c s).1.mbus =
      ⟨lowField c, s.mbus.we, s.mbus.ras, s.mbus.din, highField c, true⟩ := rfl

/-- The counters of the engine, which no bus operation touches. -/
def SameCounters (s t : State) : Prop :=
  t.row = s.row ∧ t.col = s.col ∧ t.pat = s.pat ∧ t.pulse = s.pulse

theorem openRow_counters (r : Byte) : SameCounters s (openRow P r s) := by
  simp [SameCounters, openRow, writeL, writeH, setAL, setAH, setRas]

theorem closeRow_counters : SameCounters s (closeRow P s) := by
  simp [SameCounters, closeRow, writeL, setRas]

theorem writeCol_counters (c : Byte) (d : Bool) : SameCounters s (writeCol P c d s) := by
  simp [SameCounters, writeCol, writeL, writeH, setAL, setAH, setCas, setWe, setDin]

theorem readCol_counters (c : Byte) : SameCounters s (readCol P E c s).1 := by
  simp [SameCounters, readCol, readColOpen, portRead, writeL, writeH, setAL, setAH, setCas]

theorem bitVerdict_pass (a b : Bool) : bitVerdict a b = .pass ↔ a = b := by
  cases a <;> cases b <;> decide

theorem bitVerdict_fail (a b : Bool) : bitVerdict a b = .fail ↔ a ≠ b := by
  cases a <;> cases b <;> decide

/-- A column below 256 as a byte. -/
theorem colByte_eq : colByte s = BitVec.ofNat 8 s.col.toNat := by
  apply BitVec.eq_of_toNat_eq
  simp [colByte]

/-! ## The page loops -/

/-- The write phase: what `n` columns from `col` on leave in the history and on the bus. -/
theorem pageWriteLoop_spec (d : Bool) (n : Nat) (s : State) (hr : s.mbus.ras = false)
    (hc : s.mbus.cas = true) (h0 : 0 < n) (hn : s.col.toNat + n ≤ 256) :
    (pageWriteLoop P d n s).history =
        s.history ++
          (List.range' s.col.toNat n).flatMap (fun c => writeColEvents P (BitVec.ofNat 8 c) d) ∧
      (pageWriteLoop P d n s).mbus =
        ⟨lowField (BitVec.ofNat 8 (s.col.toNat + n - 1)), true, false, d,
          highField (BitVec.ofNat 8 (s.col.toNat + n - 1)), true⟩ := by
  induction n generalizing s with
  | zero => omega
  | succ n ih =>
    have hw : (writeCol P (colByte s) d s).history =
        s.history ++ writeColEvents P (BitVec.ofNat 8 s.col.toNat) d := by
      rw [writeCol_history, hr, hc, colByte_eq]
      rfl
    have hm := writeCol_mbus P s (colByte s) d
    rw [hr, colByte_eq] at hm
    rw [colByte_eq] at hw
    have hcol : (writeCol P (BitVec.ofNat 8 s.col.toNat) d s).col + 1 = s.col + 1 := by
      rw [(writeCol_counters P s _ d).2.1]
    have hcc : (s.col + 1).toNat = s.col.toNat + 1 := by simp; omega
    simp only [pageWriteLoop]
    rw [colByte_eq, hcol]
    rcases Nat.eq_zero_or_pos n with rfl | hn0
    · simp only [pageWriteLoop, setCol_history, setCol_mbus, hw, hm]
      exact ⟨by simp, rfl⟩
    · obtain ⟨i1, i2⟩ := ih (setCol (s.col + 1) (writeCol P (BitVec.ofNat 8 s.col.toNat) d s))
        (by rw [setCol_mbus, hm]) (by rw [setCol_mbus, hm]) hn0 (by rw [setCol_col, hcc]; omega)
      rw [i1, i2, setCol_col, hcc]
      constructor
      · rw [setCol_history, hw, List.range'_succ, List.flatMap_cons, List.append_assoc]
      · rw [show s.col.toNat + 1 + n - 1 = s.col.toNat + (n + 1) - 1 by omega]

/-- The read phase: the bytes read, one for each column from `col` on up to the first whose bit differs,
and what they leave in the history, on the bus, in the verdict and in `col`. -/
theorem pageReadLoop_spec (d : Bool) (n : Nat) (s : State) (hw : s.mbus.we = true)
    (hr : s.mbus.ras = false) (hd : s.mbus.din = d) (hc : s.mbus.cas = true) (h0 : 0 < n)
    (hn : s.col.toNat + n ≤ 256) :
    ∃ xs : List Byte, 0 < xs.length ∧ xs.length ≤ n ∧
      (pageReadLoop P E d n s).1.history =
        s.history ++
          (List.zip ((List.range' s.col.toNat n).map (BitVec.ofNat 8)) xs).flatMap
            (fun cx => readColEvents P cx.1 d cx.2) ∧
      (pageReadLoop P E d n s).1.mbus =
        ⟨lowField (BitVec.ofNat 8 (s.col.toNat + xs.length - 1)), true, false, d,
          highField (BitVec.ofNat 8 (s.col.toNat + xs.length - 1)), true⟩ ∧
      (∀ x ∈ xs.dropLast, x.getLsbD P.hDout = d) ∧
      ((pageReadLoop P E d n s).2 = .pass →
        xs.length = n ∧ (∀ x ∈ xs, x.getLsbD P.hDout = d) ∧
          (pageReadLoop P E d n s).1.col.toNat = s.col.toNat + n) ∧
      ((pageReadLoop P E d n s).2 = .fail → ∃ x ∈ xs.getLast?, x.getLsbD P.hDout ≠ d) := by
  induction n generalizing s with
  | zero => omega
  | succ n ih =>
    obtain ⟨x, hx, hh⟩ := readCol_history P E s (BitVec.ofNat 8 s.col.toNat)
    have hm := readCol_mbus P E s (BitVec.ofNat 8 s.col.toNat)
    rw [hw, hr, hd, hc] at hh
    rw [hw, hr, hd] at hm
    have hcc : (s.col + 1).toNat = s.col.toNat + 1 := by simp; omega
    have hcol : (readCol P E (BitVec.ofNat 8 s.col.toNat) s).1.col = s.col :=
      (readCol_counters P E s _).2.1
    simp only [pageReadLoop]
    rw [colByte_eq]
    cases hv : bitVerdict (readCol P E (BitVec.ofNat 8 s.col.toNat) s).2 d with
    | fail =>
      rw [bitVerdict_fail, hx] at hv
      refine ⟨[x], by simp, by simp, ?_, ?_, by simp, by simp, fun _ => ⟨x, by simp, hv⟩⟩
      · dsimp only
        rw [hh, List.range'_succ, List.map_cons]
        simp [readColEvents]
      · dsimp only
        rw [hm]
        simp
    | pass =>
      rw [bitVerdict_pass, hx] at hv
      dsimp only
      rw [hcol]
      generalize ht : setCol (s.col + 1) (readCol P E (BitVec.ofNat 8 s.col.toNat) s).1 = t
      have htc : t.col.toNat = s.col.toNat + 1 := by rw [← ht, setCol_col, hcc]
      have hth := (show t.history = (readCol P E (BitVec.ofNat 8 s.col.toNat) s).1.history by
        rw [← ht, setCol_history]).trans hh
      have htm := (show t.mbus = (readCol P E (BitVec.ofNat 8 s.col.toNat) s).1.mbus by
        rw [← ht, setCol_mbus]).trans hm
      rcases Nat.eq_zero_or_pos n with rfl | hn0
      · simp only [pageReadLoop]
        refine ⟨[x], by simp, by simp, ?_, ?_, by simp, fun _ => ⟨by simp, by simp [hv], by omega⟩,
          by simp⟩
        · rw [hth, List.range'_succ, List.map_cons]
          simp [readColEvents]
        · rw [htm]
          simp
      · obtain ⟨xs, j1, j2, j3, j4, j5, j6, j7⟩ := ih t (by simp [htm]) (by simp [htm]) (by simp [htm])
          (by simp [htm]) hn0 (by omega)
        rw [htc] at j3 j4 j6
        refine ⟨x :: xs, by simp, by simp; omega, ?_, ?_, ?_, ?_, ?_⟩
        · rw [j3, hth, List.range'_succ, List.map_cons]
          simp [readColEvents]
        · rw [j4, List.length_cons,
            show s.col.toNat + 1 + xs.length - 1 = s.col.toNat + (xs.length + 1) - 1 by omega]
        · rw [List.dropLast_cons_of_ne_nil (by intro h; simp [h] at j1)]
          intro y hy
          rcases List.mem_cons.mp hy with rfl | hy
          · exact hv
          · exact j5 y hy
        · intro h
          obtain ⟨a, b, c⟩ := j6 h
          exact ⟨by simp [a], by simpa [hv] using b, by omega⟩
        · intro h
          obtain ⟨y, hy, hne⟩ := j7 h
          refine ⟨y, ?_, hne⟩
          simp [List.getLast?_cons] at hy ⊢
          rw [hy]
          rfl

/-! ## Closure over bus operations -/

/-- A relation closed under the bus operations and the counters of `runMemory`. -/
structure BusClosed (P : Params) (E : Env) (R : State → State → Prop) : Prop where
  refl : ∀ s, R s s
  trans : ∀ {s t u}, R s t → R t u → R s u
  openRow : ∀ r s, R s (openRow P r s)
  closeRow : ∀ s, R s (closeRow P s)
  writeCol : ∀ c d s, R s (writeCol P c d s)
  readCol : ∀ c s, R s (readCol P E c s).1
  col : ∀ v s, R s (setCol v s)
  row : ∀ v s, R s (setRow v s)
  pat : ∀ v s, R s (setPat v s)

section Closed

variable {P : Params} {E : Env} {R : State → State → Prop} (h : BusClosed P E R)
include h

theorem BusClosed.pageWriteLoop (d : Bool) (n : Nat) (s : State) : R s (pageWriteLoop P d n s) := by
  induction n generalizing s with
  | zero => exact h.refl s
  | succ n ih => exact h.trans (h.trans (h.writeCol _ _ s) (h.col _ _)) (ih _)

theorem BusClosed.pageReadLoop (d : Bool) (n : Nat) (s : State) : R s (pageReadLoop P E d n s).1 := by
  induction n generalizing s with
  | zero => exact h.refl s
  | succ n ih =>
    simp only [Machine.pageReadLoop]
    split
    · exact h.readCol _ s
    · exact h.trans (h.readCol _ s) (h.trans (h.col _ _) (ih _))

theorem BusClosed.testPage (r : Byte) (d : Bool) (s : State) : R s (testPage P E r d s).1 := by
  unfold Machine.testPage pageWrite pageRead
  exact h.trans
    (h.trans (h.trans (h.trans (h.openRow r s) (h.col _ _)) (h.pageWriteLoop d _ _)) (h.closeRow _))
    (h.trans (h.trans (h.trans (h.openRow r _) (h.col _ _)) (h.pageReadLoop d _ _)) (h.closeRow _))

theorem BusClosed.patternPage (d : Bool) (s : State) : R s (patternPage P E d s).1 :=
  h.trans (h.pat d s) (h.testPage _ d _)

theorem BusClosed.testRow (s : State) : R s (testRow P E s).1 := by
  unfold Machine.testRow
  dsimp only
  split
  · exact h.patternPage false s
  · exact h.trans (h.patternPage false s) (h.patternPage true _)

theorem BusClosed.rowLoop (n : Nat) (s : State) : R s (rowLoop P E n s).1 := by
  induction n generalizing s with
  | zero => exact h.refl s
  | succ n ih =>
    simp only [Machine.rowLoop]
    split
    · exact h.testRow s
    · exact h.trans (h.testRow s) (h.trans (h.row _ _) (ih _))

theorem BusClosed.runMemory (s : State) : R s (runMemory P E s).1 := by
  unfold Machine.runMemory
  exact h.trans (h.row 0 s) (h.rowLoop _ _)

end Closed

end Sys2Proof.Machine
end

