-- ==== Sys2Proof/Laws/Memory.lean ====
section
/-! SUPPORT. The Vector Store: a write is read back, leaves every other address alone, and keeps the
canonical form (spec/20_memory.md R62). -/

namespace Sys2Proof.Machine

theorem PerBank_get_set {α : Type} (x : PerBank α) (b c : Bank) (v : α) :
    (x.set b v).get c = if c = b then v else x.get c := by
  cases b <;> cases c <;> rfl

/-- Addresses strictly rising, all from `lo` on. -/
def Memory.risesFrom (lo : Nat) : Memory → Prop
  | [] => True
  | c :: m => lo ≤ c.1 ∧ Memory.risesFrom (c.1 + 1) m

theorem Memory.risesFrom_mono {lo lo' : Nat} (h : lo' ≤ lo) {m : Memory} :
    Memory.risesFrom lo m → Memory.risesFrom lo' m := by
  cases m with
  | nil => exact id
  | cons c m => exact fun hm => ⟨h.trans hm.1, hm.2⟩

theorem Memory.read_below {lo a : Nat} (m : Memory) (hm : Memory.risesFrom lo m) (h : a < lo) :
    Memory.read m a = unlistedByte := by
  induction m generalizing lo with
  | nil => rfl
  | cons c m ih =>
    have hne : a ≠ c.1 := by have := hm.1; omega
    simp only [Memory.read, hne, if_false]
    exact ih hm.2 (by have := hm.1; omega)

/-- Read after write, at any address. -/
theorem Memory.read_write {lo : Nat} (m : Memory) (hm : Memory.risesFrom lo m) (a x : Nat) (v : Byte) :
    (Memory.write m a v).read x = if x = a then v else Memory.read m x := by
  induction m generalizing lo with
  | nil =>
    by_cases hv : v = unlistedByte
    · simp [Memory.write, Memory.read, hv]
    · simp [Memory.write, Memory.read, hv]
  | cons c m ih =>
    obtain ⟨b, w⟩ := c
    obtain ⟨-, hm'⟩ := hm
    unfold Memory.write
    split
    · rename_i hab
      split
      · rename_i hv
        split
        · subst x
          rw [hv]
          exact Memory.read_below _ (show Memory.risesFrom b ((b, w) :: m) from ⟨Nat.le_refl b, hm'⟩) hab
        · rfl
      · simp only [Memory.read]
    · split
      · rename_i hab heq
        subst heq
        split
        · rename_i hv
          simp only [Memory.read]
          split
          · subst x
            rw [hv]
            exact Memory.read_below _ hm' (Nat.lt_succ_self _)
          · rfl
        · simp only [Memory.read]
          split <;> rfl
      · rename_i hab hne
        simp only [Memory.read, ih hm']
        split
        · subst x
          simp [Ne.symm hne]
        · rfl

theorem Memory.risesFrom_write {lo : Nat} (m : Memory) (hm : Memory.risesFrom lo m) (a : Nat) (v : Byte)
    (ha : lo ≤ a) : Memory.risesFrom lo (Memory.write m a v) := by
  induction m generalizing lo with
  | nil =>
    unfold Memory.write
    split
    · trivial
    · exact ⟨ha, trivial⟩
  | cons c m ih =>
    obtain ⟨b, w⟩ := c
    obtain ⟨hb, hm'⟩ := hm
    simp only at hb hm'
    unfold Memory.write
    split
    · rename_i hab
      split
      · exact ⟨hb, hm'⟩
      · exact ⟨ha, hab, hm'⟩
    · split
      · rename_i hab heq
        subst heq
        split
        · exact Memory.risesFrom_mono (by omega) hm'
        · exact ⟨ha, hm'⟩
      · rename_i hab hne
        exact ⟨hb, ih hm' (by omega)⟩

/-- Every cell of a write is a cell of before or the one written, which is not the unlisted byte. -/
theorem Memory.mem_write (m : Memory) (a : Nat) (v : Byte) (c : Host.Cell)
    (h : c ∈ Memory.write m a v) : c ∈ m ∨ (c = (a, v) ∧ v ≠ unlistedByte) := by
  induction m with
  | nil =>
    unfold Memory.write at h
    split at h
    · cases h
    · rename_i hv
      exact .inr ⟨by simpa using h, hv⟩
  | cons d m ih =>
    obtain ⟨b, w⟩ := d
    unfold Memory.write at h
    split at h
    · split at h
      · exact .inl h
      · rename_i hv
        rcases List.mem_cons.mp h with h | h
        · exact .inr ⟨h, hv⟩
        · exact .inl h
    · split at h
      · split at h
        · exact .inl (List.mem_cons_of_mem _ h)
        · rename_i hv
          rcases List.mem_cons.mp h with h | h
          · exact .inr ⟨h, hv⟩
          · exact .inl (List.mem_cons_of_mem _ h)
      · rcases List.mem_cons.mp h with h | h
        · exact .inl (h ▸ List.mem_cons_self)
        · exact (ih h).imp (List.mem_cons_of_mem _) id

theorem Memory.pairwise_of_risesFrom {lo : Nat} (m : Memory) (hm : Memory.risesFrom lo m) :
    m.Pairwise (fun x y => x.1 < y.1) ∧ ∀ c ∈ m, lo ≤ c.1 := by
  induction m generalizing lo with
  | nil => exact ⟨List.Pairwise.nil, fun c h => by cases h⟩
  | cons c m ih =>
    obtain ⟨hc, hm'⟩ := hm
    obtain ⟨hp, hle⟩ := ih hm'
    refine ⟨List.Pairwise.cons (fun d hd => hle d hd) hp, fun d hd => ?_⟩
    rcases List.mem_cons.mp hd with rfl | hd
    · exact hc
    · have := hle d hd; omega

theorem Memory.risesFrom_of_pairwise (m : Memory) (h : m.Pairwise (fun x y => x.1 < y.1)) :
    Memory.risesFrom 0 m := by
  have key : ∀ (m : Memory) (lo : Nat), m.Pairwise (fun x y => x.1 < y.1) → (∀ c ∈ m, lo ≤ c.1) →
      Memory.risesFrom lo m := by
    intro m
    induction m with
    | nil => exact fun _ _ _ => trivial
    | cons c m ih =>
      intro lo hp hlo
      rw [List.pairwise_cons] at hp
      exact ⟨hlo c List.mem_cons_self, ih _ hp.2 fun d hd => hp.1 d hd⟩
  exact key m 0 h fun _ _ => Nat.zero_le _

/-- The canonical form in its parts. -/
theorem Memory.wf_iff (m : Memory) :
    Memory.wf m = true ↔
      m.Pairwise (fun x y => x.1 < y.1) ∧ ∀ c ∈ m, c.1 < storeBytes ∧ c.2 ≠ unlistedByte := by
  simp [Memory.wf]

/-- Every write inside the store keeps the canonical form. -/
theorem Memory.wf_write (m : Memory) (a : Nat) (v : Byte) (h : Memory.wf m = true)
    (ha : a < storeBytes) : Memory.wf (Memory.write m a v) = true := by
  rw [Memory.wf_iff] at h ⊢
  refine ⟨(Memory.pairwise_of_risesFrom _
    (Memory.risesFrom_write m (Memory.risesFrom_of_pairwise m h.1) a v (Nat.zero_le _))).1,
    fun c hc => ?_⟩
  rcases Memory.mem_write m a v c hc with hc | ⟨rfl, hv⟩
  · exact h.2 c hc
  · exact ⟨ha, hv⟩

/-- Read after write in a canonical store. -/
theorem Memory.read_write_wf (m : Memory) (h : Memory.wf m = true) (a x : Nat) (v : Byte) :
    (Memory.write m a v).read x = if x = a then v else Memory.read m x :=
  Memory.read_write m (Memory.risesFrom_of_pairwise m ((Memory.wf_iff m).mp h).1) a x v

theorem Memory.reset_wf : Memory.wf State.reset.vs = true := rfl

end Sys2Proof.Machine
end

