-- ==== Sys2Proof/Laws/Session.lean ====
section
/-! SUPPORT. The session an Upload stores: every vector is fetched as it was sent, and the store is
canonical and holds nothing past the session (spec/41_vector_sequencer.md R141, R143). -/

namespace Sys2Proof.Machine

theorem vecAddress_inj {p q : Nat} {b c : Bank} (h : vecAddress p b = vecAddress q c) :
    p = q ∧ b = c := by
  cases b <;> cases c <;> simp only [vecAddress, Bank.index] at h <;>
    first | (exact ⟨by omega, rfl⟩) | omega

theorem getVector_get (s : State) (p : Nat) (b : Bank) :
    (getVector s p).get b = s.vs.read (vecAddress p b) := by
  cases b <;> rfl

theorem vec_ext {v w : Vec} (h : ∀ b, v.get b = w.get b) : v = w := by
  obtain ⟨a, b, c⟩ := v
  obtain ⟨x, y, z⟩ := w
  have h0 := h .b0
  have h1 := h .b1
  have h2 := h .b2
  simp only [PerBank.get] at h0 h1 h2
  rw [h0, h1, h2]

theorem vecAddress_lt {p n : Nat} (b : Bank) (h : p < n) : vecAddress p b < 3 * n := by
  cases b <;> simp only [vecAddress, Bank.index] <;> omega

theorem writeVector_wf (p : Nat) (v : Vec) (m : Memory) (h : Memory.wf m = true) (hp : p < 1024) :
    Memory.wf (writeVector p v m) = true := by
  have bound : ∀ b, vecAddress p b < storeBytes := fun b => vecAddress_lt b hp
  exact Memory.wf_write _ _ _ (Memory.wf_write _ _ _ (Memory.wf_write _ _ _ h (bound _)) (bound _))
    (bound _)

theorem writeVector_read (p : Nat) (v : Vec) (m : Memory) (h : Memory.wf m = true) (hp : p < 1024)
    (q : Nat) (b : Bank) :
    (writeVector p v m).read (vecAddress q b) =
      if q = p then v.get b else Memory.read m (vecAddress q b) := by
  have bound : ∀ b, vecAddress p b < storeBytes := fun b => vecAddress_lt b hp
  have h0 := Memory.wf_write m (vecAddress p .b0) v.b0 h (bound _)
  have h1 := Memory.wf_write _ (vecAddress p .b1) v.b1 h0 (bound _)
  unfold writeVector
  rw [Memory.read_write_wf _ h1, Memory.read_write_wf _ h0, Memory.read_write_wf _ h]
  have key : ∀ c, vecAddress q b = vecAddress p c ↔ q = p ∧ b = c :=
    fun c => ⟨vecAddress_inj, fun ⟨h, k⟩ => by rw [h, k]⟩
  simp only [key]
  by_cases hq : q = p
  · cases b <;> simp [hq, PerBank.get]
  · simp [hq]

theorem mem_writeVector (p : Nat) (v : Vec) (m : Memory) (c : Host.Cell)
    (h : c ∈ writeVector p v m) : c ∈ m ∨ c.1 < 3 * (p + 1) := by
  have hlt : ∀ b, vecAddress p b < 3 * (p + 1) := fun b => vecAddress_lt b (Nat.lt_succ_self p)
  rcases Memory.mem_write _ _ _ c h with h | ⟨rfl, -⟩
  · rcases Memory.mem_write _ _ _ c h with h | ⟨rfl, -⟩
    · rcases Memory.mem_write _ _ _ c h with h | ⟨rfl, -⟩
      · exact .inl h
      · exact .inr (hlt _)
    · exact .inr (hlt _)
  · exact .inr (hlt _)

/-- What writing vectors from position `p` on does to the store. -/
theorem writeVectors_spec (vs : List Vec) (p : Nat) (m : Memory) (h : Memory.wf m = true)
    (hp : p + vs.length ≤ 1024) :
    Memory.wf (writeVectors p vs m) = true ∧
    (∀ c ∈ writeVectors p vs m, c ∈ m ∨ c.1 < 3 * (p + vs.length)) ∧
    (∀ q b, q < p → (writeVectors p vs m).read (vecAddress q b) = Memory.read m (vecAddress q b)) ∧
    ∀ (q : Nat) (hq : q < vs.length) (b : Bank),
      (writeVectors p vs m).read (vecAddress (p + q) b) = vs[q].get b := by
  induction vs generalizing p m with
  | nil =>
    exact ⟨h, fun c hc => .inl hc, fun _ _ _ => rfl, fun q hq => absurd hq (Nat.not_lt_zero q)⟩
  | cons v vs ih =>
    have hlen : (v :: vs).length = vs.length + 1 := rfl
    rw [hlen] at hp
    obtain ⟨i1, i2, i3, i4⟩ := ih (p + 1) (writeVector p v m)
      (writeVector_wf p v m h (by omega)) (by omega)
    refine ⟨i1, fun c hc => ?_, fun q b hq => ?_, fun q hq b => ?_⟩
    · rcases i2 c hc with hc | hc
      · rcases mem_writeVector p v m c hc with hc | hc
        · exact .inl hc
        · exact .inr (by rw [hlen]; omega)
      · exact .inr (by rw [hlen]; omega)
    · rw [show writeVectors p (v :: vs) m = writeVectors (p + 1) vs (writeVector p v m) from rfl,
        i3 q b (by omega), writeVector_read p v m h (by omega), if_neg (by omega)]
    · rw [show writeVectors p (v :: vs) m = writeVectors (p + 1) vs (writeVector p v m) from rfl]
      cases q with
      | zero =>
        show (writeVectors (p + 1) vs (writeVector p v m)).read (vecAddress p b) = v.get b
        rw [i3 p b (by omega), writeVector_read p v m h (by omega), if_pos rfl]
      | succ q =>
        have hq' : q < vs.length := by rw [hlen] at hq; omega
        have := i4 q hq' b
        rw [show p + 1 + q = p + (q + 1) by omega] at this
        rw [this]
        rfl

end Sys2Proof.Machine
end

