-- ==== Sys2Proof/Laws/Exec.lean ====
section
/-! SUPPORT. What a command can answer, said once for `exec`; a run as a whole; what events say of
replies and of `irq_inhibit`; what a step can be. -/

namespace Sys2Proof.Machine

/-! ## The start of a run -/

variable (s : State)

@[simp] theorem runStart_pb : (runStart s).pb = s.pb := by simp [runStart, configure_eq]
@[simp] theorem runStart_pbWritten : (runStart s).pbWritten = s.pbWritten := by
  simp [runStart, configure_eq]
@[simp] theorem runStart_ddr :
    (runStart s).ddr = ⟨directionByte s.pb.b0, directionByte s.pb.b1, directionByte s.pb.b2⟩ := by
  simp [runStart, configure_eq]
@[simp] theorem runStart_out : (runStart s).out = s.out := by simp [runStart, configure_eq]
@[simp] theorem runStart_tsType : (runStart s).tsType = s.tsType := by simp [runStart, configure_eq]
@[simp] theorem runStart_tsLength : (runStart s).tsLength = s.tsLength := by
  simp [runStart, configure_eq]
@[simp] theorem runStart_tsWritten : (runStart s).tsWritten = s.tsWritten := by
  simp [runStart, configure_eq]
@[simp] theorem runStart_vs : (runStart s).vs = s.vs := by simp [runStart, configure_eq]
@[simp] theorem runStart_pos : (runStart s).pos = s.pos := by simp [runStart, configure_eq]
@[simp] theorem runStart_row : (runStart s).row = s.row := by simp [runStart, configure_eq]
@[simp] theorem runStart_col : (runStart s).col = s.col := by simp [runStart, configure_eq]
@[simp] theorem runStart_pat : (runStart s).pat = s.pat := by simp [runStart, configure_eq]
@[simp] theorem runStart_pulse : (runStart s).pulse = s.pulse := by simp [runStart, configure_eq]
@[simp] theorem runStart_mbus : (runStart s).mbus = s.mbus := by simp [runStart, configure_eq]
@[simp] theorem runStart_rx : (runStart s).rx = s.rx := by simp [runStart, configure_eq]
@[simp] theorem runStart_tx : (runStart s).tx = s.tx := by simp [runStart, configure_eq]
@[simp] theorem runStart_cmdBuf : (runStart s).cmdBuf = s.cmdBuf := by simp [runStart, configure_eq]
@[simp] theorem runStart_pinScript : (runStart s).pinScript = s.pinScript := by
  simp [runStart, configure_eq]
@[simp] theorem runStart_past : (runStart s).past = s.past := by simp [runStart, configure_eq]
@[simp] theorem runStart_history :
    (runStart s).history = s.history ++ ([.inh true] ++ configureEvents s.pb) := by
  simp [runStart, configure_eq]

/-! ## The run as a whole -/

/-- The state in which the last repetition of a run ended. -/
def runEnd (P : Params) (E : Env) (e : Byte) (s : State) : State :=
  (repeatEngine (runEngine P E) e (runStart s)).1

theorem runEnd_effect (P : Params) (E : Env) (e : Byte) : EngineEffect (runStart s) (runEnd P E e s) :=
  repeatEngine_effect (runEngine_effect P E) e _

/-- A run in one update of the state its last repetition leaves. -/
theorem runBody_update (P : Params) (E : Env) (e : Byte) :
    runBody P E e s =
      { runEnd P E e s with
        ddr := ⟨0, 0, 0⟩, out := ⟨0, 0, 0⟩, irqInhibit := false
        tx := s.tx ++ [resultByte P (verdictResult (runEnd P E e s).result)], phase := .waitCmd
        history := (runEnd P E e s).history ++ resetEvents ++
          farewellEvents P (runEnd P E e s).result } := by
  rw [runBody_eq, endRun_eq, ← repeatEngine_result]
  have h := (runEnd_effect s P E e).tx
  rw [runStart_tx] at h
  rw [← h]
  rfl

/-- The events of a run, with the engine's own between `configure` and `reset()`
(spec/44_commands.md R235). -/
theorem runEnd_history (P : Params) (E : Env) (e : Byte) :
    ∃ es, (∀ x ∈ es, engineEvent x = true) ∧
      (runEnd P E e s).history = s.history ++ ([.inh true] ++ configureEvents s.pb) ++ es := by
  obtain ⟨es, h1, h2, -⟩ := (runEnd_effect s P E e).events
  exact ⟨es, h1, by rw [h2, runStart_history]⟩

/-- A Memory session leaves the logic engine's register alone. -/
theorem runEnd_pos (P : Params) (E : Env) (e : Byte) (hs : s.tsType = .memory) :
    (runEnd P E e s).pos = s.pos := by
  have h := repeatLoop_closed
    (R := fun s t => t.tsType = s.tsType ∧ (s.tsType = .memory → t.pos = s.pos))
    (engine := runEngine P E) (fun _ => ⟨rfl, fun _ => rfl⟩)
    (fun h k => ⟨k.1.trans h.1, fun hm => (k.2 (h.1.trans hm)).trans (h.2 hm)⟩) (fun _ => True)
    (fun _ _ => trivial)
    (fun s _ => ⟨(runEngine_effect P E s).tsType, fun hm => by
      unfold runEngine
      rw [hm]
      exact dramEngine_closed (dram_samePos P E) s⟩)
    (fun _ _ => ⟨rfl, fun _ => rfl⟩) (fun _ _ => ⟨rfl, fun _ => rfl⟩) (repetitions e)
    (setRep (BitVec.ofNat 16 (repetitions e)) (runStart s)) trivial
  exact (h.2 (by simpa using hs)).trans (by simp)

/-- A logic session leaves the DRAM engine's registers alone. -/
theorem runEnd_dramRegisters (P : Params) (E : Env) (e : Byte) (hs : s.tsType ≠ .memory) :
    SameDramRegisters s (runEnd P E e s) := by
  have same : ∀ s : State, SameDramRegisters s s := fun _ => ⟨rfl, rfl, rfl, rfl, rfl⟩
  have h := repeatLoop_closed
    (R := fun s t => t.tsType = s.tsType ∧ (s.tsType ≠ .memory → SameDramRegisters s t))
    (engine := runEngine P E) (fun s => ⟨rfl, fun _ => same s⟩)
    (fun h k => ⟨k.1.trans h.1, fun hm => (h.2 hm).trans (k.2 (by rw [h.1]; exact hm))⟩)
    (fun _ => True) (fun _ _ => trivial)
    (fun s _ => ⟨(runEngine_effect P E s).tsType, fun hm => by
      unfold runEngine
      cases ht : s.tsType
      · exact runLogic_closed (logic_sameDramRegisters E) s
      · exact runLogic_closed (logic_sameDramRegisters E) s
      · exact absurd ht hm⟩)
    (fun v s => ⟨rfl, fun _ => same s⟩) (fun v s => ⟨rfl, fun _ => same s⟩) (repetitions e)
    (setRep (BitVec.ofNat 16 (repetitions e)) (runStart s)) trivial
  have start : SameDramRegisters s (runStart s) := by simp [SameDramRegisters]
  exact start.trans (h.2 (by simpa using hs))

/-! ## What a command can answer -/

theorem exec_setup (low : BitVec 5) (banks : PerBank PinBank) :
    exec (.setup low banks) s = .next (setupIn Config.params banks s) := rfl

theorem exec_upload (low : BitVec 5) (t hi lo : Byte) (vectors : List Vec) :
    exec (.upload low t hi lo vectors) s = uploadIn Config.params t hi lo vectors s := rfl

theorem exec_run (low : BitVec 5) (e : Byte) :
    exec (.run low e) s = runIn Config.params Config.env e s := rfl

/-- What an Upload leaves in the store. -/
theorem upload_session (type : SessionType) (n : Nat) (vectors : List Vec) (hn : n ≤ 1024) :
    Memory.wf (upload type n vectors s).vs = true ∧
      ∀ c ∈ (upload type n vectors s).vs, c.1 < 3 * n := by
  have hl : (vectors.take n).length ≤ n := List.length_take_le n vectors
  have h := writeVectors_spec (vectors.take n) 0 [] rfl (by omega)
  refine ⟨h.1, fun c hc => ?_⟩
  rcases h.2.1 c hc with h | h
  · cases h
  · omega

/-- A next state of `exec` comes about in one of four ways. -/
theorem exec_next (i : Instr) (t : State) (h : exec i s = .next t) :
    (∃ low banks, i = .setup low banks ∧ t = setupIn Config.params banks s) ∨
    (∃ low ty hi lo vectors type, i = .upload low ty hi lo vectors ∧
      decodeType Config.params ty = some type ∧ assembleLength hi lo ≤ maxVectors ∧
      t = reply Config.params .ok (upload type (assembleLength hi lo) vectors s)) ∨
    (∃ low e, i = .run low e ∧ e.toNat ≤ 15 ∧ s.pbWritten = true ∧ s.tsWritten = true ∧
      t = runBody Config.params Config.env e s) ∨
    ((∃ low, i = .bad3 low ∨ i = .bad4 low ∨ i = .bad5 low ∨ i = .bad6 low ∨ i = .bad7 low) ∧
      t = raiseErr Config.params s) := by
  cases i with
  | setup low banks =>
    cases h
    exact .inl ⟨low, banks, rfl, rfl⟩
  | upload low ty hi lo vectors =>
    rw [exec_upload] at h
    rcases uploadIn_cases Config.params ty hi lo vectors s with ⟨-, k⟩ | ⟨_, -, -, k⟩ | ⟨type, h1, h2, k⟩ <;>
      rw [k] at h <;> cases h
    exact .inr (.inl ⟨low, ty, hi, lo, vectors, type, rfl, h1, h2, rfl⟩)
  | run low e =>
    rw [exec_run] at h
    rcases runIn_cases Config.params Config.env e s with ⟨-, k⟩ | ⟨_, -, k⟩ | ⟨h1, h2, h3, k⟩ <;>
      rw [k] at h <;> cases h
    exact .inr (.inr (.inl ⟨low, e, rfl, h1, h2, h3, rfl⟩))
  | bad3 low => cases h; exact .inr (.inr (.inr ⟨⟨low, .inl rfl⟩, rfl⟩))
  | bad4 low => cases h; exact .inr (.inr (.inr ⟨⟨low, .inr (.inl rfl)⟩, rfl⟩))
  | bad5 low => cases h; exact .inr (.inr (.inr ⟨⟨low, .inr (.inr (.inl rfl))⟩, rfl⟩))
  | bad6 low => cases h; exact .inr (.inr (.inr ⟨⟨low, .inr (.inr (.inr (.inl rfl)))⟩, rfl⟩))
  | bad7 low => cases h; exact .inr (.inr (.inr ⟨⟨low, .inr (.inr (.inr (.inr rfl)))⟩, rfl⟩))

/-- A next state of `step` comes of a whole command or of waiting for the rest of one. -/
theorem step_next (t : State) (h : step s = .next t) :
    (∃ i rest, decode Config.params (s.cmdBuf ++ s.rx) = .done i rest ∧
      exec i (takeCommand rest s) = .next t) ∨
    (∃ p, decode Config.params (s.cmdBuf ++ s.rx) = .more p ∧ t = awaitBytes p s) := by
  unfold step at h
  split at h
  · cases h
  · rename_i i rest heq
    refine .inl ⟨i, rest, ?_, h⟩
    unfold received at heq
    split at heq
    · split at heq
      · cases heq; assumption
      · cases heq
    · cases heq
  · rename_i p heq
    cases h
    refine .inr ⟨p, ?_, rfl⟩
    unfold received at heq
    split at heq
    · split at heq
      · cases heq
      · cases heq; assumption
    · cases heq

/-! ## What events say -/

theorem repliesIn_append (h k : List Event) : repliesIn (h ++ k) = repliesIn h ++ repliesIn k := by
  simp [repliesIn]

theorem inhibitAfter_append (v : Bool) (h k : List Event) :
    inhibitAfter v (h ++ k) = inhibitAfter (inhibitAfter v h) k := by
  simp [inhibitAfter]

/-- An engine's events send no reply and leave `irq_inhibit`. -/
theorem engineEvents_silent (es : List Event) (h : ∀ x ∈ es, engineEvent x = true) :
    repliesIn es = [] ∧ ∀ v, inhibitAfter v es = v := by
  induction es with
  | nil => exact ⟨rfl, fun _ => rfl⟩
  | cons e es ih =>
    obtain ⟨i1, i2⟩ := ih fun x hx => h x (List.mem_cons_of_mem _ hx)
    have he := h e (List.mem_cons_self ..)
    cases e <;> first | exact ⟨i1, i2⟩ | exact absurd he Bool.false_ne_true

end Sys2Proof.Machine
end

