-- ==== Sys2Proof/Laws/Logic.lean ====
section
/-! SUPPORT. What driving a vector, comparing banks and applying a vector do, for proofs about the logic
engine. -/

namespace Sys2Proof.Machine

/-- Driving a vector in one update (spec/42_generic_logic_comparator.md R161, R162). -/
theorem driveVector_eq (v : Vec) (s : State) :
    driveVector v s =
      { s with
        out := ⟨driveByte s.pb.b0 v.b0, driveByte s.pb.b1 v.b1, driveByte s.pb.b2 v.b2⟩
        history := s.history ++ driveEvents s.pb v } := by
  simp [driveVector, settle, delay, record, drive, portWrite, PerBank.set, PerBank.get, driveEvents]

/-- One bank of a comparison: read, then go on if the masked bytes agree. -/
theorem compareBanks_cons (E : Env) (v : Vec) (b : Bank) (bs : List Bank) (s : State) :
    compareBanks E v (b :: bs) s =
      if portInput E b s &&& ~~~(s.pb.get b).direction &&& (s.pb.get b).used =
          (v.get b) &&& ~~~(s.pb.get b).direction &&& (s.pb.get b).used
      then compareBanks E v bs (afterRead E b s)
      else (afterRead E b s, .fail) := by
  simp only [compareBanks, sample, portRead, Machine.expect, expectByte, bankVerdict]
  split_ifs with h <;> simp [h]

/-- What comparing banks leaves alone. -/
structure ReadOnly (s t : State) : Prop where
  pb : t.pb = s.pb
  ddr : t.ddr = s.ddr
  out : t.out = s.out
  vs : t.vs = s.vs
  tsType : t.tsType = s.tsType
  tsLength : t.tsLength = s.tsLength
  pos : t.pos = s.pos
  past : t.past = s.past
  pinScript : s.pinScript = [] → t.pinScript = []

theorem ReadOnly.refl (s : State) : ReadOnly s s := ⟨rfl, rfl, rfl, rfl, rfl, rfl, rfl, rfl, id⟩

theorem ReadOnly.trans {s t u : State} (h : ReadOnly s t) (k : ReadOnly t u) : ReadOnly s u :=
  ⟨k.pb.trans h.pb, k.ddr.trans h.ddr, k.out.trans h.out, k.vs.trans h.vs, k.tsType.trans h.tsType,
    k.tsLength.trans h.tsLength, k.pos.trans h.pos, k.past.trans h.past, fun e => k.pinScript (h.pinScript e)⟩

theorem afterRead_readOnly (E : Env) (b : Bank) (s : State) : ReadOnly s (afterRead E b s) :=
  ⟨rfl, rfl, rfl, rfl, rfl, rfl, rfl, rfl, fun h => by simp [h]⟩

theorem compareBanks_readOnly (E : Env) (v : Vec) (bs : List Bank) (s : State) :
    ReadOnly s (compareBanks E v bs s).1 := by
  induction bs generalizing s with
  | nil => exact .refl s
  | cons b bs ih =>
    rw [compareBanks_cons]
    split_ifs
    · exact (afterRead_readOnly E b s).trans (ih _)
    · exact afterRead_readOnly E b s

/-- After the drive, a vector's application only reads. -/
theorem applyVector_readOnly (E : Env) (s : State) :
    ReadOnly (driveVector (getVector s s.pos.toNat) s) (applyVector E s).1 := by
  unfold applyVector
  dsimp only
  split_ifs
  · exact compareBanks_readOnly ..
  · exact .refl _

/-- A vector is a function of the store. -/
theorem getVector_congr {s t : State} (h : t.vs = s.vs) (p : Nat) : getVector t p = getVector s p := by
  simp [getVector, h]

end Sys2Proof.Machine
end

