-- ==== Sys2Proof/Laws/PerInstr.lean ====
section
/-! SUPPORT. Facts about every instruction as syntax, one lemma for each constructor. Family EncodedLength:
the total length in bytes that spec/30_encoding.md R93 to R96 give each format, and the opcode field
(R91, R92) of the encoding's first byte. -/

namespace Sys2Proof.Laws.EncodedLength

/-- The length of each command's encoding, and the three bits its first byte begins with. -/
def Statement (i : Instr) : Prop :=
  (encode i).length =
      (match i with
      | .setup _ _ => 10
      | .upload _ _ _ _ vectors => 4 + 3 * vectors.length
      | .run _ _ => 2
      | .bad3 _ => 1
      | .bad4 _ => 1
      | .bad5 _ => 1
      | .bad6 _ => 1
      | .bad7 _ => 1) ∧
    ((encode i).head?.map fun cmd : Byte => (cmd >>> 5 : Byte)) =
      some (match i with
      | .setup _ _ => 0x00#8
      | .upload _ _ _ _ _ => 0x01#8
      | .run _ _ => 0x02#8
      | .bad3 _ => 0x03#8
      | .bad4 _ => 0x04#8
      | .bad5 _ => 0x05#8
      | .bad6 _ => 0x06#8
      | .bad7 _ => 0x07#8)

theorem opcode_setup (low : BitVec 5) : commandByte .setup low >>> 5 = 0x00#8 := by
  revert low; decide

theorem opcode_upload (low : BitVec 5) : commandByte .upload low >>> 5 = 0x01#8 := by
  revert low; decide

theorem opcode_run (low : BitVec 5) : commandByte .run low >>> 5 = 0x02#8 := by
  revert low; decide

theorem opcode_bad3 (low : BitVec 5) : commandByte .bad3 low >>> 5 = 0x03#8 := by
  revert low; decide

theorem opcode_bad4 (low : BitVec 5) : commandByte .bad4 low >>> 5 = 0x04#8 := by
  revert low; decide

theorem opcode_bad5 (low : BitVec 5) : commandByte .bad5 low >>> 5 = 0x05#8 := by
  revert low; decide

theorem opcode_bad6 (low : BitVec 5) : commandByte .bad6 low >>> 5 = 0x06#8 := by
  revert low; decide

theorem opcode_bad7 (low : BitVec 5) : commandByte .bad7 low >>> 5 = 0x07#8 := by
  revert low; decide

theorem vectors_length (vectors : List Vec) :
    (vectors.flatMap encodeVec).length = 3 * vectors.length := by
  induction vectors with
  | nil => rfl
  | cons v vs ih =>
    rw [List.flatMap_cons, List.length_append, ih, List.length_cons]
    show 3 + 3 * vs.length = 3 * (vs.length + 1)
    omega

theorem setup (low : BitVec 5) (banks : PerBank PinBank) : Statement (.setup low banks) :=
  ⟨rfl, congrArg some (opcode_setup low)⟩

theorem upload (low : BitVec 5) (type lengthHi lengthLo : Byte) (vectors : List Vec) :
    Statement (.upload low type lengthHi lengthLo vectors) := by
  refine ⟨?_, congrArg some (opcode_upload low)⟩
  show (vectors.flatMap encodeVec).length + 4 = 4 + 3 * vectors.length
  rw [vectors_length]
  omega

theorem run (low : BitVec 5) (exponent : Byte) : Statement (.run low exponent) :=
  ⟨rfl, congrArg some (opcode_run low)⟩

theorem bad3 (low : BitVec 5) : Statement (.bad3 low) := ⟨rfl, congrArg some (opcode_bad3 low)⟩

theorem bad4 (low : BitVec 5) : Statement (.bad4 low) := ⟨rfl, congrArg some (opcode_bad4 low)⟩

theorem bad5 (low : BitVec 5) : Statement (.bad5 low) := ⟨rfl, congrArg some (opcode_bad5 low)⟩

theorem bad6 (low : BitVec 5) : Statement (.bad6 low) := ⟨rfl, congrArg some (opcode_bad6 low)⟩

theorem bad7 (low : BitVec 5) : Statement (.bad7 low) := ⟨rfl, congrArg some (opcode_bad7 low)⟩

end Sys2Proof.Laws.EncodedLength
end

