-- ==== Sys2Proof/Laws/Reset.lean ====
section
/-! SUPPORT. What a step adds to all that the environment has seen, and what a hardware reset leaves of it
(spec/70_reset_and_hazards.md R280, R281). -/

namespace Sys2Proof.Machine

variable (s : State)

/-- A step appends to the history, uses up one scripted answer for each read, and leaves the events before
the last reset alone. -/
theorem step_trace (t : State) (h : step s = .next t) :
    t.past = s.past ∧
      ∃ es, t.history = s.history ++ es ∧ t.pinScript = s.pinScript.drop (readsIn es) := by
  rcases step_next s t h with ⟨i, rest, -, h⟩ | ⟨p, -, rfl⟩
  · rcases exec_next _ _ _ h with
      ⟨_, _, -, rfl⟩ | ⟨_, _, _, _, _, _, -, -, -, rfl⟩ | ⟨_, e, -, -, -, -, rfl⟩ | ⟨-, rfl⟩
    · exact ⟨rfl, [.tx _], rfl, rfl⟩
    · exact ⟨rfl, [.tx _], rfl, rfl⟩
    · have hE := runEnd_effect (takeCommand rest s) Config.params Config.env e
      obtain ⟨es, -, h1, -, h2⟩ := hE.events
      rw [runBody_update]
      generalize (runEnd Config.params Config.env e (takeCommand rest s)).result = v
      refine ⟨by simpa using hE.past,
        ([.inh true] ++ configureEvents s.pb) ++ es ++ resetEvents ++ farewellEvents Config.params v,
        by simp [h1], ?_⟩
      simp only [h2, runStart_pinScript, takeCommand_pinScript, readsIn_append]
      cases v <;> simp [readsIn, configureEvents, resetEvents, farewellEvents]
    · exact ⟨rfl, [.tx _], rfl, rfl⟩
  · exact ⟨rfl, [], by simp, rfl⟩

/-- A hardware reset keeps what the environment has seen, with the effect of `reset()` after it, and the
answers not yet used up; all else is as after power-on. -/
theorem hardwareReset_eq :
    s.hardwareReset =
      { State.reset with past := s.past ++ s.history ++ resetEvents, pinScript := s.pinScript } := by
  simp [State.hardwareReset, observed, resetPins_eq]

/-- The new events of a step, given the history after it. -/
theorem newEvents_eq {t : State} {es : List Event} (h : t.history = s.history ++ es) :
    newEvents s t = es := by simp [newEvents, h]

end Sys2Proof.Machine
end

