-- ==== Sys2Proof/Tests/Slice0.lean ====
section
/-! SUPPORT. Tests: expected results are from spec/95_test_vectors.md and the formats of
spec/30_encoding.md, worked by hand; then one witness for each statement with hypotheses. -/

namespace Sys2Proof.Machine.Tests

/-! ## Helpers -/

/-- The outcome's state after a next, seen through `f`. -/
def seen {α : Type} (f : State → α) : Host.Outcome State Fault Refusal → Option α
  | .next t => some (f t)
  | .fault _ => none
  | .refused _ => none

/-- The outcome's refusal. -/
def refusal : Host.Outcome State Fault Refusal → Option Refusal
  | .next _ => none
  | .fault _ => none
  | .refused r => some r

/-- A decoded command without the bytes after it. -/
def command (bs : List Byte) : Option Instr :=
  match decode Config.params bs with
  | .done i _ => some i
  | .more _ => none

/-- The configuration of spec/95_test_vectors.md section 1.1. -/
def banks11 : PerBank PinBank := ⟨⟨0xFF, 0xFF, 0x00⟩, ⟨0xFF, 0x00, 0x00⟩, ⟨0x00, 0x00, 0x00⟩⟩

/-- A state with a session of that configuration uploaded. -/
def session (type : SessionType) (vectors : List Vec) : State :=
  upload type vectors.length vectors (storeConfig banks11 State.reset)

/-- No level on any floating pin. -/
def still : List Event → Bank → Byte := fun _ _ => 0

/-- Bank 1 mirrors bank 0. -/
def mirror : Env := ⟨fun h _ => ⟨0xFF, (pinsOf h).out.b0⟩, still⟩

/-- Bank 1 is the complement of bank 0. -/
def inverter : Env := ⟨fun h _ => ⟨0xFF, ~~~(pinsOf h).out.b0⟩, still⟩

/-- The DRAM environment of section 2.4, empty. -/
def dram : Env := idealDram Config.params (fun _ _ => false) still

/-- A state whose `DDR` is as `configure` leaves it for the configuration of section 1.1. -/
def loopState : State :=
  { session .sequential [⟨0xFF, 0x00, 0x00⟩, ⟨0xFF, 0xFF, 0x00⟩] with ddr := ⟨0xFF, 0x00, 0x00⟩ }

/-! ## Well-formedness: one ill-formed term for each check -/

theorem test_wf_type : ¬ WellFormed (.upload 0 0x03 0x00 0x00 []) := by decide
theorem test_wf_length : ¬ WellFormed (.upload 0 0x00 0x04 0x01 []) := by decide
theorem test_wf_vectors : ¬ WellFormed (.upload 0 0x00 0x00 0x02 [⟨1, 2, 3⟩]) := by decide
theorem test_wf_exponent : ¬ WellFormed (.run 0 0x10) := by decide
theorem test_wf_good :
    WellFormed (.upload 0 0x02 0x00 0x01 [⟨1, 2, 3⟩]) ∧ WellFormed (.run 31 0x0F) := by decide

/-! ## Decoding: words written out from R91 to R96, one for each constructor -/

theorem test_decode_setup :
    command [0b00000000, 0x01, 0x02, 0x03, 0x04, 0x05, 0x06, 0x07, 0x08, 0x09] =
      some (.setup 0 ⟨⟨0x01, 0x02, 0x03⟩, ⟨0x04, 0x05, 0x06⟩, ⟨0x07, 0x08, 0x09⟩⟩) := by decide
theorem test_decode_upload :
    command [0b00100000, 0x01, 0x00, 0x01, 0x12, 0x34, 0x56] =
      some (.upload 0 0x01 0x00 0x01 [⟨0x12, 0x34, 0x56⟩]) := by decide
theorem test_decode_run : command [0b01011010, 0x0F] = some (.run 0b11010 0x0F) := by decide
theorem test_decode_bad3 : command [0b01111111] = some (.bad3 0b11111) := by decide
theorem test_decode_bad4 : command [0b10000000] = some (.bad4 0) := by decide
theorem test_decode_bad5 : command [0b10100000] = some (.bad5 0) := by decide
theorem test_decode_bad6 : command [0b11000001] = some (.bad6 1) := by decide
theorem test_decode_bad7 : command [0b11100111] = some (.bad7 0b00111) := by decide

/-- `length_hi` is the high byte (R101; section 2.5): 256 vectors are awaited. -/
theorem test_decode_length :
    decode Config.params [0x20, 0x00, 0x01, 0x00, 0xAA] = .more (.rxUploadVec 1) := by decide

/-- A header that is refused takes no vector bytes (section 2.5). -/
theorem test_decode_refused_header :
    decode Config.params [0x20, 0x00, 0x04, 0x01, 0xAA] = .done (.upload 0 0x00 0x04 0x01 []) [0xAA] := by
  decide

/-- The table's words: the first byte least significant (spec/opcode_table.json). -/
theorem test_table_words :
    decodeTableWord 80 0x0900 = some (.setup 0 ⟨⟨0x09, 0, 0⟩, ⟨0, 0, 0⟩, ⟨0, 0, 0⟩⟩) ∧
    decodeTableWord 32 0x00000120 = some (.upload 0 0x01 0x00 0x00 []) ∧
    decodeTableWord 16 0x0340 = some (.run 0 0x03) ∧
    decodeTableWord 8 0xE7 = some (.bad7 7) ∧ decodeTableWord 8 0x20 = some (.upload 0 0 0 0 []) := by
  decide

/-- The placed word is the next command `step` runs. -/
theorem test_fetch_word :
    seen (·.tx) (step (State.reset.withFetchWord 8 0x60)) = some [0x01] ∧
    seen (·.tx) (step (State.reset.withFetchWord 32 0x00000220)) = some [0x00] ∧
    refusal (step (State.reset.withFetchWord 16 0x0040)) = some .notConfigured := by decide

/-! ## Commands, one step each -/

theorem test_setup :
    seen (fun t => (t.pb, t.tx, t.ddr))
        (step (State.reset.hostSend [0x1F, 0xFF, 0x0F, 0xC5, 1, 2, 3, 4, 5, 6])) =
      some (⟨⟨0xFF, 0x0F, 0xC5⟩, ⟨1, 2, 3⟩, ⟨4, 5, 6⟩⟩, [0x00], ⟨0, 0, 0⟩) := by decide

/-- Section 2.2 (a): the store after the upload. -/
theorem test_upload_store :
    seen (fun t => (t.tsType, t.tsLength, (List.range 6).map t.vs.read))
        (exec (.upload 0 0x00 0x00 0x02 [⟨0xFF, 0x00, 0x00⟩, ⟨0x00, 0xFF, 0x00⟩]) State.reset) =
      some (.combinational, 2, [0xFF, 0x00, 0x00, 0x00, 0xFF, 0x00]) := by decide

/-- Section 2.2 (b): a second session replaces the first wholesale. -/
theorem test_upload_replaces :
    seen (fun t => (t.tsType, t.tsLength, t.vs))
        (exec (.upload 0 0x01 0x00 0x01 [⟨0x12, 0x34, 0x56⟩])
          (session .combinational [⟨1, 2, 3⟩, ⟨4, 5, 6⟩])) =
      some (.sequential, 1, [(0, 0x12), (1, 0x34), (2, 0x56)]) := by decide

/-- Section 1.1 (a): the mirror fails at bank 1 of vector 0, and bank 2 is not read. -/
theorem test_run_mirror :
    seen (·.history)
        (runIn Config.params mirror 0
          (session .combinational [⟨0xFF, 0x00, 0x00⟩, ⟨0x00, 0xFF, 0x00⟩])) =
      some
        [.inh true, .dir .b0 0xFF, .dir .b1 0x00, .dir .b2 0x00, .wr .b0 0xFF, .wr .b1 0x00, .wr .b2 0x00,
         .dly .settle, .rd .b0 0xFF, .rd .b1 0xFF, .dir .b0 0x00, .wr .b0 0x00, .dir .b1 0x00, .wr .b1 0x00,
         .dir .b2 0x00, .wr .b2 0x00, .inh false, .tx 0x03] := by decide

/-- Section 1.1 (b): the inverter passes. -/
theorem test_run_inverter :
    seen (fun t => (t.tx, t.pos, t.history.length))
        (runIn Config.params inverter 0
          (session .combinational [⟨0xFF, 0x00, 0x00⟩, ⟨0x00, 0xFF, 0x00⟩])) =
      some ([0x02], 2, 26) := by decide

/-- `execRun` is `runIn` for this model's parameters and environment. -/
theorem test_run_meaning (low : BitVec 5) (e : Byte) (s : State) :
    exec (.run low e) s = runIn Config.params Config.env e s := rfl

/-- Section 2.3 (b) with exponent 1: two empty executions. -/
theorem test_run_empty :
    seen (fun t => (t.tx, t.rep, t.irqInhibit)) (exec (.run 0 1) (session .combinational [])) =
      some ([0x02], 0, false) := by decide

theorem test_run_exponent :
    refusal (exec (.run 0 0x10) (session .combinational [])) = some .exponentTooLarge := by decide

theorem test_bad3 : seen (·.tx) (exec (.bad3 0) State.reset) = some [0x01] := by decide
theorem test_bad4 : seen (·.tx) (exec (.bad4 0) State.reset) = some [0x01] := by decide
theorem test_bad5 : seen (·.tx) (exec (.bad5 0) State.reset) = some [0x01] := by decide
theorem test_bad6 : seen (·.tx) (exec (.bad6 0) State.reset) = some [0x01] := by decide
theorem test_bad7 : seen (·.tx) (exec (.bad7 0) State.reset) = some [0x01] := by decide

/-! ## Operations of the engines -/

/-- Section 2.1, rows 1, 5 and 7: `DDR`, `OUT`, sample mask, `expect`. -/
theorem test_bank_formulas :
    directionByte ⟨0xF3, 0x0F, 0xC5⟩ = 0x03 ∧ driveByte ⟨0xF3, 0x0F, 0xC5⟩ 0xAA = 0xC2 ∧
    sampleMask ⟨0xF3, 0x0F, 0xC5⟩ = 0xF0 ∧ expectByte ⟨0xF3, 0x0F, 0xC5⟩ 0xAA = 0xA0 ∧
    driveByte ⟨0xFF, 0x00, 0xFF⟩ 0x00 = 0xFF ∧ driveByte ⟨0xFF, 0xF0, 0x0F⟩ 0x3C = 0x3F ∧
    expectByte ⟨0xFF, 0xF0, 0x0F⟩ 0x3C = 0x0C := by decide

/-- Section 1.4: mismatches at even indices of a Sequential session do not matter. -/
theorem test_sequential_odd :
    (runLogic mirror (session .sequential
      [⟨0xFF, 0x00, 0x00⟩, ⟨0xFF, 0xFF, 0x00⟩, ⟨0x00, 0xFF, 0x00⟩, ⟨0x00, 0x00, 0x00⟩])).2 = .pass ∧
    (runLogic mirror (session .combinational
      [⟨0xFF, 0x00, 0x00⟩, ⟨0xFF, 0xFF, 0x00⟩, ⟨0x00, 0xFF, 0x00⟩, ⟨0x00, 0x00, 0x00⟩])).2 = .fail := by
  decide

/-- Section 2.4 (a): the first bytes of `memSetup` and its end state. -/
theorem test_memSetup :
    let t := memSetup Config.params State.reset
    t.history.take 8 =
      [.wr .b0 0x18, .wr .b1 0x20, .dir .b0 0x3F, .dir .b1 0x3F, .dly .powerUp, .wr .b0 0x08,
       .dly .rasPw, .wr .b0 0x18] ∧
    t.history.length = 29 ∧ t.ddr = ⟨0x3F, 0x3F, 0x00⟩ ∧ t.out = ⟨0x18, 0x20, 0x00⟩ := by decide

/-- Section 2.4 (b): `testBit(0xA5C3, 1)` after `memSetup`. -/
theorem test_testBit :
    let r := testBit Config.params dram 0xA5C3#16 true (memSetup Config.params State.reset)
    r.2 = .pass ∧
    r.1.history.drop 29 =
      [.wr .b1 0x34, .wr .b0 0x1D, .wr .b0 0x0D, .wr .b0 0x23, .wr .b1 0x38, .wr .b1 0x18, .wr .b0 0x2B,
       .wr .b1 0x38, .wr .b0 0x3B,
       .wr .b1 0x34, .wr .b0 0x3D, .wr .b0 0x2D, .wr .b0 0x2B, .wr .b1 0x38, .wr .b1 0x18, .dly .cac,
       .rd .b1 0x58, .wr .b1 0x38, .wr .b0 0x3B] := by decide +kernel

/-- Section 2.6: the row 07F8. -/
theorem test_address_split :
    rowOf 0x07F8#16 = 0x07 ∧ lowField 0x07 = 0b111 ∧ highField 0x07 = 0 ∧
    colOf 0x07F8#16 = 0xF8 ∧ lowField 0xF8 = 0 ∧ highField 0xF8 = 0b11111 := by decide

/-- Reset at a later time: nothing of the session stays; the DUT has seen the pins released. -/
theorem test_hardware_reset :
    (session .sequential [⟨1, 2, 3⟩]).hardwareReset = { State.reset with past := resetEvents } := rfl

/-- R281: `rst` after three events of the run of an empty session, with the pins configured. -/
theorem test_reset_during_run :
    seen (fun t => (t.pbWritten, t.tx, t.history, t.past.take 4))
        (({ session .combinational [] with rx := [0x40, 0x00] } : State).resetDuring 3) =
      some (false, [], [], [.inh true, .dir .b0 0xFF, .dir .b1 0x00, .dir .b0 0x00]) := by decide

/-! ## Witnesses: states and operands that meet the hypotheses of the statements -/

theorem witness_params_valid : Config.params.Valid := by
  refine ⟨by decide, by decide, by decide, by decide, by decide, by decide, by decide, by decide, ?_⟩
  exact ⟨by decide, by decide, by decide, Nat.le_add_left 1 Config.rasPwOpen⟩

theorem witness_StepRunsTheDecodedCommand :
    let s := State.reset.hostSend [0x60, 0xAA]
    s.phase ≠ .running ∧ s.phase ≠ .reply ∧
      decode Config.params (s.cmdBuf ++ s.rx) = .done (.bad3 0) [0xAA] := by decide

theorem witness_StepWaitsForTheRestOfACommand :
    let s := State.reset.hostSend [0x40]
    s.phase ≠ .running ∧ s.phase ≠ .reply ∧ decode Config.params (s.cmdBuf ++ s.rx) = .more .rxRun := by
  decide

/-- Well-formed; and framed without being well-formed. -/
theorem witness_DecodeOfEncodeGivesTheCommand :
    (Instr.run 0 0x0F).wf Config.params = true ∧
    ((Instr.upload 0 0x03 0x00 0x02 []).wf Config.params = false ∧
      framed Config.params (.upload 0 0x03 0x00 0x02 []) = true) := by decide

theorem witness_EncodeOfDecodeGivesTheBytes :
    decode Config.params [0x40, 0x01, 0x02] = .done (.run 0 0x01) [0x02] := by decide

/-- Each clause at a boundary: no byte; the last but one byte of Setup's payload; two header bytes; a
whole header and one byte short of a vector; Run alone. Beside them the neighbours: Setup whole, an
Upload of no vectors, the longest length, and the one above it. -/
theorem witness_PhaseTellsTheBytesReceived :
    decode Config.params [] = .more .waitCmd ∧
    decode Config.params [0x00, 1, 2, 3, 4, 5, 6, 7, 8] = .more (.rxSetup 8) ∧
    decode Config.params [0x20, 0x00, 0x00] = .more (.rxUploadHdr 2) ∧
    decode Config.params [0x20, 0x02, 0x00, 0x01, 7, 8] = .more (.rxUploadVec 2) ∧
    decode Config.params [0x40] = .more .rxRun ∧
    command [0x00, 1, 2, 3, 4, 5, 6, 7, 8, 9] ≠ none ∧ command [0x20, 0x00, 0x00, 0x00] ≠ none ∧
    decode Config.params [0x20, 0x00, 0x04, 0x00] = .more (.rxUploadVec 0) ∧
    command [0x20, 0x00, 0x04, 0x01] ≠ none := by decide

theorem witness_ResetLeavesTheCoreIdleAndUnwritten (s : State) :
    State.reset ∈ [State.reset, s.hardwareReset] ∧ s.hardwareReset ∈ [State.reset, s.hardwareReset] := by
  simp

theorem witness_inv_reset : Inv State.reset where
  idle := ⟨fun b => by cases b <;> rfl, fun b => by cases b <;> rfl, rfl⟩
  session := ⟨by decide, by decide, by decide⟩
  waiting := rfl

theorem witness_StepKeepsTheIdleInvariant : ∃ t, Inv State.reset ∧ step State.reset = .next t :=
  ⟨_, witness_inv_reset, rfl⟩

theorem witness_HistoryAccountsForPinsAndReplies :
    seen (·.history) (step (State.reset.hostSend [0x60])) = some [.tx 0x01] := by decide

/-- The longest session and a short one. -/
theorem witness_UploadReplacesTheSession :
    (decodeType Config.params 0x02 = some .memory ∧ 256 * (0x04#8).toNat + (0x00#8).toNat ≤ 1024 ∧
      (List.replicate 1024 (⟨1, 2, 3⟩ : Vec)).length = 256 * (0x04#8).toNat + (0x00#8).toNat) ∧
    (decodeType Config.params 0x00 = some .combinational ∧
      [(⟨1, 2, 3⟩ : Vec)].length = 256 * (0x00#8).toNat + (0x01#8).toNat) := by
  rw [List.length_replicate]
  decide

/-- An unknown type; a known type with length 1025; and 1024, which neither clause takes. -/
theorem witness_UploadRefusesOutsideTheContract :
    refusal (exec (.upload 0 0x03 0x04 0x01 []) State.reset) = some .badType ∧
    refusal (exec (.upload 0 0x02 0x04 0x01 []) State.reset) = some .lengthOverflow ∧
    ¬ (1024 < 256 * (0x04#8).toNat + (0x00#8).toNat) := by decide

theorem witness_UnrecognisedCommandsReplyErr :
    Instr.bad5 0 ∈ [Instr.bad3 0, .bad4 0, .bad5 0, .bad6 0, .bad7 0] := by decide

/-- The exponent 16; the exponent 15 with nothing written. -/
theorem witness_RunRefusesOutsideItsPreconditions :
    15 < (0x10#8).toNat ∧ (0x0F#8).toNat ≤ 15 ∧ State.reset.pbWritten = false := by decide

theorem witness_RunCompletesAndRestoresIdle :
    let logic := session .sequential [⟨1, 2, 3⟩]
    let memory := session .memory []
    (0x0F#8).toNat ≤ 15 ∧ logic.pbWritten = true ∧ logic.tsWritten = true ∧ logic.tsType ≠ .memory ∧
      memory.pbWritten = true ∧ memory.tsWritten = true ∧ memory.tsType = .memory := by decide

/-- Each refusal of R254 comes about. -/
theorem witness_CommandsStopOnlyOutsideTheContract :
    refusal (exec (.upload 0 0xFF 0 0 []) State.reset) = some .badType ∧
    refusal (exec (.upload 0 0 0xFF 0xFF []) State.reset) = some .lengthOverflow ∧
    refusal (exec (.run 0 0xFF) State.reset) = some .exponentTooLarge ∧
    refusal (exec (.run 0 0) State.reset) = some .notConfigured := by decide

/-- A command of each kind completes. -/
theorem witness_EveryCommandSendsOneReply :
    seen (·.tx) (exec (.setup 0 banks11) State.reset) = some [0x00] ∧
    seen (·.tx) (exec (.upload 0 0 0 0 []) State.reset) = some [0x00] ∧
    seen (·.tx) (exec (.run 0 0) (session .combinational [])) = some [0x02] ∧
    seen (·.tx) (exec (.bad7 0) State.reset) = some [0x01] := by decide

theorem witness_ConfigurationAndSessionPersist :
    (∀ low banks, Instr.run 0 0 ≠ .setup low banks) ∧
    (∀ low ty hi lo vectors, Instr.run 0 0 ≠ .upload low ty hi lo vectors) ∧
    seen (·.tx) (exec (.run 0 0) (session .combinational [])) = some [0x02] :=
  ⟨nofun, nofun, by decide⟩

/-! ### A run that fails, of each kind, whatever the environment: the DUT's answer is scripted -/

/-- Every pin of bank 0 is sampled; the DUT's first answer is all zeros. -/
def failingLogic : State :=
  { upload .combinational 1 [⟨0xFF, 0x00, 0x00⟩]
      (storeConfig ⟨⟨0xFF, 0x00, 0x00⟩, ⟨0, 0, 0⟩, ⟨0, 0, 0⟩⟩ State.reset) with
    pinScript := [⟨0xFF, 0x00⟩] }

/-- A pin the DUT drives reads the DUT's level. -/
theorem portInput_driven (E : Env) (b : Bank) (s : State) (v : Byte) (rest : List PinDrive)
    (h : s.pinScript = ⟨0xFF#8, v⟩ :: rest) :
    portInput E b s = (s.ddr.get b &&& s.out.get b) ||| (~~~(s.ddr.get b) &&& v) := by
  have hd : dutAnswer E b s = ⟨0xFF#8, v⟩ := by simp [dutAnswer, h]
  simp only [portInput, inputByte, hd]
  generalize E.draw (observed s) b = d
  ext i hi
  have : (0xFF#8)[i] = true := by
    revert hi; revert i; decide
  simp [this]

/-- A run whose one repetition fails replies Fail. -/
theorem run_fails (s : State) (hp : s.pbWritten = true) (ht : s.tsWritten = true)
    (hf : (runEngine Config.params Config.env
      (setRep (BitVec.ofNat 16 1) (runStart s))).2 = .fail) :
    ∃ t, exec (.run 0 0) s = .next t ∧ t.tx = s.tx ++ [Config.params.resFail] := by
  refine ⟨runBody Config.params Config.env 0 s, ?_, ?_⟩
  · simp [exec_run, runIn, hp, ht]
  · rw [runBody_update]
    have hv : (runEnd Config.params Config.env 0 s).result = .fail := by
      rw [runEnd, repeatEngine_result]
      show (repeatLoop _ 1 (setRep (BitVec.ofNat 16 1) (runStart s))).2 = .fail
      simp only [repeatLoop, hf]
    dsimp only
    rw [hv]
    rfl

theorem witness_FailingRunTakesTheAbortPath_logic :
    failingLogic.tsType ≠ .memory ∧
      ∃ t, exec (.run 0 0) failingLogic = .next t ∧ t.tx = [Config.params.resFail] := by
  refine ⟨by decide, run_fails _ rfl rfl ?_⟩
  generalize hs : setRep (BitVec.ofNat 16 1) (runStart failingLogic) = s
  have hty : s.tsType = .combinational := by rw [← hs]; rfl
  have hlen : s.tsLength = 1 := by rw [← hs]; rfl
  have hpb : s.pb = ⟨⟨0xFF, 0x00, 0x00⟩, ⟨0, 0, 0⟩, ⟨0, 0, 0⟩⟩ := by rw [← hs]; rfl
  have hddr : s.ddr = ⟨0, 0, 0⟩ := by rw [← hs]; rfl
  have hscript : s.pinScript = [⟨0xFF#8, 0x00#8⟩] := by rw [← hs]; rfl
  have hvec : getVector s 0 = ⟨0xFF, 0x00, 0x00⟩ := by rw [← hs]; rfl
  have happly : (applyVector Config.env (setPos 0 s)).2 = .fail := by
    have hin := portInput_driven Config.env .b0 (driveVector ⟨0xFF, 0x00, 0x00⟩ (setPos 0 s)) 0x00#8 []
      (by rw [driveVector_eq]; exact hscript)
    simp only [applyVector, setPos_pos, setPos_tsType, hty, samples, if_true]
    rw [show getVector (setPos 0 s) (BitVec.toNat 0) = ⟨0xFF, 0x00, 0x00⟩ from hvec, compareBanks_cons,
      hin, driveVector_eq]
    simp [hpb, hddr, PerBank.get]
  simp only [runEngine, hty, runLogic, hlen]
  show (logicLoop Config.env 1 (setPos 0 s)).2 = .fail
  simp only [logicLoop, happly]

/-- A Memory session whose DUT answers the first read with `DOUT` at 1. -/
def failingMemory : State := { session .memory [] with pinScript := [⟨0xFF, 0xFF⟩] }

/-- The writes of a page leave the directions and the script. -/
theorem pageWriteLoop_keeps (d : Bool) (n : Nat) (s : State) :
    (pageWriteLoop Config.params d n s).ddr = s.ddr ∧
      (pageWriteLoop Config.params d n s).pinScript = s.pinScript := by
  induction n generalizing s with
  | zero => exact ⟨rfl, rfl⟩
  | succ n ih =>
    obtain ⟨h1, h2⟩ := ih (setCol ((writeCol Config.params (colByte s) d s).col + 1)
      (writeCol Config.params (colByte s) d s))
    rw [setCol_ddr] at h1
    rw [setCol_pinScript] at h2
    refine ⟨h1.trans ?_, h2.trans ?_⟩ <;>
      simp [writeCol, writeL, writeH, setAL, setAH, setCas, setWe, setDin]

/-- A first read of 1 where 0 was written fails a page of any number of columns. -/
theorem page_fails (E : Env) (k n : Nat) (r : Byte) (s : State) (hs : s.pinScript = [⟨0xFF#8, 0xFF#8⟩])
    (hd : (s.ddr.get .b1).getLsbD 6 = false) :
    (pageReadLoop Config.params E false (n + 1) (setCol 0 (openRow Config.params r (closeRow Config.params
      (pageWriteLoop Config.params false k (setCol 0 (openRow Config.params r s))))))).2 = .fail := by
  obtain ⟨k1, k2⟩ := pageWriteLoop_keeps false k (setCol 0 (openRow Config.params r s))
  generalize pageWriteLoop Config.params false k (setCol 0 (openRow Config.params r s)) = w at k1 k2
  have hw1 : w.ddr = s.ddr := by rw [k1]; simp [openRow, writeL, writeH, setAL, setAH, setRas]
  have hw2 : w.pinScript = [⟨0xFF#8, 0xFF#8⟩] := by
    rw [k2, ← hs]; simp [openRow, writeL, writeH, setAL, setAH, setRas]
  generalize hz : setCol 0 (openRow Config.params r (closeRow Config.params w)) = z
  have hz1 : z.ddr = s.ddr := by
    rw [← hz, ← hw1]; simp [openRow, closeRow, writeL, writeH, setAL, setAH, setRas]
  have hz2 : z.pinScript = [⟨0xFF#8, 0xFF#8⟩] := by
    rw [← hz, ← hw2]; simp [openRow, closeRow, writeL, writeH, setAL, setAH, setRas]
  have hr : (readCol Config.params E (colByte z) z).2 = true := by
    show (portInput E .b1 (readColOpen Config.params (colByte z) z)).getLsbD 6 = true
    rw [portInput_driven E .b1 (readColOpen Config.params (colByte z) z) 0xFF#8 []
      (by rw [← hz2]; simp [readColOpen, writeL, writeH, setAL, setAH, setCas])]
    have hddr : (readColOpen Config.params (colByte z) z).ddr = s.ddr := by
      rw [← hz1]; simp [readColOpen, writeL, writeH, setAL, setAH, setCas]
    rw [hddr]
    simp only [BitVec.getLsbD_or, BitVec.getLsbD_and, BitVec.getLsbD_not, hd, Bool.false_and,
      Bool.false_or]
    rfl
  simp only [pageReadLoop, hr]
  rfl

/-- A page that fails ends the rows. -/
theorem rows_fail (E : Env) (n : Nat) (s : State)
    (h : (patternPage Config.params E false s).2 = .fail) :
    (rowLoop Config.params E (n + 1) s).2 = .fail := by
  simp only [rowLoop, testRow, h]

theorem witness_FailingRunTakesTheAbortPath_memory :
    failingMemory.tsType = .memory ∧
      ∃ t, exec (.run 0 0) failingMemory = .next t ∧ t.tx = [Config.params.resFail] := by
  refine ⟨by decide, run_fails _ rfl rfl ?_⟩
  generalize hs : setRep (BitVec.ofNat 16 1) (runStart failingMemory) = s
  have hty : s.tsType = .memory := by rw [← hs]; rfl
  have hscript : s.pinScript = [⟨0xFF#8, 0xFF#8⟩] := by rw [← hs]; rfl
  simp only [runEngine, hty]
  have hm : (memSetup Config.params s).pinScript = [⟨0xFF#8, 0xFF#8⟩] := by
    rw [← hscript]; simp [memSetup, warmupLoop, warmupPulse, writeL, writeH, setRas]
  have hd : ((memSetup Config.params s).ddr.get .b1).getLsbD 6 = false := by
    have : (memSetup Config.params s).ddr = ⟨0x3F, 0x3F, s.ddr.b2⟩ := by
      simp [memSetup, warmupLoop, warmupPulse, writeL, writeH, setRas, Config.params, PerBank.set]
      decide
    rw [this]
    show (0x3F#8).getLsbD 6 = false
    decide
  rw [dramEngine, runMemory]
  generalize memSetup Config.params s = m at hm hd
  refine rows_fail Config.env 255 (setRow 0 m) ?_
  unfold patternPage testPage pageRead pageWrite
  exact page_fails Config.env 256 255 _ (setPat false (setRow 0 m)) hm hd

/-! ### The pins, the sequencer and the engines -/

theorem witness_ReadGivesThePinLevels : (0 : Nat) < 8 ∧ (7 : Nat) < 8 := by decide

theorem witness_LogicRunLeavesUnusedPinsAlone :
    (session .combinational []).tsType ≠ .memory ∧
    seen (·.history.length) (exec (.run 0 0) (session .combinational [])) = some 12 := by decide

theorem witness_DrivenPinsAreUsedAndDirection :
    Event.wr .b1 0x00 ∈ resetEvents := by decide

theorem witness_EngineIsSelectedByTypeAlone :
    (session .memory []).tsType = .memory ∧ (session .combinational []).tsType = .combinational ∧
    (session .sequential []).tsType = .sequential := by decide

/-- No failing execution; the last of two failing. -/
theorem witness_RepetitionStopsAtTheFirstFail :
    ((0x01#8).toNat ≤ 15 ∧ (0x0F#8).toNat ≤ 15) ∧
    (∀ j, j < 2 ^ (0x01#8).toNat → (fun _ : Nat => Verdict.pass) j = .pass) ∧
    (let verdicts := fun j : Nat => if j = 1 then Verdict.fail else .pass
     1 < 2 ^ (0x01#8).toNat ∧ (∀ j, j < 1 → verdicts j = .pass) ∧ verdicts 1 = .fail) := by decide

/-- Section 2.2 (d): eight executions; three where the third fails. -/
theorem test_repeat :
    (repeatEngine (mockEngine 0 fun _ => .pass) 3 State.reset).1.history.length = 8 ∧
    (repeatEngine (mockEngine 0 fun j => if j = 2 then .fail else .pass) 3
      State.reset).1.history.length = 3 := by decide

theorem witness_VectorEventsInOrder :
    samples (session .sequential []).tsType 0 = false ∧
    samples (session .sequential []).tsType 1 = true ∧
    samples (session .sequential []).tsType 1023 = true := by decide

/-- Both verdicts come about. -/
theorem witness_MismatchEndsTheLogicRun :
    (runLogic mirror (session .combinational [⟨0xFF, 0x00, 0x00⟩])).2 = .fail ∧
    (runLogic mirror (session .combinational [⟨0xFF, 0xFF, 0x00⟩])).2 = .pass := by decide

/-- Every pin mirrors the pin of the same number in bank 0. -/
def mirrorWiring : Wiring := fun _ i => (.b0, i)

theorem mirror_wired : WiredAs mirrorWiring mirror := by
  intro h b i hi
  refine ⟨?_, rfl⟩
  show (0xFF#8).getLsbD i = true
  revert hi
  revert i
  decide

theorem witness_LoopbackRoundTrip :
    WiredAs mirrorWiring mirror ∧ loopState.pinScript = [] ∧ loopState.tsType ≠ .memory ∧
    (∀ b, loopState.ddr.get b = (loopState.pb.get b).used &&& (loopState.pb.get b).direction) ∧
    (∀ b i, i < 8 → (sampleMask (loopState.pb.get b)).getLsbD i = true →
      ((loopState.pb.get (mirrorWiring b i).1).used &&&
        (loopState.pb.get (mirrorWiring b i).1).direction).getLsbD (mirrorWiring b i).2 = true) := by
  refine ⟨mirror_wired, rfl, by decide, fun b => by cases b <;> rfl, fun b i hi hm => ?_⟩
  clear hm
  show (0xFF#8 &&& 0xFF#8).getLsbD i = true
  revert hi
  revert i
  decide

theorem witness_EmptySessionPassesAtEveryExponent :
    let s := session .sequential []
    (0x0F#8).toNat ≤ 15 ∧ s.pbWritten = true ∧ s.tsWritten = true ∧ s.tsType ≠ .memory ∧
      s.tsLength = 0#11 := by decide

/-- Seven events for each Combinational vector; four, then seven, for two Sequential ones. -/
theorem witness_PassingLogicRunEventCount :
    (runLogic mirror (session .combinational [⟨0xFF, 0xFF, 0⟩])).2 = .pass ∧
    (runLogic mirror (session .combinational [⟨0xFF, 0xFF, 0⟩])).1.history.length = 7 ∧
    (runLogic mirror loopState).2 = .pass ∧ loopState.tsType = .sequential ∧
    (runLogic mirror loopState).1.history.length = 11 := by decide

/-- Both verdicts come about, and an unchecked vector beside a checked one. -/
theorem witness_LogicRunAppliesTheVectorsInOrder :
    (runLogic mirror loopState).2 = .pass ∧ samples loopState.tsType 0 = false ∧
    samples loopState.tsType 1 = true ∧
    (runLogic mirror (session .combinational [⟨0xFF, 0x00, 0x00⟩])).2 = .fail := by decide

/-- A step with one event, cut before it and after it. -/
theorem witness_ResetEndsACommandAfterAnyOfItsEvents :
    let s := State.reset.hostSend [0x60]
    seen (·.history) (step s) = some [.tx 0x01] ∧
    seen (·.past) (s.resetDuring 0) = some resetEvents ∧
    seen (·.past) (s.resetDuring 1) = some (.tx 0x01 :: resetEvents) := by decide

theorem witness_BusSignalsHaveTheirOwnBits : Config.params.Valid ∧ (0 : Nat) < 8 ∧ (7 : Nat) < 8 :=
  ⟨witness_params_valid, by decide, by decide⟩

theorem witness_MemSetupLeavesTheBusIdle : Config.params.memLBank ≠ Config.params.memHBank := by decide

theorem witness_DramEngineMovesOnlyItsTwoPorts :
    Config.params.memLBank ≠ Config.params.memHBank ∧ Bank.b2 ≠ Config.params.memLBank ∧
    Bank.b2 ≠ Config.params.memHBank := by decide

theorem witness_TestBitWritesThenReadsBack : StrobesIdle (memSetup Config.params State.reset).mbus :=
  ⟨rfl, rfl, rfl⟩

theorem witness_PageIsWrittenWholeBeforeItIsRead :
    StrobesIdle (memSetup Config.params State.reset).mbus := ⟨rfl, rfl, rfl⟩

theorem witness_FullTestVisitsThePagesInOrder :
    StrobesIdle (memSetup Config.params State.reset).mbus := ⟨rfl, rfl, rfl⟩

/-- A read of the engine, with the delay and the column strobe before it. -/
theorem witness_DramReadsWaitForTheColumnDelay :
    ((testBit Config.params dram 0x0000#16 false State.reset).1.history.drop 13).take 4 =
      [writesH Config.params 0 true, writesH Config.params 0 false, .dly .cac, .rd .b1 0x00] := by
  decide +kernel

theorem witness_IdealDramRoundTrip : Config.params.Valid ∧ State.reset.pinScript = [] :=
  ⟨witness_params_valid, rfl⟩

theorem witness_IdealDramPassesTheFullTest :
    Config.params.Valid ∧ (session .memory []).pinScript = [] := ⟨witness_params_valid, rfl⟩

end Sys2Proof.Machine.Tests
end

section
/-! PROOFS. The state's family (spec/10_state.md): what persists across commands (R30), and that a logic
run leaves the pins outside `used` alone (R22). -/

namespace Sys2Proof.Machine

/-! ## Persistence of the configuration and the session (R30) -/

/-- What a run keeps is what its engine keeps: its start and its end write neither `PB` nor `TS`. -/
theorem runBody_keeps_config_and_session (P : Params) (E : Env) (e : Byte) (s : State) :
    (runBody P E e s).pb = s.pb ∧ (runBody P E e s).pbWritten = s.pbWritten ∧
    (runBody P E e s).tsType = s.tsType ∧ (runBody P E e s).tsLength = s.tsLength ∧
    (runBody P E e s).tsWritten = s.tsWritten ∧ (runBody P E e s).vs = s.vs := by
  have hE := runEnd_effect s P E e
  rw [runBody_update]
  simp [hE.pb, hE.pbWritten, hE.tsType, hE.tsLength, hE.tsWritten, hE.vs]

/-- Settles O19, by the four ways in which a command completes. -/
theorem configurationAndSessionPersist : Obligations.ConfigurationAndSessionPersist := by
  unfold Obligations.ConfigurationAndSessionPersist
  intro i s t h
  refine and_assoc.mp ⟨?_, rfl, rfl⟩
  rcases exec_next s i t h with
    ⟨low, banks, rfl, rfl⟩ | ⟨low, ty, hi, lo, vectors, type, rfl, -, -, rfl⟩ |
    ⟨low, e, -, -, -, -, rfl⟩ | ⟨-, rfl⟩
  case inl => exact ⟨fun hne => absurd rfl (hne low banks), fun _ => ⟨rfl, rfl, rfl, fun _ => rfl⟩⟩
  case inr.inl =>
    exact ⟨fun _ => ⟨rfl, rfl⟩, fun hne => absurd rfl (hne low ty hi lo vectors)⟩
  case inr.inr.inl =>
    obtain ⟨hpb, hpbw, hty, hlen, htsw, hvs⟩ :=
      runBody_keeps_config_and_session Config.params Config.env e s
    exact ⟨fun _ => ⟨hpb, hpbw⟩, fun _ => ⟨hty, hlen, htsw, fun a => by rw [hvs]⟩⟩
  case inr.inr.inr => exact ⟨fun _ => ⟨rfl, rfl⟩, fun _ => ⟨rfl, rfl, rfl, fun _ => rfl⟩⟩

/-! ## Pins outside `used` (R22) -/

/-- A byte ANDed with a mask has no bit outside the mask. -/
theorem and_mask_and_not_mask (x m : Byte) : x &&& m &&& ~~~m = 0x00#8 := by
  rw [BitVec.and_assoc, BitVec.and_not_self]
  exact BitVec.and_zero

theorem directionByte_within_used (c : PinBank) : directionByte c &&& ~~~c.used = 0x00#8 := by
  rw [directionByte, BitVec.and_comm c.used, and_mask_and_not_mask]

theorem driveByte_within_used (c : PinBank) (v : Byte) : driveByte c v &&& ~~~c.used = 0x00#8 := by
  rw [driveByte, BitVec.and_comm c.used, and_mask_and_not_mask]

theorem sample_within_used (E : Env) (b : Bank) (s : State) :
    (sample E b s).1 &&& ~~~(s.pb.get b).used = 0x00#8 := and_mask_and_not_mask _ _

/-- No `Dir` and no `Wr` among the events has a bit outside its bank's `used`. -/
def WithinUsed (pb : PerBank PinBank) (es : List Event) : Prop :=
  ∀ b v, Event.dir b v ∈ es ∨ Event.wr b v ∈ es → v &&& ~~~(pb.get b).used = 0x00#8

theorem WithinUsed.append {pb : PerBank PinBank} {es fs : List Event} (h : WithinUsed pb es)
    (k : WithinUsed pb fs) : WithinUsed pb (es ++ fs) := by
  intro b v hv
  simp only [List.mem_append] at hv
  rcases hv with (hv | hv) | (hv | hv)
  · exact h b v (.inl hv)
  · exact k b v (.inl hv)
  · exact h b v (.inr hv)
  · exact k b v (.inr hv)

/-- Events that write no port register. -/
theorem WithinUsed.of_no_write {pb : PerBank PinBank} {es : List Event}
    (h : ∀ b v, Event.dir b v ∉ es ∧ Event.wr b v ∉ es) : WithinUsed pb es :=
  fun b v hv => absurd hv (not_or.mpr (h b v))

theorem configureEvents_withinUsed (pb : PerBank PinBank) : WithinUsed pb (configureEvents pb) := by
  intro b v hv
  have hv : v = directionByte (pb.get b) := by
    cases b <;> simpa [configureEvents, directionByte, PerBank.get] using hv
  rw [hv, directionByte_within_used]

theorem resetEvents_withinUsed (pb : PerBank PinBank) : WithinUsed pb resetEvents := by
  intro b v hv
  have hv : v = 0x00#8 := by cases b <;> simpa [resetEvents] using hv
  rw [hv, BitVec.zero_and]

/-- The second state comes after the first by moves that keep the masks and the session's type and write
the pins in `used` only. -/
structure MovesWithinUsed (s t : State) : Prop where
  pb : t.pb = s.pb
  tsType : t.tsType = s.tsType
  events : ∃ es, t.history = s.history ++ es ∧ WithinUsed s.pb es

theorem MovesWithinUsed.trans {s t u : State} (h : MovesWithinUsed s t) (k : MovesWithinUsed t u) :
    MovesWithinUsed s u := by
  obtain ⟨es, hes, hw⟩ := h.events
  obtain ⟨fs, hfs, kw⟩ := k.events
  rw [h.pb] at kw
  exact ⟨k.pb.trans h.pb, k.tsType.trans h.tsType, es ++ fs,
    by rw [hfs, hes, List.append_assoc], hw.append kw⟩

/-- A move that leaves no event. -/
theorem MovesWithinUsed.of_silent {s t : State} (hpb : t.pb = s.pb) (hty : t.tsType = s.tsType)
    (hh : t.history = s.history) : MovesWithinUsed s t :=
  ⟨hpb, hty, [], by rw [hh, List.append_nil], .of_no_write fun _ _ => ⟨List.not_mem_nil, List.not_mem_nil⟩⟩

theorem drive_movesWithinUsed (b : Bank) (v : Byte) (s : State) : MovesWithinUsed s (drive b v s) := by
  refine ⟨rfl, rfl, [.wr b (driveByte (s.pb.get b) v)], rfl, fun b' v' hv => ?_⟩
  obtain ⟨rfl, rfl⟩ : b' = b ∧ v' = driveByte (s.pb.get b) v := by simpa using hv
  exact driveByte_within_used _ v

theorem logic_movesWithinUsed (E : Env) : LogicClosed E MovesWithinUsed where
  refl _ := .of_silent rfl rfl rfl
  trans := MovesWithinUsed.trans
  drive := drive_movesWithinUsed
  read b s := ⟨rfl, rfl, [.rd b (portInput E b s)], rfl, .of_no_write (by simp)⟩
  settle _ := ⟨rfl, rfl, [.dly .settle], rfl, .of_no_write (by simp)⟩
  pos _ _ := .of_silent rfl rfl rfl

theorem runEngine_movesWithinUsed (P : Params) (E : Env) (s : State) (hs : s.tsType ≠ .memory) :
    MovesWithinUsed s (runEngine P E s).1 := by
  unfold runEngine
  split
  · contradiction
  · exact runLogic_closed (logic_movesWithinUsed E) s
  · exact runLogic_closed (logic_movesWithinUsed E) s

/-- Every repetition of a logic session's run starts in a logic session, so all of them keep to `used`. -/
theorem runEnd_movesWithinUsed (P : Params) (E : Env) (e : Byte) (s : State) (hs : s.tsType ≠ .memory) :
    MovesWithinUsed (runStart s) (runEnd P E e s) := by
  have silent : ∀ v s, MovesWithinUsed s (setRep v s) := fun _ _ => .of_silent rfl rfl rfl
  refine (silent _ _).trans (repeatLoop_closed (logic_movesWithinUsed E).refl MovesWithinUsed.trans
    (fun s => s.tsType ≠ .memory) (fun hs h => by rwa [h.tsType]) (runEngine_movesWithinUsed P E)
    (fun _ _ => .of_silent rfl rfl rfl) silent _ _ ?_)
  simpa using hs

/-- The events of a logic session's run: those of its start, of its engine and of its end. -/
theorem runBody_withinUsed (P : Params) (E : Env) (e : Byte) (s : State) (hs : s.tsType ≠ .memory) :
    ∃ es, (runBody P E e s).history = s.history ++ es ∧ WithinUsed s.pb es := by
  obtain ⟨es, hes, hw⟩ := (runEnd_movesWithinUsed P E e s hs).events
  rw [runStart_pb] at hw
  refine ⟨[.inh true] ++ configureEvents s.pb ++ es ++ resetEvents ++
    farewellEvents P (runEnd P E e s).result, ?_, ?_⟩
  · rw [runBody_update]
    simp [hes]
  · exact (((WithinUsed.append (.of_no_write (by simp)) (configureEvents_withinUsed _)).append hw).append
      (resetEvents_withinUsed _)).append (.of_no_write (by simp [farewellEvents]))

/-- A Run that completes is the run of `runBody`. -/
theorem exec_run_next (low : BitVec 5) (e : Byte) (s t : State) (h : exec (.run low e) s = .next t) :
    t = runBody Config.params Config.env e s := by
  rw [exec_run] at h
  rcases runIn_cases Config.params Config.env e s with ⟨-, k⟩ | ⟨-, -, k⟩ | ⟨-, -, -, k⟩ <;>
    rw [k] at h <;> cases h
  rfl

/-- Settles O26, by the events of the run's start, its repetitions and its end. -/
theorem logicRunLeavesUnusedPinsAlone : Obligations.LogicRunLeavesUnusedPinsAlone := by
  unfold Obligations.LogicRunLeavesUnusedPinsAlone
  intro low e s t hs h
  refine ⟨?_, fun E b => sample_within_used E b s⟩
  rw [exec_run_next low e s t h]
  exact runBody_withinUsed Config.params Config.env e s hs

end Sys2Proof.Machine
end

section
/-! PROOFS. The encoding's family (spec/30_encoding.md): one reply byte for every command that completes
(R98). -/

namespace Sys2Proof.Machine

/-- An engine's verdict is replied as Pass or Fail, never as Ok or Err (spec/44_commands.md R234). -/
theorem verdictResult_pass_or_fail (v : Verdict) : verdictResult v = .pass ∨ verdictResult v = .fail := by
  cases v
  case pass => exact .inl rfl
  case fail => exact .inr rfl

/-- The engines send nothing: all that a run sends is the byte of its last verdict. -/
theorem runBody_tx (P : Params) (E : Env) (e : Byte) (s : State) :
    (runBody P E e s).tx = s.tx ++ [resultByte P (verdictResult (runEnd P E e s).result)] := by
  rw [runBody_update]

/-- Settles O18, by the four ways in which a command completes. -/
theorem everyCommandSendsOneReply : Obligations.EveryCommandSendsOneReply := by
  unfold Obligations.EveryCommandSendsOneReply
  intro i s t h
  rcases exec_next s i t h with
    ⟨low, banks, rfl, rfl⟩ | ⟨low, ty, hi, lo, vectors, type, rfl, -, -, rfl⟩ |
    ⟨low, e, rfl, -, -, -, rfl⟩ | ⟨⟨low, hbad⟩, rfl⟩
  case inl => exact ⟨.ok, rfl, rfl⟩
  case inr.inl => exact ⟨.ok, rfl, rfl⟩
  case inr.inr.inl => exact ⟨_, runBody_tx Config.params Config.env e s, verdictResult_pass_or_fail _⟩
  case inr.inr.inr =>
    refine ⟨.err, rfl, ?_⟩
    rcases hbad with rfl | rfl | rfl | rfl | rfl <;> rfl

end Sys2Proof.Machine
end

section
/-! PROOFS. The pin bank driver's family (spec/40_pin_bank_driver.md): what `drive` writes (R123), what
`sample` returns (R125), and the driven pins (R130). -/

namespace Sys2Proof.Machine

/-- Settles O21: `drive` is one port write, of `driveByte` of the bank's masks. -/
theorem driveWritesTheMaskedByte : Obligations.DriveWritesTheMaskedByte := by
  unfold Obligations.DriveWritesTheMaskedByte
  intro b v s
  show portWrite b (driveByte (s.pb.get b) v) s = _
  rfl

/-- Settles O22: `sample` is one port read, whose byte it masks and whose state it keeps. -/
theorem sampleMasksTheInput : Obligations.SampleMasksTheInput := by
  unfold Obligations.SampleMasksTheInput
  intro E b s
  refine ⟨rfl, ?_⟩
  show afterRead E b s = _
  rfl

/-- The direction register `configure` leaves in a bank, whichever bank it is (R121). -/
theorem configure_ddr_get (b : Bank) (s : State) :
    (configure s).ddr.get b = directionByte (s.pb.get b) := by
  rw [configure_eq]
  cases b <;> rfl

theorem drive_history (b : Bank) (v : Byte) (s : State) :
    (drive b v s).history = s.history ++ [.wr b (driveByte (s.pb.get b) v)] := portWrite_history s b _

theorem resetPins_history (s : State) : (resetPins s).history = s.history ++ resetEvents := by
  rw [resetPins_eq]

/-- Settles O25: `configure` and `drive` mask with `used`, and `reset()` writes zeros. -/
theorem drivenPinsAreUsedAndDirection : Obligations.DrivenPinsAreUsedAndDirection := by
  unfold Obligations.DrivenPinsAreUsedAndDirection
  intro s b
  refine ⟨configure_ddr_get b s, fun v => ?_, ?_⟩
  · exact ⟨_, drive_history b v s, driveByte_within_used _ v⟩
  · exact ⟨resetEvents, resetPins_history s, fun w hw => resetEvents_withinUsed s.pb b w (.inr hw)⟩

end Sys2Proof.Machine
end

section
/-! PROOFS. The vector sequencer's family (spec/41_vector_sequencer.md): `get` (R143), the repetition loop
over a mock engine (R148), and the order in which a logic run applies the vectors (R144, with R161 and R165
of spec/42_generic_logic_comparator.md). -/

namespace Sys2Proof.Machine

/-- Settles O27: `vecAddress p b` is `3 * p` and the bank's number. -/
theorem getReadsThreeBytesOfTheStore : Obligations.GetReadsThreeBytesOfTheStore := by
  unfold Obligations.GetReadsThreeBytesOfTheStore
  intro s p
  show PerBank.mk (s.vs.read (vecAddress p .b0)) (s.vs.read (vecAddress p .b1))
    (s.vs.read (vecAddress p .b2)) = _
  rfl

/-! ## The repetition loop (R145, R146) -/

/-- A passing execution is followed by the next one, with one repetition less to run. -/
theorem repeatLoop_succ_of_pass {engine : State → State × Verdict} (n : Nat) (s : State)
    (h : (engine s).2 = .pass) :
    repeatLoop engine (n + 1) s =
      repeatLoop engine n (setRep ((engine s).1.rep - 1) (setResult .pass (engine s).1)) := by
  simp [repeatLoop, h]

/-- A failing execution is the last. -/
theorem repeatLoop_succ_of_fail {engine : State → State × Verdict} (n : Nat) (s : State)
    (h : (engine s).2 = .fail) :
    repeatLoop engine (n + 1) s = (setResult .fail (engine s).1, .fail) := by
  simp [repeatLoop, h]

@[simp] theorem mockEngine_fst (base : Nat) (verdicts : Nat → Verdict) (s : State) :
    (mockEngine base verdicts s).1 = delay .settle s := rfl

@[simp] theorem mockEngine_snd (base : Nat) (verdicts : Nat → Verdict) (s : State) :
    (mockEngine base verdicts s).2 = verdicts (s.history.length - base) := rfl

/-- The first `k` executions of a mock engine, when all of them pass, with `i` executions before them. -/
theorem repeatLoop_mock_passes (base : Nat) (verdicts : Nat → Verdict) (k n i : Nat) (s : State)
    (hi : s.history.length = base + i) (hk : ∀ j, j < k → verdicts (i + j) = .pass) :
    ∃ t : State,
      repeatLoop (mockEngine base verdicts) (k + n) s = repeatLoop (mockEngine base verdicts) n t ∧
      t.rep = s.rep - BitVec.ofNat 16 k ∧
      t.history = s.history ++ List.replicate k (.dly .settle) := by
  induction k generalizing i s with
  | zero => exact ⟨s, by simp, by simp, by simp⟩
  | succ k ih =>
    have hpass : (mockEngine base verdicts s).2 = .pass := by
      simpa [hi] using hk 0 (Nat.succ_pos k)
    obtain ⟨t, hloop, hrep, hhist⟩ :=
      ih (i + 1) (setRep (s.rep - 1) (setResult .pass (delay .settle s)))
        (by simp [hi, Nat.add_assoc])
        (fun j hj => by simpa [Nat.add_assoc, Nat.add_comm 1] using hk (j + 1) (Nat.succ_lt_succ hj))
    refine ⟨t, ?_, ?_, ?_⟩
    · rw [Nat.add_right_comm, repeatLoop_succ_of_pass _ _ hpass]
      exact hloop
    · rw [hrep, setRep_rep, BitVec.ofNat_add]
      bv_omega
    · simp [hhist, List.replicate_succ]

/-- `rep` after `k` of `2^e` repetitions: the counter does not wrap. -/
theorem repetitions_sub {e : Byte} {k : Nat} (he : e.toNat ≤ 15) (hk : k ≤ 2 ^ e.toNat) :
    BitVec.ofNat 16 (repetitions e) - BitVec.ofNat 16 k = BitVec.ofNat 16 (2 ^ e.toNat - k) :=
  have hpow : 2 ^ e.toNat ≤ 2 ^ 15 := Nat.pow_le_pow_right (by decide) he
  BitVec.ofNat_sub_ofNat_of_le _ _ (by omega) hk

/-- Settles O29: the passing executions before the first Fail come first; then the repetitions are used up,
or one execution fails and is the last. -/
theorem repetitionStopsAtTheFirstFail : Obligations.RepetitionStopsAtTheFirstFail := by
  unfold Obligations.RepetitionStopsAtTheFirstFail
  intro verdicts e s he r
  have hresult : r.1.result = r.2 := repeatEngine_result _ e s
  constructor
  · intro hall
    obtain ⟨t, hloop, hrep, hhist⟩ :=
      repeatLoop_mock_passes s.history.length verdicts (2 ^ e.toNat) 0 0
        (setRep (BitVec.ofNat 16 (repetitions e)) s) rfl (by simpa using hall)
    have hr : r = (t, .pass) := hloop
    rw [hr] at hresult ⊢
    refine ⟨rfl, hresult, ?_, hhist⟩
    rw [hrep, setRep_rep, repetitions, BitVec.sub_self]
  · intro k hk hbefore hfail
    obtain ⟨n, hn⟩ : ∃ n, 2 ^ e.toNat = k + (n + 1) := Nat.exists_eq_add_of_lt hk
    obtain ⟨t, hloop, hrep, hhist⟩ :=
      repeatLoop_mock_passes s.history.length verdicts k (n + 1) 0
        (setRep (BitVec.ofNat 16 (repetitions e)) s) rfl (by simpa using hbefore)
    have hlast : (mockEngine s.history.length verdicts t).2 = .fail := by simp [hhist, hfail]
    have hr : r = (setResult .fail (delay .settle t), .fail) := by
      rw [repeatLoop_succ_of_fail n t hlast, ← hn] at hloop
      exact hloop
    rw [hr] at hresult ⊢
    refine ⟨rfl, hresult, ?_, ?_⟩
    · exact hrep.trans (repetitions_sub he hk.le)
    · simp [hhist, List.replicate_succ']

/-! ## One vector (R161, R162, R165) -/

/-- The shape of an attempt that ends at its first failure: all but the last succeed, the last fails. -/
def FailsAtLast {α : Type} (Good Bad : α → Prop) (xs : List α) : Prop :=
  (∀ x ∈ xs.dropLast, Good x) ∧ ∃ x ∈ xs.getLast?, Bad x

theorem FailsAtLast.singleton {α : Type} {Good Bad : α → Prop} {x : α} (hx : Bad x) :
    FailsAtLast Good Bad [x] := ⟨by simp, x, rfl, hx⟩

theorem FailsAtLast.cons {α : Type} {Good Bad : α → Prop} {x : α} {xs : List α} (hx : Good x)
    (h : FailsAtLast Good Bad xs) : FailsAtLast Good Bad (x :: xs) := by
  obtain ⟨hgood, y, hy, hbad⟩ := h
  cases xs with
  | nil => simp at hy
  | cons z zs =>
    refine ⟨?_, y, by simpa using hy, hbad⟩
    rw [List.dropLast_cons_cons]
    exact List.forall_mem_cons.mpr ⟨hx, hgood⟩

/-- The comparison `compareBanks_cons` makes is `Agrees` (R164, R165). -/
theorem agrees_iff (pb : PerBank PinBank) (v : Vec) (b : Bank) (x : Byte) :
    Agrees pb v (b, x) ↔
      x &&& ~~~(pb.get b).direction &&& (pb.get b).used =
        (v.get b) &&& ~~~(pb.get b).direction &&& (pb.get b).used := by
  simp only [Agrees, sampleMask, BitVec.and_assoc]

/-- The bytes `xs` a comparison of the banks `bs` reads: one for each bank in turn, all in agreement if it
passes, the last one the first that disagrees if it fails. -/
structure ComparesBanks (s : State) (v : Vec) (bs : List Bank) (r : State × Verdict)
    (xs : List Byte) : Prop where
  length_le : xs.length ≤ bs.length
  events : r.1.history = s.history ++ List.zipWith Event.rd bs xs
  pass : r.2 = .pass → xs.length = bs.length ∧ ∀ bx ∈ List.zip bs xs, Agrees s.pb v bx
  fail : r.2 = .fail → FailsAtLast (Agrees s.pb v) (fun bx => ¬ Agrees s.pb v bx) (List.zip bs xs)

theorem compareBanks_spec (E : Env) (v : Vec) (bs : List Bank) (s : State) :
    ∃ xs, ComparesBanks s v bs (compareBanks E v bs s) xs := by
  induction bs generalizing s with
  | nil => exact ⟨[], by simp, by simp [compareBanks], by simp, by simp [compareBanks]⟩
  | cons b bs ih =>
    rw [compareBanks_cons]
    split_ifs with hmasked
    case pos =>
      have hb : Agrees s.pb v (b, portInput E b s) := (agrees_iff _ _ _ _).mpr hmasked
      obtain ⟨xs, hrest⟩ := ih (afterRead E b s)
      refine ⟨portInput E b s :: xs, by simpa using hrest.length_le, by simp [hrest.events], ?_, ?_⟩
      · intro hpass
        obtain ⟨hlen, hagree⟩ := hrest.pass hpass
        exact ⟨by simp [hlen], List.forall_mem_cons.mpr ⟨hb, hagree⟩⟩
      · exact fun hfail => .cons hb (hrest.fail hfail)
    case neg =>
      have hb : ¬ Agrees s.pb v (b, portInput E b s) := mt (agrees_iff _ _ _ _).mp hmasked
      refine ⟨[portInput E b s], by simp, by simp, by simp, fun _ => ?_⟩
      rw [List.zip_cons_cons, List.zip_nil_right]
      exact .singleton hb

/-- The events of vector `p` when the bytes read for it are `xs`, with `xp = (xs, p)`. -/
def eventsAt (s : State) (xp : List Byte × Nat) : List Event :=
  vectorEvents s.pb (getVector s xp.2) xp.1

/-- Vector `p` passes on the bytes `xs`, with `xp = (xs, p)`. -/
def PassesAt (s : State) (xp : List Byte × Nat) : Prop :=
  VectorPasses s.pb (samples s.tsType (BitVec.ofNat 11 xp.2)) (getVector s xp.2) xp.1

/-- Vector `p` fails on the bytes `xs`, with `xp = (xs, p)`. -/
def FailsAt (s : State) (xp : List Byte × Nat) : Prop :=
  VectorFails s.pb (samples s.tsType (BitVec.ofNat 11 xp.2)) (getVector s xp.2) xp.1

/-- The bytes `xs` that applying vector `p` reads. -/
structure AppliesVector (s : State) (p : Nat) (r : State × Verdict) (xs : List Byte) : Prop where
  events : r.1.history = s.history ++ eventsAt s (xs, p)
  pass : r.2 = .pass → PassesAt s (xs, p)
  fail : r.2 = .fail → FailsAt s (xs, p)

theorem applyVector_spec (E : Env) (p : Nat) (s : State) (hp : p < 2048)
    (hpos : s.pos = BitVec.ofNat 11 p) : ∃ xs, AppliesVector s p (applyVector E s) xs := by
  have hnat : s.pos.toNat = p := by rw [hpos, BitVec.toNat_ofNat, Nat.mod_eq_of_lt hp]
  simp only [applyVector, hnat]
  by_cases hc : samples s.tsType s.pos = true
  case pos =>
    rw [if_pos hc]
    rw [hpos] at hc
    obtain ⟨xs, hreads⟩ :=
      compareBanks_spec E (getVector s p) [.b0, .b1, .b2] (driveVector (getVector s p) s)
    rw [driveVector_eq] at hreads ⊢
    refine ⟨xs, ?_, fun hpass => ?_, fun hfail => ?_⟩
    · rw [hreads.events, List.append_assoc]
      rfl
    · obtain ⟨hlen, hagree⟩ := hreads.pass hpass
      exact ⟨by simp [hc, hlen], hagree⟩
    · obtain ⟨hagree, hlast⟩ := hreads.fail hfail
      exact ⟨hc, hreads.length_le, hagree, hlast⟩
  case neg =>
    rw [if_neg hc, driveVector_eq]
    rw [hpos] at hc
    exact ⟨[], by simp [eventsAt, vectorEvents], fun _ => ⟨by simp [hc], by simp⟩, by simp⟩

/-! ## The vectors in order (R144, R161) -/

/-- What is said of a vector depends on the configuration and the session alone. -/
theorem vectorAt_congr {s t : State} (hpb : t.pb = s.pb) (hty : t.tsType = s.tsType)
    (hvs : t.vs = s.vs) :
    eventsAt t = eventsAt s ∧ PassesAt t = PassesAt s ∧ FailsAt t = FailsAt s := by
  refine ⟨funext fun xp => ?_, funext fun xp => ?_, funext fun xp => ?_⟩
  · simp only [eventsAt, hpb, getVector_congr hvs]
  · simp only [PassesAt, hpb, hty, getVector_congr hvs]
  · simp only [FailsAt, hpb, hty, getVector_congr hvs]

/-- The bytes `xss` that applying vectors `p`, `p + 1`, ... reads, vector by vector, with `n` vectors to
apply: all pass, or the last one applied is the first that fails. -/
structure AppliesVectors (s : State) (p n : Nat) (r : State × Verdict)
    (xss : List (List Byte)) : Prop where
  length_le : xss.length ≤ n
  events : r.1.history = s.history ++ (xss.zipIdx p).flatMap (eventsAt s)
  pass : r.2 = .pass → xss.length = n ∧ ∀ xp ∈ xss.zipIdx p, PassesAt s xp
  fail : r.2 = .fail → FailsAtLast (PassesAt s) (FailsAt s) (xss.zipIdx p)

theorem AppliesVectors.nil (s : State) (p : Nat) : AppliesVectors s p 0 (s, .pass) [] :=
  ⟨Nat.le_refl 0, by simp, by simp, by simp⟩

/-- A failing vector is the last. -/
theorem AppliesVectors.singleton {s : State} {p n : Nat} {r : State × Verdict} {xs : List Byte}
    (h : AppliesVector s p r xs) (hfail : r.2 = .fail) : AppliesVectors s p (n + 1) r [xs] :=
  ⟨by simp, by simpa using h.events, by simp [hfail], fun hf => .singleton (h.fail hf)⟩

/-- A passing vector, then the vectors after it. -/
theorem AppliesVectors.cons {s t : State} {p n : Nat} {r : State × Verdict} {xs : List Byte}
    {xss : List (List Byte)} (hpb : t.pb = s.pb) (hty : t.tsType = s.tsType) (hvs : t.vs = s.vs)
    (hevents : t.history = s.history ++ eventsAt s (xs, p)) (hpasses : PassesAt s (xs, p))
    (h : AppliesVectors t (p + 1) n r xss) : AppliesVectors s p (n + 1) r (xs :: xss) := by
  obtain ⟨hlen, hrest, hpass, hfail⟩ := h
  obtain ⟨hE, hP, hF⟩ := vectorAt_congr hpb hty hvs
  rw [hE, hevents] at hrest
  rw [hP] at hpass hfail
  rw [hF] at hfail
  refine ⟨Nat.succ_le_succ hlen, by simpa using hrest, fun hr => ?_, fun hr => .cons hpasses (hfail hr)⟩
  obtain ⟨hall, hgood⟩ := hpass hr
  exact ⟨congrArg Nat.succ hall, List.forall_mem_cons.mpr ⟨hpasses, hgood⟩⟩

theorem applyVector_pos (E : Env) (s : State) : (applyVector E s).1.pos = s.pos := by
  rw [(applyVector_readOnly E s).pos, driveVector_eq]

theorem logicLoop_succ_of_pass {E : Env} {s : State} (n : Nat) (h : (applyVector E s).2 = .pass) :
    logicLoop E (n + 1) s = logicLoop E n (setPos (s.pos + 1) (applyVector E s).1) := by
  simp [logicLoop, h, applyVector_pos]

theorem logicLoop_succ_of_fail {E : Env} {s : State} (n : Nat) (h : (applyVector E s).2 = .fail) :
    logicLoop E (n + 1) s = applyVector E s := by
  simp [logicLoop, h, Prod.ext_iff]

/-- The loop from vector `p` on, as long as `pos` does not wrap. -/
theorem logicLoop_spec (E : Env) (n p : Nat) (s : State) (hn : p + n < 2048)
    (hpos : s.pos = BitVec.ofNat 11 p) : ∃ xss, AppliesVectors s p n (logicLoop E n s) xss := by
  induction n generalizing p s with
  | zero => exact ⟨[], .nil s p⟩
  | succ n ih =>
    obtain ⟨xs, happly⟩ := applyVector_spec E p s (by omega) hpos
    cases hv : (applyVector E s).2 with
    | fail =>
      rw [logicLoop_succ_of_fail n hv]
      exact ⟨[xs], .singleton happly hv⟩
    | pass =>
      rw [logicLoop_succ_of_pass n hv]
      have hframe := applyVector_closed (logic_effect E) s
      obtain ⟨xss, hrest⟩ := ih (p + 1) (setPos (s.pos + 1) (applyVector E s).1) (by omega)
        (by rw [setPos_pos, hpos, BitVec.ofNat_add]; rfl)
      exact ⟨xs :: xss, .cons (t := setPos (s.pos + 1) (applyVector E s).1) hframe.pb hframe.tsType
        hframe.vs happly.events (happly.pass hv) hrest⟩

/-- Settles O47: `runLogic` is the loop from vector 0 on, and 11 bits of `TS.length` keep `pos` from
wrapping. -/
theorem logicRunAppliesTheVectorsInOrder : Obligations.LogicRunAppliesTheVectorsInOrder := by
  unfold Obligations.LogicRunAppliesTheVectorsInOrder
  intro E s r checked
  obtain ⟨xss, hlen, hevents, hpass, hfail⟩ :=
    logicLoop_spec E s.tsLength.toNat 0 (setPos 0 s) (by simpa using s.tsLength.isLt) rfl
  exact ⟨xss, hlen, hevents, hpass, hfail⟩

end Sys2Proof.Machine
end

section
/-! PROOFS. The generic logic comparator's family (spec/42_generic_logic_comparator.md): which vectors are
checked (R163), the order of the events within one vector (R162), and the loopback round trip (R170). -/

namespace Sys2Proof.Machine

/-- `pos[0]` is the parity of `pos` (R163). -/
theorem samples_sequential (pos : BitVec 11) :
    samples .sequential pos = decide (pos.toNat % 2 = 1) := Nat.testBit_zero pos.toNat

/-- Settles O30: one clause for each type of session. -/
theorem samplingPolicyByTypeAndParity : Obligations.SamplingPolicyByTypeAndParity := by
  unfold Obligations.SamplingPolicyByTypeAndParity
  exact fun pos => ⟨rfl, samples_sequential pos, rfl⟩

/-! ## The events of one vector (R162) -/

/-- Settles O31, by the bytes the vector reads: on a Fail their number is that of the first bank that
disagrees. -/
theorem vectorEventsInOrder : Obligations.VectorEventsInOrder := by
  unfold Obligations.VectorEventsInOrder
  intro E s r v
  have hpos : BitVec.ofNat 11 s.pos.toNat = s.pos := BitVec.ofNat_toNat _ _
  obtain ⟨xs, hevents, hpass, hfail⟩ := applyVector_spec E s.pos.toNat s s.pos.isLt hpos.symm
  simp only [PassesAt, FailsAt, VectorPasses, VectorFails, hpos] at hpass hfail
  simp only [eventsAt, vectorEvents, ← List.append_assoc] at hevents
  refine ⟨fun hc => ?_, fun hc => ?_⟩
  · have hr : r.2 = .pass := by
      cases hr : r.2 with
      | pass => rfl
      | fail => exact absurd (hfail hr).1 (by simp [hc])
    obtain ⟨hlen, -⟩ := hpass hr
    obtain rfl : xs = [] := by simpa [hc] using hlen
    exact ⟨hr, by simpa using hevents⟩
  · simp only [← agrees_iff s.pb v]
    cases hr : r.2 with
    | pass =>
      obtain ⟨hlen, hagree⟩ := hpass hr
      obtain ⟨x0, x1, x2, rfl⟩ := List.length_eq_three.mp (by simpa [hc] using hlen)
      obtain ⟨h0, h1, h2⟩ :
          Agrees s.pb v (.b0, x0) ∧ Agrees s.pb v (.b1, x1) ∧ Agrees s.pb v (.b2, x2) := by
        simpa using hagree
      exact ⟨x0, x1, x2, .inr (.inr (.inr ⟨h0, h1, h2, rfl, hevents⟩))⟩
    | fail =>
      obtain ⟨-, hlen, hagree, hlast⟩ := hfail hr
      match xs with
      | [] => simp at hlast
      | [x0] => exact ⟨x0, 0, 0, .inl ⟨by simpa using hlast, rfl, hevents⟩⟩
      | [x0, x1] =>
        exact ⟨x0, x1, 0, .inr (.inl ⟨by simpa using hagree, by simpa using hlast, rfl, hevents⟩)⟩
      | [x0, x1, x2] =>
        obtain ⟨h0, h1⟩ : Agrees s.pb v (.b0, x0) ∧ Agrees s.pb v (.b1, x1) := by simpa using hagree
        exact ⟨x0, x1, x2, .inr (.inr (.inl ⟨h0, h1, by simpa using hlast, rfl, hevents⟩))⟩
      | _ :: _ :: _ :: _ :: _ =>
        simp only [List.length_cons] at hlen
        omega

/-! ## Bits at a pin -/

/-- A driven pin shows the vector's bit (R123). -/
theorem driveByte_getLsbD_of_driven {c : PinBank} {j : Nat}
    (h : (c.used &&& c.direction).getLsbD j = true) (v : Byte) :
    (driveByte c v).getLsbD j = v.getLsbD j := by
  obtain ⟨hu, hd⟩ : c.used.getLsbD j = true ∧ c.direction.getLsbD j = true := by simpa using h
  simp [driveByte, hu, hd]

/-- A sampled pin is not driven. -/
theorem driven_getLsbD_of_sampled {c : PinBank} {i : Nat} (h : (sampleMask c).getLsbD i = true) :
    (c.used &&& c.direction).getLsbD i = false := by
  obtain ⟨⟨-, hd⟩, -⟩ : (i < 8 ∧ c.direction.getLsbD i = false) ∧ c.used.getLsbD i = true := by
    simpa [sampleMask] using h
  simp [hd]

/-- A pin the tester does not drive and the DUT does reads the DUT's level (R27). -/
theorem inputByte_getLsbD_of_dut {ddr : Byte} {dut : PinDrive} {i : Nat} (out draw : Byte) (hi : i < 8)
    (hddr : ddr.getLsbD i = false) (hdut : dut.drives.getLsbD i = true) :
    (inputByte ddr out dut draw).getLsbD i = dut.level.getLsbD i := by
  simp only [inputByte, BitVec.getLsbD_or, BitVec.getLsbD_and, BitVec.getLsbD_not, hddr, hdut, hi]
  simp

/-- Bytes are equal under a mask exactly when they are equal at each bit of it. -/
theorem and_mask_eq_iff (x y m : Byte) :
    x &&& m = y &&& m ↔ ∀ i, i < 8 → m.getLsbD i = true → x.getLsbD i = y.getLsbD i := by
  rw [BitVec.eq_of_getLsbD_eq_iff]
  refine forall₂_congr fun i _ => ?_
  rw [BitVec.getLsbD_and, BitVec.getLsbD_and]
  cases m.getLsbD i <;> simp

/-! ## The loopback round trip (R170) -/

/-- The vector's bit at each sampled pin of bank `b` equals its bit at the pin it is wired to. -/
def BankLoops (w : Wiring) (pb : PerBank PinBank) (v : Vec) (b : Bank) : Prop :=
  ∀ i, i < 8 → (sampleMask (pb.get b)).getLsbD i = true →
    (v.get b).getLsbD i = (v.get (w b i).1).getLsbD (w b i).2

/-- Vector `p`, if it is checked, loops at every bank. -/
def VectorLoops (w : Wiring) (pb : PerBank PinBank) (s : State) (p : Nat) : Prop :=
  samples s.tsType (BitVec.ofNat 11 p) = true → ∀ b, BankLoops w pb (getVector s p) b

/-- Every sampled pin is wired to a driven pin. -/
def MirrorsDriven (w : Wiring) (pb : PerBank PinBank) : Prop :=
  ∀ b i, i < 8 → (sampleMask (pb.get b)).getLsbD i = true →
    ((pb.get (w b i).1).used &&& (pb.get (w b i).1).direction).getLsbD (w b i).2 = true

/-- A state in which the environment answers every read: the pins are configured by `pb` and no answer is
scripted. -/
structure Unscripted (pb : PerBank PinBank) (s : State) : Prop where
  config : s.pb = pb
  ddr : ∀ b, s.ddr.get b = (pb.get b).used &&& (pb.get b).direction
  pinScript : s.pinScript = []

/-- The output levels the environment has seen are those of driving vector `v`. -/
def SeenDriven (pb : PerBank PinBank) (v : Vec) (s : State) : Prop :=
  ∀ b, (pinsOf (observed s)).out.get b = driveByte (pb.get b) (v.get b)

theorem vectorLoops_congr {s t : State} (w : Wiring) (pb : PerBank PinBank) (hty : t.tsType = s.tsType)
    (hvs : t.vs = s.vs) : VectorLoops w pb t = VectorLoops w pb s := by
  funext p
  simp only [VectorLoops, hty, getVector_congr hvs]

theorem ReadOnly.unscripted {s t : State} {pb : PerBank PinBank} (h : ReadOnly s t)
    (hs : Unscripted pb s) : Unscripted pb t :=
  ⟨h.pb.trans hs.config, by rw [h.ddr]; exact hs.ddr, h.pinScript hs.pinScript⟩

theorem driveVector_unscripted {s : State} {pb : PerBank PinBank} (v : Vec) (hs : Unscripted pb s) :
    Unscripted pb (driveVector v s) := by
  rw [driveVector_eq]
  exact ⟨hs.config, hs.ddr, hs.pinScript⟩

theorem setPos_unscripted {s : State} {pb : PerBank PinBank} (p : BitVec 11) (hs : Unscripted pb s) :
    Unscripted pb (setPos p s) := ⟨hs.config, hs.ddr, hs.pinScript⟩

theorem afterRead_seenDriven {pb : PerBank PinBank} {v : Vec} {s : State} (E : Env) (b : Bank)
    (h : SeenDriven pb v s) : SeenDriven pb v (afterRead E b s) := by
  have hpins : pinsOf (observed (afterRead E b s)) = pinsOf (observed s) := by
    rw [observed, afterRead_history, ← List.append_assoc, pinsOf, Pins.afterAll_append]
    rfl
  rwa [SeenDriven, hpins]

/-- Driving a vector writes every output register, whatever was seen before. -/
theorem driveVector_seenDriven {s : State} {pb : PerBank PinBank} (v : Vec) (hs : Unscripted pb s) :
    SeenDriven pb v (driveVector v s) := by
  intro b
  rw [driveVector_eq, observed, ← List.append_assoc, pinsOf, Pins.afterAll_append, hs.config]
  cases b <;> rfl

section Loopback

variable {w : Wiring} {E : Env} {pb : PerBank PinBank} (hw : WiredAs w E) (hm : MirrorsDriven w pb)
include hw hm

/-- A sampled pin reads the vector's bit at the driven pin it mirrors. -/
theorem portInput_getLsbD_of_loopback {v : Vec} {s : State} (hs : Unscripted pb s)
    (hv : SeenDriven pb v s) {b : Bank} {i : Nat} (hi : i < 8)
    (hsampled : (sampleMask (pb.get b)).getLsbD i = true) :
    (portInput E b s).getLsbD i = (v.get (w b i).1).getLsbD (w b i).2 := by
  obtain ⟨hdrives, hlevel⟩ := hw (observed s) b i hi
  have hdut : dutAnswer E b s = E.dut (observed s) b := by rw [dutAnswer, hs.pinScript]
  have hddr : (s.ddr.get b).getLsbD i = false := by
    rw [hs.ddr b, driven_getLsbD_of_sampled hsampled]
  calc (portInput E b s).getLsbD i
      = (E.dut (observed s) b).level.getLsbD i := by
        rw [portInput, hdut, inputByte_getLsbD_of_dut _ _ hi hddr hdrives]
    _ = (driveByte (pb.get (w b i).1) (v.get (w b i).1)).getLsbD (w b i).2 := by rw [hlevel, hv]
    _ = (v.get (w b i).1).getLsbD (w b i).2 := driveByte_getLsbD_of_driven (hm b i hi hsampled) _

theorem agrees_portInput_iff {v : Vec} {s : State} (hs : Unscripted pb s) (hv : SeenDriven pb v s)
    (b : Bank) : Agrees s.pb v (b, portInput E b s) ↔ BankLoops w pb v b := by
  rw [hs.config, Agrees, and_mask_eq_iff]
  refine forall₃_congr fun i hi hsampled => ?_
  rw [portInput_getLsbD_of_loopback hw hm hs hv hi hsampled]
  exact eq_comm

theorem compareBanks_pass_iff {v : Vec} (bs : List Bank) {s : State} (hs : Unscripted pb s)
    (hv : SeenDriven pb v s) :
    (compareBanks E v bs s).2 = .pass ↔ ∀ b ∈ bs, BankLoops w pb v b := by
  induction bs generalizing s with
  | nil => simp [compareBanks]
  | cons b bs ih =>
    have hloops := (agrees_iff s.pb v b _).symm.trans (agrees_portInput_iff hw hm hs hv b)
    rw [compareBanks_cons, List.forall_mem_cons, ← hloops]
    split_ifs with hb
    · rw [ih ((afterRead_readOnly E b s).unscripted hs) (afterRead_seenDriven E b hv)]
      exact (and_iff_right hb).symm
    · simp [hb]

theorem applyVector_pass_iff {s : State} (hs : Unscripted pb s) {p : Nat} (hp : p < 2048)
    (hpos : s.pos = BitVec.ofNat 11 p) : (applyVector E s).2 = .pass ↔ VectorLoops w pb s p := by
  have hnat : s.pos.toNat = p := by rw [hpos, BitVec.toNat_ofNat, Nat.mod_eq_of_lt hp]
  simp only [applyVector, hnat, VectorLoops, ← hpos]
  split_ifs with hc
  · rw [compareBanks_pass_iff hw hm _ (driveVector_unscripted _ hs) (driveVector_seenDriven _ hs)]
    constructor
    · exact fun h _ b => h b (by cases b <;> simp)
    · exact fun h b _ => h hc b
  · simp [hc]

/-- The loop from vector `p` on, as long as `pos` does not wrap. -/
theorem logicLoop_pass_iff (n p : Nat) {s : State} (hs : Unscripted pb s) (hn : p + n < 2048)
    (hpos : s.pos = BitVec.ofNat 11 p) :
    (logicLoop E n s).2 = .pass ↔ ∀ k, k < n → VectorLoops w pb s (p + k) := by
  induction n generalizing p s with
  | zero => simp [logicLoop]
  | succ n ih =>
    have hfirst := applyVector_pass_iff hw hm hs (show p < 2048 by omega) hpos
    rw [Nat.forall_lt_succ_left', Nat.add_zero p, ← hfirst]
    cases hv : (applyVector E s).2 with
    | fail => simp [logicLoop_succ_of_fail n hv, hv]
    | pass =>
      have hframe := applyVector_closed (logic_effect E) s
      have hnext : Unscripted pb (applyVector E s).1 :=
        (applyVector_readOnly E s).unscripted (driveVector_unscripted _ hs)
      rw [logicLoop_succ_of_pass n hv, ih (p + 1) (setPos_unscripted _ hnext) (by omega)
        (by rw [setPos_pos, hpos, BitVec.ofNat_add]; rfl),
        vectorLoops_congr (t := setPos (s.pos + 1) (applyVector E s).1) w pb hframe.tsType hframe.vs]
      simp [Nat.add_assoc, Nat.add_comm 1]

end Loopback

/-- Which vectors of a logic session are checked (R163). -/
theorem samples_ofNat_iff {ty : SessionType} (hty : ty ≠ .memory) {p : Nat} (hp : p < 2048) :
    samples ty (BitVec.ofNat 11 p) = true ↔ ty = .combinational ∨ p % 2 = 1 := by
  cases ty with
  | combinational => simp [samples]
  | sequential => rw [samples_sequential, BitVec.toNat_ofNat, Nat.mod_eq_of_lt hp]; simp
  | memory => exact absurd rfl hty

/-- Settles O33: the bits read at a sampled pin are those of the vector at the pin it mirrors, whatever was
driven before, so a checked vector passes exactly when it loops. -/
theorem loopbackRoundTrip : Obligations.LoopbackRoundTrip := by
  unfold Obligations.LoopbackRoundTrip
  intro w E s hw hscript hty hddr hm
  have hlen : s.tsLength.toNat < 2048 := s.tsLength.isLt
  have hs : Unscripted s.pb (setPos 0 s) := ⟨rfl, hddr, hscript⟩
  rw [runLogic, logicLoop_pass_iff hw hm _ 0 hs (by omega) rfl]
  refine forall₂_congr fun p hp => ?_
  rw [Nat.zero_add, VectorLoops, setPos_tsType, samples_ofNat_iff hty (by omega)]
  rfl

end Sys2Proof.Machine
end

section
/-! PROOFS. The DRAM engine's family (spec/43_dram_engine.md): the order of the page tests (R205 to R207,
R210, R211), what the engine reads (R212) and which ports it moves (R182, R184, R191). -/

namespace Sys2Proof.Machine

/-! ## The loops, one turn at a time (R206, R211) -/

section Turns

variable {P : Params} {E : Env} {s : State}

theorem pageReadLoop_succ_of_pass {d : Bool} (n : Nat)
    (h : bitVerdict (readCol P E (colByte s) s).2 d = .pass) :
    pageReadLoop P E d (n + 1) s =
      pageReadLoop P E d n (setCol (s.col + 1) (readCol P E (colByte s) s).1) := by
  simp only [pageReadLoop, h, (readCol_counters P E s _).2.1]

theorem pageReadLoop_succ_of_fail {d : Bool} (n : Nat)
    (h : bitVerdict (readCol P E (colByte s) s).2 d = .fail) :
    pageReadLoop P E d (n + 1) s = ((readCol P E (colByte s) s).1, .fail) := by
  simp only [pageReadLoop, h]

theorem testRow_of_pass (h : (patternPage P E false s).2 = .pass) :
    testRow P E s = patternPage P E true (patternPage P E false s).1 := by
  simp only [testRow, h]

theorem testRow_of_fail (h : (patternPage P E false s).2 = .fail) :
    testRow P E s = patternPage P E false s := by
  simp only [testRow, h]
  exact Prod.ext rfl h.symm

theorem rowLoop_succ_of_pass (n : Nat) (h : (testRow P E s).2 = .pass) :
    rowLoop P E (n + 1) s = rowLoop P E n (setRow ((testRow P E s).1.row + 1) (testRow P E s).1) := by
  simp only [rowLoop, h]

theorem rowLoop_succ_of_fail (n : Nat) (h : (testRow P E s).2 = .fail) :
    rowLoop P E (n + 1) s = testRow P E s := by
  simp only [rowLoop, h]
  exact Prod.ext rfl h.symm

end Turns

/-! ## What the engine reads (R212) -/

/-- `s` with everything that is not the DRAM engine's own from `o`. -/
def withOthers (o s : State) : State :=
  { s with
    pb := o.pb, pbWritten := o.pbWritten, tsType := o.tsType, tsLength := o.tsLength,
    tsWritten := o.tsWritten, vs := o.vs, pos := o.pos, rep := o.rep, result := o.result,
    irqInhibit := o.irqInhibit, rx := o.rx, tx := o.tx, phase := o.phase, cmdBuf := o.cmdBuf }

/-! Each operation of the engine commutes with `withOthers`, in the order in which they build on each
other. -/

section Others

variable (P : Params) (E : Env) (o s : State)

@[simp] theorem withOthers_row : (withOthers o s).row = s.row := rfl
@[simp] theorem withOthers_col : (withOthers o s).col = s.col := rfl
@[simp] theorem colByte_withOthers : colByte (withOthers o s) = colByte s := rfl
@[simp] theorem rowByte_withOthers : rowByte (withOthers o s) = rowByte s := rfl
@[simp] theorem withOthers_pulse : (withOthers o s).pulse = s.pulse := rfl
@[simp] theorem withOthers_mbus : (withOthers o s).mbus = s.mbus := rfl

@[simp] theorem setRow_withOthers (v : BitVec 9) :
    setRow v (withOthers o s) = withOthers o (setRow v s) := rfl
@[simp] theorem setCol_withOthers (v : BitVec 9) :
    setCol v (withOthers o s) = withOthers o (setCol v s) := rfl
@[simp] theorem setPat_withOthers (v : Bool) :
    setPat v (withOthers o s) = withOthers o (setPat v s) := rfl
@[simp] theorem setPulse_withOthers (v : BitVec 4) :
    setPulse v (withOthers o s) = withOthers o (setPulse v s) := rfl
@[simp] theorem setMBus_withOthers (v : MBus) :
    setMBus v (withOthers o s) = withOthers o (setMBus v s) := rfl
@[simp] theorem setDir_withOthers (b : Bank) (v : Byte) :
    setDir b v (withOthers o s) = withOthers o (setDir b v s) := rfl
@[simp] theorem delay_withOthers (n : DelayName) :
    delay n (withOthers o s) = withOthers o (delay n s) := rfl
@[simp] theorem portRead_withOthers (b : Bank) :
    portRead E b (withOthers o s) = ((portRead E b s).1, withOthers o (portRead E b s).2) := rfl
@[simp] theorem writeL_withOthers : writeL P (withOthers o s) = withOthers o (writeL P s) := rfl
@[simp] theorem writeH_withOthers : writeH P (withOthers o s) = withOthers o (writeH P s) := rfl

@[simp] theorem openRow_withOthers (r : Byte) :
    openRow P r (withOthers o s) = withOthers o (openRow P r s) := by
  simp [openRow, setAH, setAL, setRas]

@[simp] theorem closeRow_withOthers : closeRow P (withOthers o s) = withOthers o (closeRow P s) := by
  simp [closeRow, setRas]

@[simp] theorem writeCol_withOthers (c : Byte) (d : Bool) :
    writeCol P c d (withOthers o s) = withOthers o (writeCol P c d s) := by
  simp [writeCol, setAH, setAL, setCas, setWe, setDin]

@[simp] theorem readCol_withOthers (c : Byte) :
    readCol P E c (withOthers o s) = (withOthers o (readCol P E c s).1, (readCol P E c s).2) := by
  simp [readCol, readColOpen, setAH, setAL, setCas]

@[simp] theorem warmupLoop_withOthers (n : Nat) :
    warmupLoop P n (withOthers o s) = withOthers o (warmupLoop P n s) := by
  induction n generalizing s with
  | zero => rfl
  | succ n ih => simp [warmupLoop, warmupPulse, setRas, ih]

@[simp] theorem memSetup_withOthers : memSetup P (withOthers o s) = withOthers o (memSetup P s) := by
  simp [memSetup]

@[simp] theorem pageWriteLoop_withOthers (d : Bool) (n : Nat) :
    pageWriteLoop P d n (withOthers o s) = withOthers o (pageWriteLoop P d n s) := by
  induction n generalizing s with
  | zero => rfl
  | succ n ih => simp [pageWriteLoop, ih]

@[simp] theorem pageReadLoop_withOthers (d : Bool) (n : Nat) :
    pageReadLoop P E d n (withOthers o s) =
      (withOthers o (pageReadLoop P E d n s).1, (pageReadLoop P E d n s).2) := by
  induction n generalizing s with
  | zero => rfl
  | succ n ih =>
    cases hv : bitVerdict (readCol P E (colByte s) s).2 d with
    | pass =>
      rw [pageReadLoop_succ_of_pass n hv, pageReadLoop_succ_of_pass n (by simpa using hv), ← ih]
      simp
    | fail =>
      rw [pageReadLoop_succ_of_fail n hv, pageReadLoop_succ_of_fail n (by simpa using hv)]
      simp

@[simp] theorem patternPage_withOthers (d : Bool) :
    patternPage P E d (withOthers o s) =
      (withOthers o (patternPage P E d s).1, (patternPage P E d s).2) := by
  simp [patternPage, testPage, pageWrite, pageRead]

@[simp] theorem testRow_withOthers :
    testRow P E (withOthers o s) = (withOthers o (testRow P E s).1, (testRow P E s).2) := by
  cases hv : (patternPage P E false s).2 with
  | pass => rw [testRow_of_pass hv, testRow_of_pass (by simpa using hv)]; simp
  | fail => rw [testRow_of_fail hv, testRow_of_fail (by simpa using hv)]; simp

@[simp] theorem rowLoop_withOthers (n : Nat) :
    rowLoop P E n (withOthers o s) = (withOthers o (rowLoop P E n s).1, (rowLoop P E n s).2) := by
  induction n generalizing s with
  | zero => rfl
  | succ n ih =>
    cases hv : (testRow P E s).2 with
    | pass =>
      rw [rowLoop_succ_of_pass n hv, rowLoop_succ_of_pass n (by simpa using hv), ← ih]
      simp
    | fail =>
      rw [rowLoop_succ_of_fail n hv, rowLoop_succ_of_fail n (by simpa using hv)]
      simp

end Others

/-- Settles O42: every operation of the engine commutes with putting everything else from another state. -/
theorem dramEngineReadsOnlyItsOwnRegisters : Obligations.DramEngineReadsOnlyItsOwnRegisters := by
  unfold Obligations.DramEngineReadsOnlyItsOwnRegisters
  intro P E s o
  show dramEngine P E (withOthers o s) = (withOthers o (dramEngine P E s).1, (dramEngine P E s).2)
  simp [dramEngine, runMemory]

/-! ## A page test (R205 to R207) -/

/-- The write phase of a page, from the strobes idle to the strobes idle (R206). -/
theorem pageWrite_spec (P : Params) (r : Byte) (d : Bool) (s : State) (hidle : StrobesIdle s.mbus) :
    (pageWrite P r d s).history = s.history ++ pageWriteEvents P r d s.mbus.din ∧
      StrobesIdle (pageWrite P r d s).mbus ∧ (pageWrite P r d s).mbus.din = d := by
  obtain ⟨hwe, hras, hcas⟩ := hidle
  obtain ⟨hloop, hbus⟩ := pageWriteLoop_spec P d 256 (setCol 0 (openRow P r s)) rfl hcas (by omega)
    (Nat.le_refl 256)
  rw [pageWrite, closeRow_history, closeRow_mbus, hloop, hbus]
  refine ⟨?_, ⟨rfl, rfl, rfl⟩, rfl⟩
  rw [setCol_history, openRow_history, hwe, hras, hcas, pageWriteEvents, columns,
    List.range_eq_range', List.flatMap_map]
  simp only [List.append_assoc]
  rfl

/-- The bytes `xs` that a page's read phase reads: it ends at the first one whose bit is not `d` (R206). -/
structure ReadsPage (P : Params) (d : Bool) (v : Verdict) (xs : List Byte) : Prop where
  length_pos : 0 < xs.length
  length_le : xs.length ≤ 256
  before_last : ∀ x ∈ xs.dropLast, x.getLsbD P.hDout = d
  pass : v = .pass → PagePasses P d xs
  fail : v = .fail → ∃ x ∈ xs.getLast?, x.getLsbD P.hDout ≠ d

/-- The read phase of a page, from the strobes idle and `DIN` at `d` to the same (R206). -/
theorem pageRead_spec (P : Params) (E : Env) (r : Byte) (d : Bool) (s : State)
    (hidle : StrobesIdle s.mbus) (hdin : s.mbus.din = d) :
    ∃ xs, ReadsPage P d (pageRead P E r d s).2 xs ∧
      (pageRead P E r d s).1.history = s.history ++ pageReadEvents P r d xs ∧
      StrobesIdle (pageRead P E r d s).1.mbus ∧ (pageRead P E r d s).1.mbus.din = d := by
  obtain ⟨hwe, hras, hcas⟩ := hidle
  obtain ⟨xs, hpos, hlen, hloop, hbus, hbefore, hpass, hfail⟩ :=
    pageReadLoop_spec P E d 256 (setCol 0 (openRow P r s)) hwe rfl hdin hcas (by omega)
      (Nat.le_refl 256)
  refine ⟨xs, ⟨hpos, hlen, hbefore, fun h => ?_, hfail⟩, ?_⟩
  · obtain ⟨hall, hbits, -⟩ := hpass h
    exact ⟨hall, hbits⟩
  · simp only [pageRead]
    rw [closeRow_history, closeRow_mbus, hloop, hbus]
    refine ⟨?_, ⟨rfl, rfl, rfl⟩, rfl⟩
    rw [setCol_history, openRow_history, hwe, hras, hcas, hdin, pageReadEvents, columns,
      List.range_eq_range', show (setCol 0 (openRow P r s)).col.toNat = 0 from rfl, Nat.zero_add]
    simp only [List.append_assoc]
    rfl

/-- A test of the page `(r, d)` from `s` on, in which the bytes `xs` are read. -/
structure TestsPage (P : Params) (r : Byte) (d : Bool) (s : State) (res : State × Verdict)
    (xs : List Byte) : Prop where
  reads : ReadsPage P d res.2 xs
  events : res.1.history = s.history ++ (pageWriteEvents P r d s.mbus.din ++ pageReadEvents P r d xs)
  strobes : StrobesIdle res.1.mbus
  din : res.1.mbus.din = d

theorem testPage_spec (P : Params) (E : Env) (r : Byte) (d : Bool) (s : State)
    (hidle : StrobesIdle s.mbus) : ∃ xs, TestsPage P r d s (testPage P E r d s) xs := by
  obtain ⟨hwrite, hidle', hdin⟩ := pageWrite_spec P r d s hidle
  obtain ⟨xs, hreads, hread, hstrobes, hdin'⟩ := pageRead_spec P E r d (pageWrite P r d s) hidle' hdin
  exact ⟨xs, hreads, by rw [testPage, hread, hwrite, List.append_assoc], hstrobes, hdin'⟩

/-- Settles O40, by the write phase and the read phase one after the other. -/
theorem pageIsWrittenWholeBeforeItIsRead : Obligations.PageIsWrittenWholeBeforeItIsRead := by
  unfold Obligations.PageIsWrittenWholeBeforeItIsRead
  intro P E r d s hidle
  obtain ⟨xs, hreads, hevents, hstrobes, -⟩ := testPage_spec P E r d s hidle
  exact ⟨xs, by rw [hevents, List.append_assoc], hreads.length_pos, hreads.length_le,
    hreads.before_last, hreads.pass, hreads.fail, hstrobes⟩

/-! ## The pages in order (R210, R211) -/

theorem pageWriteLoop_row (P : Params) (d : Bool) (n : Nat) (s : State) :
    (pageWriteLoop P d n s).row = s.row := by
  induction n generalizing s with
  | zero => rfl
  | succ n ih => rw [pageWriteLoop, ih, setCol_row, (writeCol_counters P s _ d).1]

theorem pageReadLoop_row (P : Params) (E : Env) (d : Bool) (n : Nat) (s : State) :
    (pageReadLoop P E d n s).1.row = s.row := by
  induction n generalizing s with
  | zero => rfl
  | succ n ih =>
    have hread : (readCol P E (colByte s) s).1.row = s.row := (readCol_counters P E s _).1
    cases hv : bitVerdict (readCol P E (colByte s) s).2 d with
    | pass => rw [pageReadLoop_succ_of_pass n hv, ih, setCol_row, hread]
    | fail => rw [pageReadLoop_succ_of_fail n hv, hread]

/-- A page test leaves `row` to `runMemory`. -/
theorem patternPage_row (P : Params) (E : Env) (d : Bool) (s : State) :
    (patternPage P E d s).1.row = s.row := by
  simp only [patternPage, testPage, pageRead, pageWrite]
  rw [(closeRow_counters P _).1, pageReadLoop_row, setCol_row, (openRow_counters P _ _).1,
    (closeRow_counters P _).1, pageWriteLoop_row, setCol_row, (openRow_counters P _ _).1, setPat_row]

theorem patternPage_spec (P : Params) (E : Env) (d : Bool) (s : State) (hidle : StrobesIdle s.mbus) :
    ∃ xs, TestsPage P (rowByte s) d s (patternPage P E d s) xs := by
  obtain ⟨xs, hreads, hevents, hstrobes, hdin⟩ := testPage_spec P E (rowByte s) d (setPat d s) hidle
  exact ⟨xs, hreads, hevents, hstrobes, hdin⟩

/-- A row below 256 as a byte. -/
theorem rowByte_eq (s : State) : rowByte s = BitVec.ofNat 8 s.row.toNat := by
  apply BitVec.eq_of_toNat_eq
  simp [rowByte]

/-- The page `p.1` fails at the last of the bytes `p.2` read in it. -/
def PageFailsAt (P : Params) (p : (Byte × Bool) × List Byte) : Prop :=
  ∃ x ∈ p.2.getLast?, x.getLsbD P.hDout ≠ p.1.2

/-- The page `p.1` passes on the bytes `p.2`. -/
def PagePassesAt (P : Params) (p : (Byte × Bool) × List Byte) : Prop := PagePasses P p.1.2 p.2

theorem PageFailsAt.not_passesAt {P : Params} {p : (Byte × Bool) × List Byte} (h : PageFailsAt P p) :
    ¬ PagePassesAt P p := by
  obtain ⟨x, hx, hne⟩ := h
  exact fun hpass => hne (hpass.2 x (List.mem_of_getLast? hx))

/-- Tests of the pages `ps` in turn from `s` on, in which the bytes `xss` are read, page by page: all pass,
or the last one tested is the first that fails. -/
structure VisitsPages (P : Params) (ps : List (Byte × Bool)) (s : State) (res : State × Verdict)
    (xss : List (List Byte)) : Prop where
  length_le : xss.length ≤ ps.length
  lengths : ∀ xs ∈ xss, 0 < xs.length ∧ xs.length ≤ 256
  events : res.1.history = s.history ++ pagesEvents P s.mbus.din (ps.zip xss)
  strobes : StrobesIdle res.1.mbus
  pass : res.2 = .pass → xss.length = ps.length ∧ ∀ p ∈ ps.zip xss, PagePassesAt P p
  fail : res.2 = .fail → FailsAtLast (PagePassesAt P) (PageFailsAt P) (ps.zip xss)

theorem VisitsPages.nil (P : Params) {s : State} (hidle : StrobesIdle s.mbus) :
    VisitsPages P [] s (s, .pass) [] :=
  ⟨Nat.le_refl 0, by simp, by simp [pagesEvents], hidle, by simp, by simp⟩

/-- A failing page is the last. -/
theorem VisitsPages.singleton {P : Params} {r : Byte} {d : Bool} {ps : List (Byte × Bool)} {s : State}
    {res : State × Verdict} {xs : List Byte} (h : TestsPage P r d s res xs) (hfail : res.2 = .fail) :
    VisitsPages P ((r, d) :: ps) s res [xs] := by
  have hzip : List.zip ((r, d) :: ps) [xs] = [((r, d), xs)] := by simp
  refine ⟨by simp, by simpa using ⟨h.reads.length_pos, h.reads.length_le⟩, ?_, h.strobes,
    by simp [hfail], fun hf => ?_⟩
  · rw [hzip, h.events]
    simp [pagesEvents]
  · rw [hzip]
    exact .singleton (h.reads.fail hf)

/-- A passing page, then the pages after it from a state `t` with the same bus. -/
theorem VisitsPages.cons {P : Params} {r : Byte} {d : Bool} {ps : List (Byte × Bool)} {s t : State}
    {page res : State × Verdict} {xs : List Byte} {xss : List (List Byte)}
    (hpage : TestsPage P r d s page xs) (hpass : page.2 = .pass) (h : VisitsPages P ps t res xss)
    (hhistory : t.history = page.1.history) (hmbus : t.mbus = page.1.mbus) :
    VisitsPages P ((r, d) :: ps) s res (xs :: xss) := by
  have hpasses : PagePassesAt P ((r, d), xs) := hpage.reads.pass hpass
  refine ⟨Nat.succ_le_succ h.length_le,
    List.forall_mem_cons.mpr ⟨⟨hpage.reads.length_pos, hpage.reads.length_le⟩, h.lengths⟩, ?_, h.strobes,
    fun hr => ?_, fun hr => .cons hpasses (h.fail hr)⟩
  · rw [h.events, hhistory, hmbus, hpage.events, hpage.din, List.zip_cons_cons, pagesEvents]
    simp only [List.append_assoc]
  · obtain ⟨hlen, hall⟩ := h.pass hr
    exact ⟨congrArg Nat.succ hlen, List.forall_mem_cons.mpr ⟨hpasses, hall⟩⟩

/-- The pages of the `n` rows from row `k` on. -/
def pagesFrom (k n : Nat) : List (Byte × Bool) :=
  ((List.range' k n).map (BitVec.ofNat 8)).flatMap fun r => [(r, false), (r, true)]

theorem pages_eq_pagesFrom : pages = pagesFrom 0 256 := by
  rw [pages, columns, List.range_eq_range', pagesFrom]

theorem pagesFrom_succ (k n : Nat) :
    pagesFrom k (n + 1) =
      (BitVec.ofNat 8 k, false) :: (BitVec.ofNat 8 k, true) :: pagesFrom (k + 1) n := rfl

theorem pagesFrom_length (k n : Nat) : (pagesFrom k n).length = 2 * n := by
  induction n generalizing k with
  | zero => rfl
  | succ n ih =>
    rw [pagesFrom_succ, List.length_cons, List.length_cons, ih]
    omega

theorem pages_length : pages.length = 512 := by rw [pages_eq_pagesFrom, pagesFrom_length]

/-- The rows from `row` on, as long as it stays below 256. -/
theorem rowLoop_spec (P : Params) (E : Env) (n : Nat) (s : State) (hidle : StrobesIdle s.mbus)
    (hn : s.row.toNat + n ≤ 256) :
    ∃ xss, VisitsPages P (pagesFrom s.row.toNat n) s (rowLoop P E n s) xss := by
  induction n generalizing s with
  | zero => exact ⟨[], .nil P hidle⟩
  | succ n ih =>
    rw [pagesFrom_succ, ← rowByte_eq]
    obtain ⟨xs, hzeros⟩ := patternPage_spec P E false s hidle
    cases hv : (patternPage P E false s).2 with
    | fail =>
      have hrow := testRow_of_fail hv
      rw [rowLoop_succ_of_fail n (by rw [hrow, hv]), hrow]
      exact ⟨[xs], .singleton hzeros hv⟩
    | pass =>
      have hrow := testRow_of_pass hv
      obtain ⟨ys, hones⟩ := patternPage_spec P E true (patternPage P E false s).1 hzeros.strobes
      rw [rowByte, patternPage_row, ← rowByte] at hones
      cases hw : (patternPage P E true (patternPage P E false s).1).2 with
      | fail =>
        rw [rowLoop_succ_of_fail n (by rw [hrow, hw]), hrow]
        exact ⟨[xs, ys], .cons hzeros hv (.singleton hones hw) rfl rfl⟩
      | pass =>
        have hnext : (s.row + 1).toNat = s.row.toNat + 1 := by simp; omega
        rw [rowLoop_succ_of_pass n (by rw [hrow, hw]), hrow, patternPage_row, patternPage_row]
        obtain ⟨xss, hrest⟩ := ih
          (setRow (s.row + 1) (patternPage P E true (patternPage P E false s).1).1) hones.strobes
          (by rw [setRow_row, hnext]; omega)
        rw [setRow_row, hnext] at hrest
        exact ⟨xs :: ys :: xss, .cons hzeros hv (.cons hones hw hrest rfl rfl) rfl rfl⟩

theorem runMemory_spec (P : Params) (E : Env) (s : State) (hidle : StrobesIdle s.mbus) :
    ∃ xss, VisitsPages P pages s (runMemory P E s) xss := by
  obtain ⟨xss, hrows⟩ := rowLoop_spec P E 256 (setRow 0 s) hidle (Nat.le_refl 256)
  rw [pages_eq_pagesFrom]
  exact ⟨xss, hrows.length_le, hrows.lengths, hrows.events, hrows.strobes, hrows.pass, hrows.fail⟩

/-- Settles O41: the loop over the rows tests the pages in their order, and a failing page is not one that
passes. -/
theorem fullTestVisitsThePagesInOrder : Obligations.FullTestVisitsThePagesInOrder := by
  unfold Obligations.FullTestVisitsThePagesInOrder
  intro P E s hidle
  obtain ⟨xss, hlen, hlengths, hevents, -, hpass, hfail⟩ := runMemory_spec P E s hidle
  rw [pages_length] at hlen hpass
  cases hv : (runMemory P E s).2 with
  | pass =>
    obtain ⟨hall, hpasses⟩ := hpass hv
    exact ⟨xss, by omega, hlen, hlengths, hevents, fun p hp => hpasses p (List.mem_of_mem_dropLast hp),
      iff_of_true rfl ⟨hall, hpasses⟩, by simp⟩
  | fail =>
    obtain ⟨hbefore, p, hp, hbad⟩ := hfail hv
    have hpos : 0 < xss.length := by
      cases xss with
      | nil => simp at hp
      | cons xs xss => simp
    refine ⟨xss, hpos, hlen, hlengths, hevents, hbefore, iff_of_false (by simp) fun ⟨_, hpasses⟩ => ?_,
      fun _ => ⟨p, hp, hbad⟩⟩
    exact hbad.not_passesAt (hpasses p (List.mem_of_getLast? hp))

/-! ## The ports the engine moves (R182, R184, R190, R191) -/

/-- One warm-up pulse, from the idle bus to the idle bus (R190). -/
theorem warmupPulse_eq (P : Params) (s : State) (hbus : s.mbus = idleBus)
    (hout : s.out.get P.memLBank = busL P idleBus) :
    warmupPulse P s =
      { s with
        mbus := idleBus, pulse := s.pulse + 1
        history := s.history ++
          [writesL P 0 true false false, .dly .rasPw, writesL P 0 true true false] } := by
  have hkeep : ∀ v, (s.out.set P.memLBank v).set P.memLBank (busL P idleBus) = s.out := by
    intro v
    rw [← hout]
    cases P.memLBank <;> rfl
  have hraised : ({ idleBus with ras := true } : MBus) = idleBus := rfl
  simp only [warmupPulse, setRas, writeL, setMBus, portWrite, delay, record, setPulse, hbus, hraised,
    hkeep, List.append_assoc]
  rfl

theorem warmupLoop_eq (P : Params) (n : Nat) (s : State) (hbus : s.mbus = idleBus)
    (hout : s.out.get P.memLBank = busL P idleBus) :
    warmupLoop P n s =
      { s with
        mbus := idleBus, pulse := s.pulse + BitVec.ofNat 4 n
        history := s.history ++
          (List.replicate n
            [writesL P 0 true false false, .dly .rasPw, writesL P 0 true true false]).flatten } := by
  induction n generalizing s with
  | zero => simp [warmupLoop, ← hbus]
  | succ n ih =>
    rw [warmupLoop, warmupPulse_eq P s hbus hout, ih]
    case hbus => rfl
    case hout => exact hout
    simp [List.replicate_succ, BitVec.ofNat_add, BitVec.add_assoc, BitVec.add_comm 1#4]

/-- `memSetup` in one update (R190). -/
theorem memSetup_eq (P : Params) (s : State) (hbanks : P.memLBank ≠ P.memHBank) :
    memSetup P s =
      { s with
        mbus := idleBus, pulse := 8#4
        ddr := (s.ddr.set P.memLBank (dirL P)).set P.memHBank (dirH P)
        out := (s.out.set P.memLBank (busL P idleBus)).set P.memHBank (busH P idleBus)
        history := s.history ++ memSetupEvents P } := by
  have hout : ((s.out.set P.memLBank (busL P idleBus)).set P.memHBank (busH P idleBus)).get P.memLBank =
      busL P idleBus := by
    rw [PerBank_get_set, if_neg hbanks, PerBank_get_set, if_pos rfl]
  rw [memSetup, warmupLoop_eq P 8 _ rfl hout]
  simp only [setPulse, delay, record, setDir, writeH, writeL, portWrite, setMBus, memSetupEvents,
    List.append_assoc]
  rfl

/-- The registers of a bank that is neither of the bus banks are left alone. -/
def SameThirdBank (P : Params) (s t : State) : Prop :=
  ∀ b, b ≠ P.memLBank → b ≠ P.memHBank → t.ddr.get b = s.ddr.get b ∧ t.out.get b = s.out.get b

theorem dram_sameThirdBank (P : Params) (E : Env) : DramClosed P E (SameThirdBank P) where
  refl _ _ _ _ := ⟨rfl, rfl⟩
  trans h k b hL hH := ⟨(k b hL hH).1.trans (h b hL hH).1, (k b hL hH).2.trans (h b hL hH).2⟩
  bus _ _ _ _ _ := ⟨rfl, rfl⟩
  writeL _ _ hL _ := ⟨rfl, by rw [writeL, portWrite_out, PerBank_get_set, if_neg hL]⟩
  writeH _ _ _ hH := ⟨rfl, by rw [writeH, portWrite_out, PerBank_get_set, if_neg hH]⟩
  read _ _ _ _ := ⟨rfl, rfl⟩
  delay _ _ _ _ _ := ⟨rfl, rfl⟩
  dirL _ _ hL _ := ⟨by rw [setDir_ddr, PerBank_get_set, if_neg hL], rfl⟩
  dirH _ _ _ hH := ⟨by rw [setDir_ddr, PerBank_get_set, if_neg hH], rfl⟩
  pulse _ _ _ _ _ := ⟨rfl, rfl⟩
  col _ _ _ _ _ := ⟨rfl, rfl⟩
  row _ _ _ _ _ := ⟨rfl, rfl⟩
  pat _ _ _ _ _ := ⟨rfl, rfl⟩

/-- After `memSetup` the direction registers stay (R191). -/
theorem bus_sameDirections (P : Params) (E : Env) : BusClosed P E (fun s t => t.ddr = s.ddr) where
  refl _ := rfl
  trans h k := k.trans h
  openRow r s := by simp [openRow, writeL, writeH, setAL, setAH, setRas]
  closeRow s := by simp [closeRow, writeL, setRas]
  writeCol c d s := by simp [writeCol, writeL, writeH, setAL, setAH, setCas, setWe, setDin]
  readCol c s := by simp [readCol, readColOpen, portRead, writeL, writeH, setAL, setAH, setCas]
  col _ _ := rfl
  row _ _ := rfl
  pat _ _ := rfl

/-- The output registers of the bus banks hold the images of the bus record (R184). -/
structure ShowsBus (P : Params) (s : State) : Prop where
  portL : s.out.get P.memLBank = busL P s.mbus
  portH : s.out.get P.memHBank = busH P s.mbus

section ShowsBus

variable {P : Params} (hbanks : P.memLBank ≠ P.memHBank) {s : State}
include hbanks

/-- A write of port L after a change `f` of its signals alone. -/
theorem ShowsBus.writeL (h : ShowsBus P s) (f : State → State) (hout : (f s).out = s.out)
    (hbus : busH P (f s).mbus = busH P s.mbus) : ShowsBus P (writeL P (f s)) := by
  refine ⟨?_, ?_⟩
  · rw [Machine.writeL, portWrite_out, PerBank_get_set, if_pos rfl, portWrite_mbus]
  · rw [Machine.writeL, portWrite_out, PerBank_get_set, if_neg hbanks.symm, portWrite_mbus, hbus, hout,
      h.portH]

/-- A write of port H after a change `f` of its signals alone. -/
theorem ShowsBus.writeH (h : ShowsBus P s) (f : State → State) (hout : (f s).out = s.out)
    (hbus : busL P (f s).mbus = busL P s.mbus) : ShowsBus P (writeH P (f s)) := by
  refine ⟨?_, ?_⟩
  · rw [Machine.writeH, portWrite_out, PerBank_get_set, if_neg hbanks, portWrite_mbus, hbus, hout,
      h.portL]
  · rw [Machine.writeH, portWrite_out, PerBank_get_set, if_pos rfl, portWrite_mbus]

theorem ShowsBus.openRow (h : ShowsBus P s) (r : Byte) : ShowsBus P (openRow P r s) := by
  have haddressH := h.writeH hbanks (setAH (highField r)) rfl rfl
  have haddressL := haddressH.writeL hbanks (setAL (lowField r)) rfl rfl
  exact haddressL.writeL hbanks (setRas false) rfl rfl

theorem ShowsBus.closeRow (h : ShowsBus P s) : ShowsBus P (closeRow P s) :=
  h.writeL hbanks (setRas true) rfl rfl

theorem ShowsBus.writeCol (h : ShowsBus P s) (c : Byte) (d : Bool) : ShowsBus P (writeCol P c d s) := by
  have hdata := h.writeL hbanks (fun x => setDin d (setWe false (setAL (lowField c) x))) rfl rfl
  have haddressH := hdata.writeH hbanks (setAH (highField c)) rfl rfl
  have hstrobe := haddressH.writeH hbanks (setCas false) rfl rfl
  have hwe := hstrobe.writeL hbanks (setWe true) rfl rfl
  exact hwe.writeH hbanks (setCas true) rfl rfl

theorem ShowsBus.readCol (h : ShowsBus P s) (E : Env) (c : Byte) : ShowsBus P (readCol P E c s).1 := by
  have haddressL := h.writeL hbanks (setAL (lowField c)) rfl rfl
  have haddressH := haddressL.writeH hbanks (setAH (highField c)) rfl rfl
  have hstrobe := haddressH.writeH hbanks (setCas false) rfl rfl
  exact hstrobe.writeH hbanks (fun x => setCas true (portRead E P.memHBank (delay .cac x)).2) rfl rfl

/-- Every bus operation writes a port after it changes the port's signals. -/
theorem bus_showsBus (E : Env) : BusClosed P E (fun s t => ShowsBus P s → ShowsBus P t) where
  refl _ := id
  trans h k := k ∘ h
  openRow r _ h := h.openRow hbanks r
  closeRow _ h := h.closeRow hbanks
  writeCol c d _ h := h.writeCol hbanks c d
  readCol c _ h := h.readCol hbanks E c
  col _ _ h := ⟨h.portL, h.portH⟩
  row _ _ h := ⟨h.portL, h.portH⟩
  pat _ _ h := ⟨h.portL, h.portH⟩

/-- `memSetup` leaves the engine's directions, and the idle bus on both ports (R190, R191). -/
theorem memSetup_ports (s : State) :
    (memSetup P s).ddr.get P.memLBank = dirL P ∧ (memSetup P s).ddr.get P.memHBank = dirH P ∧
      ShowsBus P (memSetup P s) := by
  rw [memSetup_eq P s hbanks]
  refine ⟨?_, ?_, ?_, ?_⟩
  · rw [PerBank_get_set, if_neg hbanks, PerBank_get_set, if_pos rfl]
  · rw [PerBank_get_set, if_pos rfl]
  · rw [PerBank_get_set, if_neg hbanks, PerBank_get_set, if_pos rfl]
  · rw [PerBank_get_set, if_pos rfl]

theorem memSetup_strobesIdle (s : State) : StrobesIdle (memSetup P s).mbus := by
  rw [memSetup_eq P s hbanks]
  exact ⟨rfl, rfl, rfl⟩

end ShowsBus

/-- Settles O43: `memSetup` sets the directions and shows the idle bus; from there every bus operation keeps
the directions and shows the bus, and every page ends with the strobes idle. -/
theorem dramEngineMovesOnlyItsTwoPorts : Obligations.DramEngineMovesOnlyItsTwoPorts := by
  unfold Obligations.DramEngineMovesOnlyItsTwoPorts
  intro P E s hbanks t
  obtain ⟨hdirL, hdirH, hsetup⟩ := memSetup_ports hbanks s
  have hddr : t.ddr = (memSetup P s).ddr := (bus_sameDirections P E).runMemory _
  have hshows : ShowsBus P t := (bus_showsBus hbanks E).runMemory _ hsetup
  obtain ⟨xss, hpages⟩ := runMemory_spec P E (memSetup P s) (memSetup_strobesIdle hbanks s)
  exact ⟨dramEngine_closed (dram_sameThirdBank P E) s, by rw [hddr, hdirL], by rw [hddr, hdirH],
    hshows.portL, hshows.portH, hpages.strobes⟩

end Sys2Proof.Machine
end

section
/-! PROOFS. The DRAM engine's family (spec/43_dram_engine.md), with an ideal DRAM on the bus
(spec/95_test_vectors.md section 2.4): the bits of the bus images (R181, R182, R184), the DRAM event by event
and operation by operation, and the round trip (R214). -/

namespace Sys2Proof.Machine

/-! ## The bits of the bus images (R181, R182, R184) -/

theorem lineAt_getLsbD (level : Bool) (k : Nat) {i : Nat} (hi : i < 8) :
    (lineAt level k).getLsbD i = (decide (i = k) && level) := by
  rcases Nat.lt_trichotomy i k with h | h | h
  · simp [lineAt, h, Nat.ne_of_lt h]
  · simp [lineAt, h, h ▸ hi]
  · have hk : i - k ≠ 0 := by omega
    simp [lineAt, BitVec.getLsbD_ofBool, Nat.ne_of_gt h, hk]

/-- An address field from bit `k` of a port on. -/
def fieldBit {w : Nat} (a : BitVec w) (k i : Nat) : Bool := decide (k ≤ i) && a.getLsbD (i - k)

theorem fieldBit_outside {w : Nat} (a : BitVec w) {k i : Nat} (h : i < k ∨ k + w ≤ i) :
    fieldBit a k i = false := by
  rcases h with h | h
  · simp [fieldBit, Nat.not_le.mpr h]
  · simp [fieldBit, BitVec.getLsbD_of_ge a (i - k) (by omega)]

theorem fieldBit_inside {w : Nat} (a : BitVec w) (k j : Nat) : fieldBit a k (k + j) = a.getLsbD j := by
  simp [fieldBit]

theorem field_getLsbD {w : Nat} (a : BitVec w) (k : Nat) {i : Nat} (hi : i < 8) :
    (a.setWidth 8 <<< k).getLsbD i = fieldBit a k i := by
  have hk : i - k < 8 := by omega
  simp only [fieldBit, BitVec.getLsbD_shiftLeft, BitVec.getLsbD_setWidth, decide_eq_true hi,
    decide_eq_true hk, Bool.true_and, ← Nat.not_lt, decide_not]

theorem busL_getLsbD (P : Params) (m : MBus) {i : Nat} (hi : i < 8) :
    (busL P m).getLsbD i =
      (fieldBit m.aL P.lAPos i || decide (i = P.lWe) && m.we || decide (i = P.lRas) && m.ras ||
        decide (i = P.lDin) && m.din) := by
  simp only [busL, BitVec.getLsbD_or, field_getLsbD _ _ hi, lineAt_getLsbD _ _ hi]

theorem busH_getLsbD (P : Params) (m : MBus) {i : Nat} (hi : i < 8) :
    (busH P m).getLsbD i = (fieldBit m.aH P.hAPos i || decide (i = P.hCas) && m.cas) := by
  simp only [busH, BitVec.getLsbD_or, field_getLsbD _ _ hi, lineAt_getLsbD _ _ hi]

/-- The bus record with every signal high. -/
def highBus : MBus := ⟨.allOnes 3, true, true, true, .allOnes 5, true⟩

/-- The direction masks are the images of a bus with every signal high (R182). -/
theorem dirL_eq_busL (P : Params) : dirL P = busL P highBus := rfl

theorem dirH_eq_busH (P : Params) : dirH P = busH P highBus := rfl

/-- The constraints on the bit positions of a port in a usable form (R181). -/
structure BusBits (P : Params) : Prop where
  banks : P.memLBank ≠ P.memHBank
  aL : P.lAPos ≤ 5
  we : P.lWe < 8 ∧ (P.lWe < P.lAPos ∨ P.lAPos + 3 ≤ P.lWe) ∧ P.lWe ≠ P.lRas ∧ P.lWe ≠ P.lDin
  ras : P.lRas < 8 ∧ (P.lRas < P.lAPos ∨ P.lAPos + 3 ≤ P.lRas) ∧ P.lRas ≠ P.lDin
  din : P.lDin < 8 ∧ (P.lDin < P.lAPos ∨ P.lAPos + 3 ≤ P.lDin)
  aH : P.hAPos ≤ 3
  cas : P.hCas < 8 ∧ (P.hCas < P.hAPos ∨ P.hAPos + 5 ≤ P.hCas) ∧ P.hCas ≠ P.hDout
  dout : P.hDout < 8 ∧ (P.hDout < P.hAPos ∨ P.hAPos + 5 ≤ P.hDout)

theorem busBits_of_valid {P : Params} (hP : P.Valid) : BusBits P := by
  obtain ⟨-, -, -, hbanks, ⟨haL, hwe, hras, hdin⟩, hL, ⟨haH, hcas, hdout⟩, hH, -⟩ := hP
  simp only [List.nodup_cons, List.mem_cons, List.not_mem_nil, or_false, not_or] at hL hH
  exact ⟨hbanks, haL, by omega, by omega, by omega, haH, by omega, by omega⟩

section Signals

variable {P : Params} (hP : BusBits P) (m : MBus)
include hP

theorem busL_we : (busL P m).getLsbD P.lWe = m.we := by
  obtain ⟨hlt, hfield, hras, hdin⟩ := hP.we
  simp [busL_getLsbD P m hlt, fieldBit_outside m.aL hfield, hras, hdin]

theorem busL_ras : (busL P m).getLsbD P.lRas = m.ras := by
  obtain ⟨hlt, hfield, hdin⟩ := hP.ras
  obtain ⟨-, -, hwe, -⟩ := hP.we
  simp [busL_getLsbD P m hlt, fieldBit_outside m.aL hfield, hwe.symm, hdin]

theorem busL_din : (busL P m).getLsbD P.lDin = m.din := by
  obtain ⟨hlt, hfield⟩ := hP.din
  obtain ⟨-, -, -, hwe⟩ := hP.we
  obtain ⟨-, -, hras⟩ := hP.ras
  simp [busL_getLsbD P m hlt, fieldBit_outside m.aL hfield, hwe.symm, hras.symm]

theorem busL_aL {j : Nat} (hj : j < 3) : (busL P m).getLsbD (P.lAPos + j) = m.aL.getLsbD j := by
  have haL := hP.aL
  obtain ⟨-, hwe, -⟩ := hP.we
  obtain ⟨-, hras, -⟩ := hP.ras
  obtain ⟨-, hdin⟩ := hP.din
  have hne : P.lAPos + j ≠ P.lWe ∧ P.lAPos + j ≠ P.lRas ∧ P.lAPos + j ≠ P.lDin := by omega
  simp [busL_getLsbD P m (show P.lAPos + j < 8 by omega), fieldBit_inside, hne]

theorem busH_cas : (busH P m).getLsbD P.hCas = m.cas := by
  obtain ⟨hlt, hfield, -⟩ := hP.cas
  simp [busH_getLsbD P m hlt, fieldBit_outside m.aH hfield]

theorem busH_aH {j : Nat} (hj : j < 5) : (busH P m).getLsbD (P.hAPos + j) = m.aH.getLsbD j := by
  have haH := hP.aH
  obtain ⟨-, hcas, -⟩ := hP.cas
  have hne : P.hAPos + j ≠ P.hCas := by omega
  simp [busH_getLsbD P m (show P.hAPos + j < 8 by omega), fieldBit_inside, hne]

/-- `DOUT` is an input (R182). -/
theorem dirH_dout : (dirH P).getLsbD P.hDout = false := by
  obtain ⟨hlt, hfield⟩ := hP.dout
  obtain ⟨-, -, hcas⟩ := hP.cas
  simp [dirH_eq_busH, busH_getLsbD P highBus hlt, fieldBit_outside highBus.aH hfield, hcas.symm]

end Signals

/-! ## The lines the ideal DRAM sees (spec/95_test_vectors.md section 2.4) -/

/-- The pins show the bus record `m` on the bus banks, every signal driven. -/
structure PinsShow (P : Params) (m : MBus) (p : Pins) : Prop where
  ddrL : p.ddr.get P.memLBank = dirL P
  ddrH : p.ddr.get P.memHBank = dirH P
  outL : p.out.get P.memLBank = busL P m
  outH : p.out.get P.memHBank = busH P m

theorem PinsShow.levelL {P : Params} {m : MBus} {p : Pins} (h : PinsShow P m p) {i : Nat} (hi : i < 8) :
    (lineLevels p P.memLBank).getLsbD i = (!(busL P highBus).getLsbD i || (busL P m).getLsbD i) := by
  rw [lineLevels, BitVec.getLsbD_or, BitVec.getLsbD_not, h.ddrL, h.outL, dirL_eq_busL, decide_eq_true hi,
    Bool.true_and]

theorem PinsShow.levelH {P : Params} {m : MBus} {p : Pins} (h : PinsShow P m p) {i : Nat} (hi : i < 8) :
    (lineLevels p P.memHBank).getLsbD i = (!(busH P highBus).getLsbD i || (busH P m).getLsbD i) := by
  rw [lineLevels, BitVec.getLsbD_or, BitVec.getLsbD_not, h.ddrH, h.outH, dirH_eq_busH, decide_eq_true hi,
    Bool.true_and]

section Levels

variable {P : Params} (hP : BusBits P) {m : MBus} {p : Pins} (h : PinsShow P m p)
include hP h

theorem PinsShow.weLevel : weLevel P p = m.we := by
  rw [Machine.weLevel, h.levelL hP.we.1, busL_we hP, busL_we hP]
  rfl

theorem PinsShow.rasLevel : rasLevel P p = m.ras := by
  rw [Machine.rasLevel, h.levelL hP.ras.1, busL_ras hP, busL_ras hP]
  rfl

theorem PinsShow.dinLevel : dinLevel P p = m.din := by
  rw [Machine.dinLevel, h.levelL hP.din.1, busL_din hP, busL_din hP]
  rfl

theorem PinsShow.casLevel : casLevel P p = m.cas := by
  rw [Machine.casLevel, h.levelH hP.cas.1, busH_cas hP, busH_cas hP]
  rfl

theorem PinsShow.addressLines : addressLines P p = m.aH ++ m.aL := by
  have haL := hP.aL
  have haH := hP.aH
  have hlow : (lineLevels p P.memLBank).extractLsb' P.lAPos 3 = m.aL := by
    apply BitVec.eq_of_getLsbD_eq
    intro j hj
    rw [BitVec.getLsbD_extractLsb', h.levelL (by omega), busL_aL hP _ hj, busL_aL hP _ hj,
      show highBus.aL = BitVec.allOnes 3 from rfl, BitVec.getLsbD_allOnes, decide_eq_true hj]
    rfl
  have hhigh : (lineLevels p P.memHBank).extractLsb' P.hAPos 5 = m.aH := by
    apply BitVec.eq_of_getLsbD_eq
    intro j hj
    rw [BitVec.getLsbD_extractLsb', h.levelH (by omega), busH_aH hP _ hj, busH_aH hP _ hj,
      show highBus.aH = BitVec.allOnes 5 from rfl, BitVec.getLsbD_allOnes, decide_eq_true hj]
    rfl
  rw [Machine.addressLines, hlow, hhigh]

end Levels

/-! ## The ideal DRAM on the bus, event by event -/

theorem PinsShow.after_writesL {P : Params} (hP : BusBits P) {m : MBus} {p : Pins} (h : PinsShow P m p)
    (aL : BitVec 3) (we ras din : Bool) :
    PinsShow P ⟨aL, we, ras, din, m.aH, m.cas⟩ (p.after (writesL P aL we ras din)) := by
  refine ⟨h.ddrL, h.ddrH, ?_, ?_⟩
  · rw [writesL, Pins.after, PerBank_get_set, if_pos rfl]
    rfl
  · rw [writesL, Pins.after, PerBank_get_set, if_neg hP.banks.symm, h.outH]
    rfl

theorem PinsShow.after_writesH {P : Params} (hP : BusBits P) {m : MBus} {p : Pins} (h : PinsShow P m p)
    (aH : BitVec 5) (cas : Bool) :
    PinsShow P ⟨m.aL, m.we, m.ras, m.din, aH, cas⟩ (p.after (writesH P aH cas)) := by
  refine ⟨h.ddrL, h.ddrH, ?_, ?_⟩
  · rw [writesH, Pins.after, PerBank_get_set, if_neg hP.banks, h.outL]
    rfl
  · rw [writesH, Pins.after, PerBank_get_set, if_pos rfl]
    rfl

/-- The ideal DRAM `D` sees the bus record `m`; its row latch, its cells and what it presents. -/
structure DramAt (P : Params) (m : MBus) (row : Byte) (cells : Byte → Byte → Bool)
    (presented : Option Bool) (D : IdealDram) : Prop where
  pins : PinsShow P m D.pins
  row : D.row = row
  cells : D.cells = cells
  presented : D.presented = presented

theorem DramAt.congr {P : Params} {m : MBus} {row row' : Byte} {cells cells' : Byte → Byte → Bool}
    {presented presented' : Option Bool} {D : IdealDram} (h : DramAt P m row cells presented D)
    (hrow : row = row') (hcells : cells = cells') (hpresented : presented = presented') :
    DramAt P m row' cells' presented' D := by
  rwa [← hrow, ← hcells, ← hpresented]

section Events

variable {P : Params} (hP : BusBits P) {m : MBus} {row : Byte} {cells : Byte → Byte → Bool}
  {presented : Option Bool} {D : IdealDram} (h : DramAt P m row cells presented D)
include hP h

/-- A write of port L latches the row if the row strobe falls. -/
theorem DramAt.after_writesL (aL : BitVec 3) (we ras din : Bool) :
    DramAt P ⟨aL, we, ras, din, m.aH, m.cas⟩ (if m.ras && !ras then m.aH ++ aL else row) cells
      (if m.cas then none else presented) (D.after P (writesL P aL we ras din)) := by
  have hpins := h.pins.after_writesL hP aL we ras din
  simp only [IdealDram.after, h.pins.rasLevel hP, h.pins.casLevel hP, hpins.rasLevel hP,
    hpins.casLevel hP, hpins.addressLines hP, Bool.and_not_self, Bool.false_and, Bool.false_eq_true,
    if_false]
  exact ⟨hpins, by rw [h.row], h.cells, by rw [h.presented]⟩

/-- A write of port H that does not lower the column strobe. -/
theorem DramAt.after_writesH_steady (aH : BitVec 5) {cas : Bool} (hcas : (m.cas && !cas) = false) :
    DramAt P ⟨m.aL, m.we, m.ras, m.din, aH, cas⟩ row cells (if cas then none else presented)
      (D.after P (writesH P aH cas)) := by
  have hpins := h.pins.after_writesH hP aH cas
  simp only [IdealDram.after, h.pins.rasLevel hP, h.pins.casLevel hP, hpins.rasLevel hP,
    hpins.casLevel hP, Bool.and_not_self, hcas, Bool.false_and, Bool.false_eq_true, if_false]
  exact ⟨hpins, h.row, h.cells, by rw [h.presented]⟩

/-- The column strobe falls under a low row strobe: the cell is presented, or written. -/
theorem DramAt.after_writesH_falling (aH : BitVec 5) (hcas : m.cas = true) (hras : m.ras = false) :
    DramAt P ⟨m.aL, m.we, m.ras, m.din, aH, false⟩ row
      (if m.we then cells else setCell cells row (aH ++ m.aL) m.din)
      (if m.we then some (cells row (aH ++ m.aL)) else none) (D.after P (writesH P aH false)) := by
  have hpins := h.pins.after_writesH hP aH false
  have hafter : D.after P (writesH P aH false) =
      { pins := D.pins.after (writesH P aH false), row := D.row, col := aH ++ m.aL
        cells := if m.we then D.cells else setCell D.cells D.row (aH ++ m.aL) m.din
        presented := if m.we then some (D.cells D.row (aH ++ m.aL)) else none } := by
    simp only [IdealDram.after, h.pins.rasLevel hP, h.pins.casLevel hP, hpins.rasLevel hP,
      hpins.casLevel hP, hpins.weLevel hP, hpins.dinLevel hP, hpins.addressLines hP, hcas, hras]
    cases m.we <;> rfl
  rw [hafter, h.row, h.cells]
  exact ⟨hpins, rfl, rfl, rfl⟩

/-- An event that moves no pin. -/
theorem DramAt.after_silent {e : Event} (he : D.pins.after e = D.pins) :
    DramAt P m row cells (if m.cas then none else presented) (D.after P e) := by
  simp only [IdealDram.after, he, h.pins.rasLevel hP, h.pins.casLevel hP, Bool.and_not_self,
    Bool.false_and, Bool.false_eq_true, if_false]
  exact ⟨h.pins, h.row, h.cells, by rw [h.presented]⟩

end Events

/-! ## The ideal DRAM under the bus operations -/

/-- An ideal DRAM, of contents `cells₀` before all events, is on the bus in state `s` and answers every read:
its row latch, its cells and what it presents. -/
structure DramShows (P : Params) (cells₀ : Byte → Byte → Bool) (row : Byte) (cells : Byte → Byte → Bool)
    (presented : Option Bool) (s : State) : Prop where
  pinScript : s.pinScript = []
  dirH : s.ddr.get P.memHBank = dirH P
  dram : DramAt P s.mbus row cells presented (dramOf P cells₀ (observed s))

/-- The same, whatever it presents. -/
def OnDram (P : Params) (cells₀ : Byte → Byte → Bool) (row : Byte) (cells : Byte → Byte → Bool)
    (s : State) : Prop := ∃ presented, DramShows P cells₀ row cells presented s

theorem EngineEffect.unscripted {s t : State} (h : EngineEffect s t) (hs : s.pinScript = []) :
    t.pinScript = [] := by
  obtain ⟨es, -, -, -, hscript⟩ := h.events
  rw [hscript, hs, List.drop_nil]

/-- The DRAM goes on with the events that an operation adds. -/
theorem dramOf_observed {P : Params} {cells₀ : Byte → Byte → Bool} {s t : State} {es : List Event}
    (hpast : t.past = s.past) (hhistory : t.history = s.history ++ es) :
    dramOf P cells₀ (observed t) = es.foldl (IdealDram.after P) (dramOf P cells₀ (observed s)) := by
  rw [observed, hpast, hhistory, ← List.append_assoc, dramOf, List.foldl_append]
  rfl

/-- `h[7:3]` above `h[2:0]` (R185). -/
theorem highField_append_lowField (h : Byte) : highField h ++ lowField h = h := by
  revert h; decide

theorem readColOpen_history (P : Params) (c : Byte) (s : State) :
    (readColOpen P c s).history = s.history ++
      [writesL P (lowField c) s.mbus.we s.mbus.ras s.mbus.din, writesH P (highField c) s.mbus.cas,
       writesH P (highField c) false, .dly .cac] := by
  simp [readColOpen, delay, record, writeL, writeH, portWrite, setAL, setAH, setCas, setMBus, writesL,
    writesH, busL, busH]

theorem readColOpen_ddr (P : Params) (c : Byte) (s : State) : (readColOpen P c s).ddr = s.ddr := by
  simp [readColOpen, writeL, writeH, setAL, setAH, setCas]

theorem readColOpen_closed {P : Params} {E : Env} {R : State → State → Prop} (h : DramClosed P E R)
    (c : Byte) (s : State) : R s (readColOpen P c s) :=
  h.trans (h.trans (h.trans (busStep_closed h _ s).1 (busStep_closed h _ _).2) (busStep_closed h _ _).2)
    (h.delay _ _)

/-- `readCol` after its `PortRead` has begun. -/
theorem readCol_history_of_open (P : Params) (E : Env) (c : Byte) (s : State) :
    (readCol P E c s).1.history = (readColOpen P c s).history ++
      [.rd P.memHBank (portInput E P.memHBank (readColOpen P c s)), writesH P (highField c) true] :=
  List.append_assoc _ _ _

section Operations

variable {P : Params} (hP : BusBits P) {cells₀ : Byte → Byte → Bool} {row : Byte}
  {cells : Byte → Byte → Bool} {s : State}

/-- An operation of the engine, by what its events do to the DRAM. -/
theorem DramShows.step {presented : Option Bool} (h : DramShows P cells₀ row cells presented s) {t : State}
    (heffect : EngineEffect s t) (hddr : t.ddr = s.ddr) {es : List Event}
    (hhistory : t.history = s.history ++ es) {row' : Byte} {cells' : Byte → Byte → Bool}
    {presented' : Option Bool}
    (hdram : DramAt P t.mbus row' cells' presented'
      (es.foldl (IdealDram.after P) (dramOf P cells₀ (observed s)))) :
    DramShows P cells₀ row' cells' presented' t :=
  ⟨heffect.unscripted h.pinScript, by rw [hddr, h.dirH], by rwa [dramOf_observed heffect.past hhistory]⟩

/-- A counter of the engine is nothing to the DRAM. -/
theorem OnDram.setCol (h : OnDram P cells₀ row cells s) (v : BitVec 9) :
    OnDram P cells₀ row cells (setCol v s) := by
  obtain ⟨presented, hs⟩ := h
  exact ⟨presented, hs.pinScript, hs.dirH, hs.dram⟩

include hP

/-- A row is opened from the row strobe high: the DRAM latches it. -/
theorem OnDram.openRow (h : OnDram P cells₀ row cells s) (r : Byte) (hras : s.mbus.ras = true) :
    OnDram P cells₀ r cells (openRow P r s) := by
  obtain ⟨presented, hs⟩ := h
  have haddressH := hs.dram.after_writesH_steady hP (highField r) (Bool.and_not_self s.mbus.cas)
  have haddressL := haddressH.after_writesL hP (lowField r) s.mbus.we s.mbus.ras s.mbus.din
  have hstrobe := haddressL.after_writesL hP (lowField r) s.mbus.we false s.mbus.din
  exact ⟨_, hs.step (openRow_closed (dram_effect P Config.env) r s)
    ((bus_sameDirections P Config.env).openRow r s) (openRow_history P s r)
    (hstrobe.congr (by simp [hras, highField_append_lowField]) rfl rfl)⟩

theorem OnDram.closeRow (h : OnDram P cells₀ row cells s) : OnDram P cells₀ row cells (closeRow P s) := by
  obtain ⟨presented, hs⟩ := h
  have hstrobe := hs.dram.after_writesL hP s.mbus.aL s.mbus.we true s.mbus.din
  exact ⟨_, hs.step (closeRow_closed (dram_effect P Config.env) s)
    ((bus_sameDirections P Config.env).closeRow s) (closeRow_history P s)
    (hstrobe.congr (by simp) rfl rfl)⟩

/-- A column of the open row is written. -/
theorem OnDram.writeCol (h : OnDram P cells₀ row cells s) (c : Byte) (d : Bool)
    (hras : s.mbus.ras = false) (hcas : s.mbus.cas = true) :
    OnDram P cells₀ row (setCell cells row c d) (writeCol P c d s) := by
  obtain ⟨presented, hs⟩ := h
  have hdata := hs.dram.after_writesL hP (lowField c) false s.mbus.ras d
  have haddressH := hdata.after_writesH_steady hP (highField c) (Bool.and_not_self s.mbus.cas)
  have hstrobe := haddressH.after_writesH_falling hP (highField c) hcas hras
  have hwe := hstrobe.after_writesL hP (lowField c) true s.mbus.ras d
  have hreleased := hwe.after_writesH_steady hP (highField c) (cas := true) rfl
  exact ⟨_, hs.step (writeCol_closed (dram_effect P Config.env) c d s)
    ((bus_sameDirections P Config.env).writeCol c d s) (writeCol_history P s c d)
    (hreleased.congr (by simp) (by simp [highField_append_lowField]) rfl)⟩

/-- A column of the open row is presented, and stays so while the column strobe is low. -/
theorem OnDram.readColOpen (h : OnDram P cells₀ row cells s) (c : Byte) (hwe : s.mbus.we = true)
    (hras : s.mbus.ras = false) (hcas : s.mbus.cas = true) :
    DramShows P cells₀ row cells (some (cells row c)) (readColOpen P c s) := by
  obtain ⟨presented, hs⟩ := h
  have haddressL := hs.dram.after_writesL hP (lowField c) s.mbus.we s.mbus.ras s.mbus.din
  have haddressH := haddressL.after_writesH_steady hP (highField c) (Bool.and_not_self s.mbus.cas)
  have hstrobe := haddressH.after_writesH_falling hP (highField c) hcas hras
  have hwaited := hstrobe.after_silent hP (e := .dly .cac) rfl
  exact hs.step (readColOpen_closed (dram_effect P Config.env) c s) (readColOpen_ddr P c s)
    (readColOpen_history P c s)
    (hwaited.congr (by simp) (by simp [hwe]) (by simp [hwe, highField_append_lowField]))

/-- The bit read at `DOUT` is the one the DRAM presents. -/
theorem DramShows.dout {bit : Bool} (h : DramShows P cells₀ row cells (some bit) s)
    (draw : List Event → Bank → Byte) :
    (portInput (idealDram P cells₀ draw) P.memHBank s).getLsbD P.hDout = bit := by
  obtain ⟨hlt, -⟩ := hP.dout
  have hdut : dutAnswer (idealDram P cells₀ draw) P.memHBank s =
      ⟨1#8 <<< P.hDout, lineAt bit P.hDout⟩ := by
    rw [dutAnswer, h.pinScript]
    simp [idealDram, h.dram.presented]
  rw [portInput, hdut, inputByte_getLsbD_of_dut _ _ hlt (by rw [h.dirH, dirH_dout hP]) (by simp [hlt])]
  simp [lineAt_getLsbD bit P.hDout hlt]

/-- A column of the open row is read: the bit is the cell's. -/
theorem OnDram.readCol (h : OnDram P cells₀ row cells s) (draw : List Event → Bank → Byte) (c : Byte)
    (hwe : s.mbus.we = true) (hras : s.mbus.ras = false) (hcas : s.mbus.cas = true) :
    OnDram P cells₀ row cells (readCol P (idealDram P cells₀ draw) c s).1 ∧
      (readCol P (idealDram P cells₀ draw) c s).2 = cells row c := by
  have hopen := h.readColOpen hP c hwe hras hcas
  have hread := hopen.dram.after_silent hP
    (e := .rd P.memHBank (portInput (idealDram P cells₀ draw) P.memHBank (Machine.readColOpen P c s))) rfl
  have hreleased := hread.after_writesH_steady hP (highField c) (cas := true) rfl
  have heffect : EngineEffect (Machine.readColOpen P c s)
      (Machine.readCol P (idealDram P cells₀ draw) c s).1 :=
    (afterRead_effect _ _ _).trans (busStep_closed (dram_effect P (idealDram P cells₀ draw)) _ _).2
  exact ⟨⟨_, hopen.step heffect rfl (readCol_history_of_open P _ c s) hreleased⟩, hopen.dout hP draw⟩

end Operations

/-! ## The round trip (R214) -/

theorem IdealDram.after_pins (P : Params) (D : IdealDram) (e : Event) :
    (D.after P e).pins = D.pins.after e := by
  simp only [IdealDram.after]
  split_ifs <;> rfl

theorem foldl_after_pins (P : Params) (es : List Event) (D : IdealDram) :
    (es.foldl (IdealDram.after P) D).pins = D.pins.afterAll es := by
  induction es generalizing D with
  | nil => rfl
  | cons e es ih => rw [List.foldl_cons, ih, D.after_pins, Pins.afterAll_cons]

/-- The cells with the columns of a row from `lo` to below `hi` set. -/
def setColumns (cells : Byte → Byte → Bool) (row : Byte) (lo hi : Nat) (d : Bool) : Byte → Byte → Bool :=
  fun r c => if r = row ∧ lo ≤ c.toNat ∧ c.toNat < hi then d else cells r c

theorem setColumns_empty (cells : Byte → Byte → Bool) (row : Byte) (k : Nat) (d : Bool) :
    setColumns cells row k k d = cells := by
  funext r c
  exact if_neg (by omega)

theorem setColumns_setCell (cells : Byte → Byte → Bool) (row : Byte) {lo hi : Nat} (d : Bool)
    (hlo : lo < hi) (hhi : hi ≤ 256) :
    setColumns (setCell cells row (BitVec.ofNat 8 lo) d) row (lo + 1) hi d =
      setColumns cells row lo hi d := by
  funext r c
  have hc : c = BitVec.ofNat 8 lo ↔ c.toNat = lo := by
    rw [BitVec.toNat_eq, BitVec.toNat_ofNat, Nat.mod_eq_of_lt (by omega)]
  simp only [setColumns, setCell, hc]
  by_cases hcol : c.toNat = lo
  · by_cases hr : r = row <;> simp [hr, hcol, hlo]
  · rw [if_neg (fun h : _ ∧ _ => hcol h.2)]
    exact if_congr (and_congr_right fun _ => by omega) rfl rfl

section RoundTrip

variable {P : Params} (hP : BusBits P) {cells₀ : Byte → Byte → Bool} {row : Byte}
  {cells : Byte → Byte → Bool} {s : State} (draw : List Event → Bank → Byte)
include hP

theorem warmup_pinsShow (n : Nat) {p : Pins} (h : PinsShow P idleBus p) :
    PinsShow P idleBus (p.afterAll (List.replicate n
      [writesL P 0 true false false, .dly .rasPw, writesL P 0 true true false]).flatten) := by
  induction n generalizing p with
  | zero => exact h
  | succ n ih =>
    rw [List.replicate_succ, List.flatten_cons, Pins.afterAll_append]
    exact ih ((h.after_writesL hP 0 true false false).after_writesL hP 0 true true false)

/-- The events of `memSetup` drive the idle bus, whatever the pins were before. -/
theorem memSetupEvents_pinsShow (p : Pins) : PinsShow P idleBus (p.afterAll (memSetupEvents P)) := by
  rw [memSetupEvents, Pins.afterAll_append]
  refine warmup_pinsShow hP 8 ⟨?_, ?_, ?_, ?_⟩ <;>
    simp only [Pins.afterAll_cons, Pins.afterAll_nil, writesL, writesH, Pins.after, PerBank_get_set,
      if_neg hP.banks, if_true] <;> rfl

/-- `memSetup` puts the DRAM on the bus, whatever it has seen before. -/
theorem memSetup_onDram (hscript : s.pinScript = []) :
    ∃ row cells, OnDram P cells₀ row cells (memSetup P s) := by
  have hobserved : observed (memSetup P s) = observed s ++ memSetupEvents P := by
    rw [memSetup_eq P s hP.banks, observed, observed, List.append_assoc]
  have hpins : PinsShow P (memSetup P s).mbus (dramOf P cells₀ (observed (memSetup P s))).pins := by
    rw [hobserved, dramOf, List.foldl_append, foldl_after_pins, memSetup_eq P s hP.banks]
    exact memSetupEvents_pinsShow hP _
  obtain ⟨-, hdirH, -⟩ := memSetup_ports hP.banks s
  exact ⟨_, _, _, (memSetup_closed (dram_effect P Config.env) s).unscripted hscript, hdirH, hpins, rfl, rfl,
    rfl⟩

/-- A bit test passes: the cell read is the one just written. -/
theorem OnDram.testBit (h : OnDram P cells₀ row cells s) (hidle : StrobesIdle s.mbus) (addr : BitVec 16)
    (d : Bool) : (testBit P (idealDram P cells₀ draw) addr d s).2 = .pass := by
  obtain ⟨hwe, hras, hcas⟩ := hidle
  have hwritten := ((h.openRow hP (rowOf addr) hras).writeCol hP (colOf addr) d rfl hcas).closeRow hP
  have hread := ((hwritten.openRow hP (rowOf addr) rfl).readCol hP draw (colOf addr) rfl rfl rfl).2
  rw [Machine.testBit, bitVerdict_pass, hread]
  simp [setCell]

/-- The write phase on an open row sets every column from `col` on. -/
theorem OnDram.pageWriteLoop (h : OnDram P cells₀ row cells s) (d : Bool) (n : Nat)
    (hras : s.mbus.ras = false) (hcas : s.mbus.cas = true) (hn : s.col.toNat + n ≤ 256) :
    OnDram P cells₀ row (setColumns cells row s.col.toNat (s.col.toNat + n) d)
      (pageWriteLoop P d n s) := by
  induction n generalizing s cells with
  | zero => exact (setColumns_empty cells row s.col.toNat d).symm ▸ h
  | succ n ih =>
    have hnext : (s.col + 1).toNat = s.col.toNat + 1 := by simp; omega
    have hw := (h.writeCol hP (colByte s) d hras hcas).setCol (s.col + 1)
    have hrest := ih hw hras rfl (by rw [setCol_col, hnext]; omega)
    rw [setCol_col, hnext, colByte_eq, setColumns_setCell cells row d (by omega) (by omega),
      show s.col.toNat + 1 + n = s.col.toNat + (n + 1) by omega, ← colByte_eq] at hrest
    rw [Machine.pageWriteLoop, (writeCol_counters P s _ d).2.1]
    exact hrest

/-- On an open row whose cells all hold `d`, every column reads `d`. -/
theorem OnDram.pageReadLoop (h : OnDram P cells₀ row cells s) (d : Bool) (hd : ∀ c, cells row c = d)
    (n : Nat) (hwe : s.mbus.we = true) (hras : s.mbus.ras = false) (hcas : s.mbus.cas = true) :
    OnDram P cells₀ row cells (pageReadLoop P (idealDram P cells₀ draw) d n s).1 ∧
      (pageReadLoop P (idealDram P cells₀ draw) d n s).2 = .pass := by
  induction n generalizing s with
  | zero => exact ⟨h, rfl⟩
  | succ n ih =>
    obtain ⟨hread, hbit⟩ := h.readCol hP draw (colByte s) hwe hras hcas
    rw [pageReadLoop_succ_of_pass n ((bitVerdict_pass _ _).mpr (hbit.trans (hd _)))]
    exact ih (hread.setCol _) hwe hras rfl

/-- A page test passes and leaves the row full of the bit. -/
theorem OnDram.testPage (h : OnDram P cells₀ row cells s) (hidle : StrobesIdle s.mbus) (r : Byte)
    (d : Bool) :
    OnDram P cells₀ r (setColumns cells r 0 256 d) (testPage P (idealDram P cells₀ draw) r d s).1 ∧
      (testPage P (idealDram P cells₀ draw) r d s).2 = .pass := by
  obtain ⟨-, ⟨hwe', hras', hcas'⟩, -⟩ := pageWrite_spec P r d s hidle
  obtain ⟨-, hras, hcas⟩ := hidle
  have hwritten := (((h.openRow hP r hras).setCol 0).pageWriteLoop hP d 256 rfl hcas
    (Nat.le_refl 256)).closeRow hP
  obtain ⟨hread, hpass⟩ := ((hwritten.openRow hP r hras').setCol 0).pageReadLoop hP draw d
    (fun c => if_pos ⟨rfl, Nat.zero_le _, c.isLt⟩) 256 hwe' rfl hcas'
  exact ⟨hread.closeRow hP, hpass⟩

end RoundTrip

/-- Settles O45: after `memSetup` the DRAM sees every bus operation, so a cell written is the cell read. -/
theorem idealDramRoundTrip : Obligations.IdealDramRoundTrip := by
  unfold Obligations.IdealDramRoundTrip
  intro P cells draw s hvalid hscript
  have hP := busBits_of_valid hvalid
  have hidle := memSetup_strobesIdle hP.banks s
  obtain ⟨row, cells', hdram⟩ := memSetup_onDram hP (cells₀ := cells) hscript
  exact ⟨fun addr d => hdram.testBit hP draw hidle addr d, fun r d => (hdram.testPage hP draw hidle r d).2⟩

end Sys2Proof.Machine
end

section
/-! PROOFS. The exceptions' family (spec/60_exceptions.md): the five unrecognised commands (R250). -/

namespace Sys2Proof.Machine

/-! ## Unrecognised commands (R250) -/

/-- `raise Err` in one update of the state: the reply byte is sent and recorded (R250). -/
theorem raiseErr_eq (P : Params) (s : State) :
    raiseErr P s =
      { s with tx := s.tx ++ [P.resErr], history := s.history ++ [.tx P.resErr], phase := .waitCmd } := rfl

/-- Opcodes 3 to 7 have one meaning, `raise Err`. -/
theorem exec_unrecognised (low : BitVec 5) (s : State) {i : Instr}
    (hi : i ∈ [Instr.bad3 low, .bad4 low, .bad5 low, .bad6 low, .bad7 low]) :
    exec i s = .next (raiseErr Config.params s) := by
  simp only [List.mem_cons, List.not_mem_nil, or_false] at hi
  obtain rfl | rfl | rfl | rfl | rfl := hi <;> rfl

/-- Settles O14: all five commands raise Err, which writes `tx`, `history` and `phase` alone. -/
theorem unrecognisedCommandsReplyErr : Obligations.UnrecognisedCommandsReplyErr := by
  unfold Obligations.UnrecognisedCommandsReplyErr
  intro low s i hi
  rw [exec_unrecognised low s hi, raiseErr_eq]

end Sys2Proof.Machine
end

section
/-! PROOFS. The resets' family (spec/70_reset_and_hazards.md): a hardware reset inside a command (R280,
R281). -/

namespace Sys2Proof.Machine

variable {s t : State} {es : List Event}

/-- A reset inside a command is the hardware reset of the state cut after the events that have happened. -/
theorem resetDuring_of_next (n : Nat) (h : step s = .next t) (hhistory : t.history = s.history ++ es) :
    s.resetDuring n = .next (cutAfter (es.take n) s).hardwareReset := by
  rw [State.resetDuring, h]
  simp only [newEvents_eq s hhistory]

/-- A reset after the events `es` keeps them, behind all earlier ones, and what they leave of the script. -/
theorem hardwareReset_cutAfter (es : List Event) (s : State) :
    (cutAfter es s).hardwareReset =
      { State.reset with
        past := s.past ++ s.history ++ es ++ resetEvents
        pinScript := s.pinScript.drop (readsIn es) } := by
  rw [hardwareReset_eq, List.append_assoc s.past]
  rfl

/-- A hardware reset tells states apart by the events before and since the last reset and by the script. -/
theorem hardwareReset_congr (hpast : s.past = t.past) (hhistory : s.history = t.history)
    (hscript : s.pinScript = t.pinScript) : s.hardwareReset = t.hardwareReset := by
  rw [hardwareReset_eq, hardwareReset_eq, hpast, hhistory, hscript]

/-- Settles O48: a step's trace is all that a reset inside it or after it keeps. -/
theorem resetEndsACommandAfterAnyOfItsEvents : Obligations.ResetEndsACommandAfterAnyOfItsEvents := by
  unfold Obligations.ResetEndsACommandAfterAnyOfItsEvents
  intro n s t h
  obtain ⟨hpast, es, hhistory, hscript⟩ := step_trace s t h
  have hcut := resetDuring_of_next n h hhistory
  refine ⟨es, hhistory, ?_, fun hn => ?_⟩
  · rw [hcut, hardwareReset_cutAfter]
  · have hall : (cutAfter es s).hardwareReset = t.hardwareReset :=
      hardwareReset_congr hpast.symm hhistory.symm hscript.symm
    rw [hcut, List.take_of_length_le hn, hall]

end Sys2Proof.Machine
end

section
/-! PROOFS. The encoding's round trips (spec/30_encoding.md R90 to R97): decode of encode, encode of decode,
and what the phase of an incomplete command says (spec/10_state.md R37). -/

namespace Sys2Proof

/-! ## Decode of encode -/

/-- The decoder of a payload, by the opcode. -/
def decodePayload (P : Params) (o : Opcode) (low : BitVec 5) (bs : List Byte) : DecodeResult :=
  match o with
  | .setup => decodeSetup low bs
  | .upload => decodeUpload P low bs
  | .run => decodeRun low bs
  | .bad3 => .done (.bad3 low) bs
  | .bad4 => .done (.bad4 low) bs
  | .bad5 => .done (.bad5 low) bs
  | .bad6 => .done (.bad6 low) bs
  | .bad7 => .done (.bad7 low) bs

/-- The command byte chooses the payload's decoder and hands it the unused bits (R91, R92, R97). -/
theorem decode_commandByte (P : Params) (o : Opcode) (low : BitVec 5) (bs : List Byte) :
    decode P (commandByte o low :: bs) = decodePayload P o low bs := by
  simp only [decode, opcodeField_commandByte, opcodeOf_opcodeBits, unusedField_commandByte]
  cases o <;> rfl

/-- Every byte is a command byte (R91, R92). -/
theorem exists_commandByte (cmd : Byte) : ∃ o low, commandByte o low = cmd :=
  ⟨opcodeOf (opcodeField cmd), unusedField cmd, commandByte_fields cmd _ rfl⟩

/-- An Upload's payload after an accepted header: as many vectors as the length bytes say (R94). -/
theorem decodeUpload_vectors (P : Params) (low : BitVec 5) {t hi lo : Byte} {vs : List Vec}
    (rest : List Byte) (ha : headerAccepted P t hi lo = true)
    (hvs : vs.length = assembleLength hi lo) :
    decodeUpload P low (t :: hi :: lo :: (vs.flatMap encodeVec ++ rest)) =
      .done (.upload low t hi lo vs) rest := by
  simp only [decodeUpload, ha, if_true, ← hvs, takeVectors_flatMap]

/-- After a refused header nothing more is taken. -/
theorem decodeUpload_refused (P : Params) (low : BitVec 5) {t hi lo : Byte} (rest : List Byte)
    (ha : headerAccepted P t hi lo = false) :
    decodeUpload P low (t :: hi :: lo :: rest) = .done (.upload low t hi lo []) rest := by
  simp only [decodeUpload, ha, Bool.false_eq_true, if_false]

/-- The bytes of a command the decoder can answer with, followed by any bytes, decode to it. -/
theorem decode_encode (P : Params) (i : Instr) (rest : List Byte)
    (hframed : framed P i = true) :
    decode P (encode i ++ rest) = .done i rest := by
  cases i with
  | setup low banks => exact decode_commandByte P .setup low _
  | upload low t hi lo vs =>
    refine (decode_commandByte P .upload low _).trans ?_
    simp only [framed] at hframed
    cases ha : headerAccepted P t hi lo with
    | true =>
      rw [ha, if_pos rfl, beq_iff_eq] at hframed
      exact decodeUpload_vectors P low rest ha hframed
    | false =>
      rw [ha, if_neg Bool.false_ne_true, List.isEmpty_iff] at hframed
      subst hframed
      exact decodeUpload_refused P low rest ha
  | run low e => exact decode_commandByte P .run low _
  | bad3 low => exact decode_commandByte P .bad3 low _
  | bad4 low => exact decode_commandByte P .bad4 low _
  | bad5 low => exact decode_commandByte P .bad5 low _
  | bad6 low => exact decode_commandByte P .bad6 low _
  | bad7 low => exact decode_commandByte P .bad7 low _

/-- Settles O4: a command within the contract has the shape the decoder answers with, and every command of
that shape is decoded from its encoding. -/
theorem decodeOfEncodeGivesTheCommand : Obligations.DecodeOfEncodeGivesTheCommand := by
  unfold Obligations.DecodeOfEncodeGivesTheCommand
  intro P i rest hi
  exact decode_encode P i rest (hi.elim (framed_of_wf P i) id)

/-! ## Encode of decode -/

/-- What the decoder of a payload answers is encoded as the command byte and the bytes it took. -/
def SoundPayload (P : Params) (o : Opcode) (low : BitVec 5) (bs : List Byte) : Prop :=
  ∀ i rest, decodePayload P o low bs = .done i rest →
    commandByte o low :: bs = encode i ++ rest ∧ framed P i = true

theorem decodeSetup_sound (P : Params) (low : BitVec 5) (bs : List Byte) :
    SoundPayload P .setup low bs := by
  intro i rest h
  rw [decodePayload, decodeSetup.eq_def] at h
  split at h
  · cases h
    exact ⟨rfl, rfl⟩
  · cases h

theorem decodeUpload_sound (P : Params) (low : BitVec 5) (bs : List Byte) :
    SoundPayload P .upload low bs := by
  intro i rest h
  rw [decodePayload, decodeUpload.eq_def] at h
  split at h
  · rename_i t hi lo bs
    cases ha : headerAccepted P t hi lo with
    | true =>
      rw [ha, if_pos rfl] at h
      split at h
      · rename_i vs rest' htake
        cases h
        obtain ⟨hlen, rfl⟩ := takeVectors_sound _ _ _ _ htake
        exact ⟨rfl, by simp [framed, ha, hlen]⟩
      · cases h
    | false =>
      rw [ha, if_neg Bool.false_ne_true] at h
      cases h
      exact ⟨rfl, by simp [framed, ha]⟩
  · cases h

theorem decodeRun_sound (P : Params) (low : BitVec 5) (bs : List Byte) :
    SoundPayload P .run low bs := by
  intro i rest h
  cases bs with
  | nil => cases h
  | cons e bs => cases h; exact ⟨rfl, rfl⟩

theorem decodePayload_sound (P : Params) (o : Opcode) (low : BitVec 5) (bs : List Byte) :
    SoundPayload P o low bs := by
  cases o with
  | setup => exact decodeSetup_sound P low bs
  | upload => exact decodeUpload_sound P low bs
  | run => exact decodeRun_sound P low bs
  | bad3 => intro i rest h; cases h; exact ⟨rfl, rfl⟩
  | bad4 => intro i rest h; cases h; exact ⟨rfl, rfl⟩
  | bad5 => intro i rest h; cases h; exact ⟨rfl, rfl⟩
  | bad6 => intro i rest h; cases h; exact ⟨rfl, rfl⟩
  | bad7 => intro i rest h; cases h; exact ⟨rfl, rfl⟩

/-- Bytes that decode to a command are its encoding and the bytes left. -/
theorem encode_decode (P : Params) (bs : List Byte) (i : Instr) (rest : List Byte)
    (h : decode P bs = .done i rest) : bs = encode i ++ rest ∧ framed P i = true := by
  cases bs with
  | nil => cases h
  | cons cmd bs =>
    obtain ⟨o, low, rfl⟩ := exists_commandByte cmd
    rw [decode_commandByte] at h
    exact decodePayload_sound P o low bs i rest h

/-- Settles O5, by the soundness of each payload's decoder. -/
theorem encodeOfDecodeGivesTheBytes : Obligations.EncodeOfDecodeGivesTheBytes := by
  unfold Obligations.EncodeOfDecodeGivesTheBytes
  exact encode_decode

/-! ## Incomplete commands -/

theorem decodeSetup_more_iff (low : BitVec 5) (bs : List Byte) (p : Phase) :
    decodeSetup low bs = .more p ↔ bs.length < 9 ∧ p = .rxSetup bs.length := by
  by_cases hlen : bs.length < 9
  · have hshort : decodeSetup low bs = .more (.rxSetup bs.length) := by
      unfold decodeSetup
      split
      · simp only [List.length_cons] at hlen
        omega
      · rfl
    rw [hshort, DecodeResult.more.injEq, and_iff_right hlen]
    exact eq_comm
  · rw [decodeSetup.eq_def]
    split
    · exact iff_of_false (by simp) (fun h => hlen h.1)
    · rename_i hshort
      match bs, hlen with
      | _ :: _ :: _ :: _ :: _ :: _ :: _ :: _ :: _ :: _, _ => exact absurd rfl (hshort _ _ _ _ _ _ _ _ _ _)
      | [], h | [_], h | [_, _], h | [_, _, _], h | [_, _, _, _], h | [_, _, _, _, _], h
      | [_, _, _, _, _, _], h | [_, _, _, _, _, _, _], h | [_, _, _, _, _, _, _, _], h => simp at h

/-- After its header an Upload is incomplete if the header is accepted and vector bytes are missing. -/
theorem decodeUpload_header_more_iff (P : Params) (low : BitVec 5) (t hi lo : Byte) (vb : List Byte)
    (p : Phase) :
    decodeUpload P low (t :: hi :: lo :: vb) = .more p ↔
      headerAccepted P t hi lo = true ∧ vb.length < 3 * assembleLength hi lo ∧
        p = .rxUploadVec vb.length := by
  rw [decodeUpload]
  cases ha : headerAccepted P t hi lo with
  | false => simp
  | true =>
    rw [← takeVectors_eq_none]
    cases takeVectors (assembleLength hi lo) vb with
    | some vr => simp
    | none => simp [eq_comm]

theorem decodeUpload_more_iff (P : Params) (low : BitVec 5) (bs : List Byte) (p : Phase) :
    decodeUpload P low bs = .more p ↔
      (bs.length < 3 ∧ p = .rxUploadHdr bs.length) ∨
      ∃ t hi lo vb, bs = t :: hi :: lo :: vb ∧ headerAccepted P t hi lo = true ∧
        vb.length < 3 * assembleLength hi lo ∧ p = .rxUploadVec vb.length := by
  match bs with
  | [] => simp [decodeUpload, @eq_comm _ p]
  | [_] => simp [decodeUpload, @eq_comm _ p]
  | [_, _] => simp [decodeUpload, @eq_comm _ p]
  | t :: hi :: lo :: vb => simp [decodeUpload_header_more_iff]

theorem decodeRun_more_iff (low : BitVec 5) (bs : List Byte) (p : Phase) :
    decodeRun low bs = .more p ↔ bs = [] ∧ p = .rxRun := by
  cases bs with
  | nil => simp [decodeRun, eq_comm]
  | cons e bs => simp [decodeRun]

/-- `cmd[7:5]` is the opcode (R91). -/
theorem commandByte_shiftRight (o : Opcode) (low : BitVec 5) :
    commandByte o low >>> 5 = (opcodeBits o).setWidth 8 := by
  cases o <;> revert low <;> decide

/-- Settles O6, opcode by opcode: five of the eight have a payload that is never incomplete. -/
theorem phaseTellsTheBytesReceived : Obligations.PhaseTellsTheBytesReceived := by
  unfold Obligations.PhaseTellsTheBytesReceived
  intro P bs p
  cases bs with
  | nil => simp [decode, eq_comm]
  | cons cmd pl =>
    obtain ⟨o, low, rfl⟩ := exists_commandByte cmd
    rw [decode_commandByte, decodePayload.eq_def]
    cases o with
    | setup => simp [commandByte_shiftRight, opcodeBits, decodeSetup_more_iff]
    | upload =>
      simp [commandByte_shiftRight, opcodeBits, decodeUpload_more_iff, headerAccepted_iff,
        assembleLength, and_assoc]
    | run => simp [commandByte_shiftRight, opcodeBits, decodeRun_more_iff]
    | bad3 => simp [commandByte_shiftRight, opcodeBits]
    | bad4 => simp [commandByte_shiftRight, opcodeBits]
    | bad5 => simp [commandByte_shiftRight, opcodeBits]
    | bad6 => simp [commandByte_shiftRight, opcodeBits]
    | bad7 => simp [commandByte_shiftRight, opcodeBits]

/-- Settles O3: each of the words is the encoding of its command, then the bytes left. -/
theorem writtenOutWordsDecode : Obligations.WrittenOutWordsDecode := by
  unfold Obligations.WrittenOutWordsDecode
  refine ⟨?_, ?_, ?_, ?_, ?_, ?_, ?_, ?_⟩
  · exact decode_encode _
      (.setup 31 ⟨⟨0x01, 0x02, 0x03⟩, ⟨0x04, 0x05, 0x06⟩, ⟨0x07, 0x08, 0x09⟩⟩) [0xAA] rfl
  · exact decode_encode _
      (.upload 0 0x01 0x00 0x02 [⟨0x11, 0x12, 0x13⟩, ⟨0x21, 0x22, 0x23⟩]) [0x40] rfl
  · exact decode_encode _ (.run 26 0x0F) [] rfl
  · exact decode_encode _ (.bad3 0) [] rfl
  · exact decode_encode _ (.bad4 1) [0x00] rfl
  · exact decode_encode _ (.bad5 0) [] rfl
  · exact decode_encode _ (.bad6 31) [] rfl
  · exact decode_encode _ (.bad7 7) [] rfl

end Sys2Proof
end

section
/-! PROOFS. The command loop (spec/44_commands.md R229): a step takes a whole command, or it waits for the
rest of one. -/

namespace Sys2Proof.Machine

variable {s : State}

theorem receiving_of_ne {p : Phase} (hrunning : p ≠ .running) (hreply : p ≠ .reply) :
    receiving p = true := by
  cases p with
  | running => exact absurd rfl hrunning
  | reply => exact absurd rfl hreply
  | _ => rfl

theorem step_of_done {i : Instr} {rest : List Byte} (hphase : receiving s.phase = true)
    (h : decode Config.params (s.cmdBuf ++ s.rx) = .done i rest) :
    step s = exec i (takeCommand rest s) := by
  simp only [step, received, hphase, if_true, h]

theorem step_of_more {p : Phase} (hphase : receiving s.phase = true)
    (h : decode Config.params (s.cmdBuf ++ s.rx) = .more p) :
    step s = .next (awaitBytes p s) := by
  simp only [step, received, hphase, if_true, h]

/-- Settles O1: in a receiving phase the decoder decides, and `takeCommand` is the update named. -/
theorem stepRunsTheDecodedCommand : Obligations.StepRunsTheDecodedCommand := by
  unfold Obligations.StepRunsTheDecodedCommand
  intro s i rest hrunning hreply h
  exact step_of_done (receiving_of_ne hrunning hreply) h

/-- Settles O2: in a receiving phase the decoder decides, and `awaitBytes` is the update named. -/
theorem stepWaitsForTheRestOfACommand : Obligations.StepWaitsForTheRestOfACommand := by
  unfold Obligations.StepWaitsForTheRestOfACommand
  intro s p hrunning hreply h
  exact step_of_more (receiving_of_ne hrunning hreply) h

end Sys2Proof.Machine
end

section
/-! PROOFS. The commands (spec/44_commands.md R230 to R234, spec/60_exceptions.md R253, R254): what Setup and
Upload store, which commands are refused, and what a Run within its preconditions does. -/

namespace Sys2Proof.Machine

/-! ## Setup and Upload (R230 to R232) -/

/-- Settles O11: `storeConfig` and `reply` in one update. -/
theorem setupStoresTheConfiguration : Obligations.SetupStoresTheConfiguration := by
  unfold Obligations.SetupStoresTheConfiguration
  intro low banks s
  rw [exec_setup]
  rfl

theorem exec_upload_of_accepted (low : BitVec 5) {type : SessionType} {t hi lo : Byte}
    (vectors : List Vec) (s : State) (ht : decodeType Config.params t = some type)
    (hlen : assembleLength hi lo ≤ maxVectors) :
    exec (.upload low t hi lo vectors) s =
      .next (reply Config.params .ok (upload type (assembleLength hi lo) vectors s)) := by
  rw [exec_upload, uploadIn, ht]
  exact if_neg (Nat.not_lt.mpr hlen)

/-- The store an Upload of these vectors leaves, whatever was there before (R141). -/
def sessionStore (vectors : List Vec) : Memory := writeVectors 0 vectors []

theorem sessionStore_wf {vectors : List Vec} (hlen : vectors.length ≤ 1024) :
    Memory.wf (sessionStore vectors) = true :=
  (writeVectors_spec vectors 0 [] rfl (by omega)).1

theorem sessionStore_bound {vectors : List Vec} (hlen : vectors.length ≤ 1024) {c : Host.Cell}
    (hc : c ∈ sessionStore vectors) : c.1 < 3 * vectors.length := by
  obtain ⟨-, hbound, -⟩ := writeVectors_spec vectors 0 [] rfl (by omega)
  simpa using hbound c hc

/-- Every vector is fetched as it was sent (R143). -/
theorem getVector_sessionStore {vectors : List Vec} (hlen : vectors.length ≤ 1024) {s : State}
    (hs : s.vs = sessionStore vectors) {p : Nat} (hp : p < vectors.length) :
    getVector s p = vectors[p] := by
  obtain ⟨-, -, -, hread⟩ := writeVectors_spec vectors 0 [] rfl (by omega)
  refine vec_ext fun b => ?_
  rw [getVector_get, hs, ← hread p hp b, Nat.zero_add, sessionStore]

/-- Settles O12: the store is `sessionStore` of the vectors, in which the state before has no part. -/
theorem uploadReplacesTheSession : Obligations.UploadReplacesTheSession := by
  unfold Obligations.UploadReplacesTheSession
  intro low type t hi lo vectors ht hbound hlen
  have hmax : vectors.length ≤ 1024 := hlen ▸ hbound
  refine ⟨sessionStore vectors, sessionStore_wf hmax, fun _ => sessionStore_bound hmax, fun s =>
    ⟨?_, fun p hp => getVector_sessionStore hmax rfl hp⟩⟩
  have hassemble : assembleLength hi lo = vectors.length := hlen.symm
  rw [exec_upload_of_accepted low vectors s ht hbound, hassemble, upload, List.take_length]
  rfl

/-- Settles O13, by the three cases of Upload. -/
theorem uploadRefusesOutsideTheContract : Obligations.UploadRefusesOutsideTheContract := by
  unfold Obligations.UploadRefusesOutsideTheContract
  intro low t hi lo vectors s
  rw [exec_upload, ← decodeType_none_iff]
  rcases uploadIn_cases Config.params t hi lo vectors s with
    ⟨hnone, hrefused⟩ | ⟨type, hsome, hlong, hrefused⟩ | ⟨type, hsome, hshort, -⟩
  case inl =>
    refine ⟨fun _ => hrefused, fun htype => ?_⟩
    rw [decodeType_none_iff] at hnone
    obtain ⟨h0, h1, h2⟩ := hnone
    rcases htype with h | h | h <;> contradiction
  case inr.inl => exact ⟨fun hnone => by simp [hnone] at hsome, fun _ _ => hrefused⟩
  case inr.inr =>
    exact ⟨fun hnone => by simp [hnone] at hsome, fun _ hlong => absurd hlong (Nat.not_lt.mpr hshort)⟩

/-! ## Refusals (spec/60_exceptions.md R253, R254) -/

/-- Settles O15, by the three cases of Run. -/
theorem runRefusesOutsideItsPreconditions : Obligations.RunRefusesOutsideItsPreconditions := by
  unfold Obligations.RunRefusesOutsideItsPreconditions
  intro low e s
  rw [exec_run]
  rcases runIn_cases Config.params Config.env e s with
    ⟨hlarge, hrefused⟩ | ⟨hsmall, -, hrefused⟩ | ⟨hsmall, hpb, hts, -⟩
  case inl => exact ⟨fun _ => hrefused, fun hsmall => absurd hlarge (Nat.not_lt.mpr hsmall)⟩
  case inr.inl =>
    exact ⟨fun hlarge => absurd hlarge (Nat.not_lt.mpr hsmall), fun _ _ => hrefused⟩
  case inr.inr =>
    refine ⟨fun hlarge => absurd hlarge (Nat.not_lt.mpr hsmall), fun _ hunwritten => ?_⟩
    simp [hpb, hts] at hunwritten

/-- Settles O17: only Upload and Run can stop, in the cases of `uploadIn_cases` and `runIn_cases`. -/
theorem commandsStopOnlyOutsideTheContract : Obligations.CommandsStopOnlyOutsideTheContract := by
  unfold Obligations.CommandsStopOnlyOutsideTheContract
  intro i s
  cases i with
  | setup low banks => exact ⟨nofun, nofun⟩
  | upload low t hi lo vectors =>
    rw [exec_upload]
    rcases uploadIn_cases Config.params t hi lo vectors s with
      ⟨hnone, h⟩ | ⟨_, -, hlong, h⟩ | ⟨_, -, -, h⟩ <;> rw [h]
    · refine ⟨nofun, fun r hr => ?_⟩
      cases hr
      exact .inl ⟨low, t, hi, lo, vectors, rfl, .inl ⟨rfl, hnone⟩⟩
    · refine ⟨nofun, fun r hr => ?_⟩
      cases hr
      exact .inl ⟨low, t, hi, lo, vectors, rfl, .inr ⟨rfl, hlong⟩⟩
    · exact ⟨nofun, nofun⟩
  | run low e =>
    rw [exec_run]
    rcases runIn_cases Config.params Config.env e s with
      ⟨hlarge, h⟩ | ⟨-, hunwritten, h⟩ | ⟨-, -, -, h⟩ <;> rw [h]
    · refine ⟨nofun, fun r hr => ?_⟩
      cases hr
      exact .inr ⟨low, e, rfl, .inl ⟨rfl, hlarge⟩⟩
    · refine ⟨nofun, fun r hr => ?_⟩
      cases hr
      exact .inr ⟨low, e, rfl, .inr ⟨rfl, hunwritten⟩⟩
    · exact ⟨nofun, nofun⟩
  | bad3 low => exact ⟨nofun, nofun⟩
  | bad4 low => exact ⟨nofun, nofun⟩
  | bad5 low => exact ⟨nofun, nofun⟩
  | bad6 low => exact ⟨nofun, nofun⟩
  | bad7 low => exact ⟨nofun, nofun⟩

/-! ## Run within its preconditions (R234, R235) -/

theorem exec_run_of_ready (low : BitVec 5) {e : Byte} {s : State} (he : e.toNat ≤ 15)
    (hpb : s.pbWritten = true) (hts : s.tsWritten = true) :
    exec (.run low e) s = .next (runBody Config.params Config.env e s) := by
  rw [exec_run, runIn, hpb, hts]
  exact if_neg (Nat.not_lt.mpr he)

theorem runEnd_result (P : Params) (E : Env) (e : Byte) (s : State) :
    (runEnd P E e s).result = (repeatEngine (runEngine P E) e (runStart s)).2 :=
  repeatEngine_result _ e _

theorem runBody_ports (P : Params) (E : Env) (e : Byte) (s : State) (b : Bank) :
    (runBody P E e s).ddr.get b = 0x00#8 ∧ (runBody P E e s).out.get b = 0x00#8 := by
  rw [runBody_update]
  cases b <;> exact ⟨rfl, rfl⟩

/-- The events of a run, its engine's between those of its start and of its end (R235). -/
theorem runBody_history {P : Params} {E : Env} {e : Byte} {s : State} {es : List Event}
    (h : (runEnd P E e s).history = (runStart s).history ++ es) :
    (runBody P E e s).history = s.history ++ [.inh true] ++ configureEvents s.pb ++ es ++ resetEvents ++
      farewellEvents P (runEnd P E e s).result := by
  rw [runBody_update, h, runStart_history, ← List.append_assoc s.history]

/-- Settles O16: a run is its start, its engine's repetitions, whose effect on every register is known, and
its end. -/
theorem runCompletesAndRestoresIdle : Obligations.RunCompletesAndRestoresIdle := by
  unfold Obligations.RunCompletesAndRestoresIdle
  intro low e s he hpb hts started r
  have hE := runEnd_effect s Config.params Config.env e
  have hresult : (runEnd Config.params Config.env e s).result = r.2 := runEnd_result _ _ e s
  obtain ⟨es, hengine, hhistory, -⟩ := hE.events
  refine ⟨runBody Config.params Config.env e s, exec_run_of_ready low he hpb hts,
    fun b => (runBody_ports _ _ e s b).1, fun b => (runBody_ports _ _ e s b).2, ?_, ?_, ?_,
    ⟨es, hengine, hhistory, ?_⟩, ?_⟩
  · rw [runBody_update]
  · rw [runBody_update]
  · rw [runBody_update, hresult]
  · rw [runBody_history hhistory, hresult]
  · have htx := runBody_tx Config.params Config.env e s
    rw [hresult] at htx
    obtain ⟨kpb, kpbw, kty, klen, ktsw, kvs⟩ :=
      runBody_keeps_config_and_session Config.params Config.env e s
    refine ⟨htx.trans (by cases r.2 <;> rfl), kpb, kpbw.trans hpb, kty, klen, ktsw.trans hts,
      fun a => by rw [kvs], ?_⟩
    rw [runBody_update]
    exact ⟨hE.rx.trans (runStart_rx s), hE.cmdBuf.trans (runStart_cmdBuf s),
      hE.past.trans (runStart_past s), runEnd_pos s _ _ e, runEnd_dramRegisters s _ _ e⟩

end Sys2Proof.Machine
end

section
/-! PROOFS. The pins (spec/10_state.md R26, R27; spec/40_pin_bank_driver.md R121, R129), and what every step
keeps: what reset leaves (spec/70_reset_and_hazards.md R280), the invariant between two commands (R284), and
that the history accounts for the pins, the replies and `irq_inhibit`. -/

namespace Sys2Proof.Machine

/-! ## The pins -/

/-- Bit `i` of the byte a port read gives, in the four cases of R27. -/
theorem inputByte_getLsbD (ddr out : Byte) (dut : PinDrive) (draw : Byte) {i : Nat} (hi : i < 8) :
    (inputByte ddr out dut draw).getLsbD i =
      if ddr.getLsbD i then out.getLsbD i
      else if dut.drives.getLsbD i then dut.level.getLsbD i
      else if out.getLsbD i then true
      else draw.getLsbD i := by
  simp only [inputByte, BitVec.getLsbD_or, BitVec.getLsbD_and, BitVec.getLsbD_not, hi]
  cases ddr.getLsbD i
  · cases dut.drives.getLsbD i <;> cases out.getLsbD i <;> simp
  · simp

/-- Settles O23: `PortRead` gives `inputByte` of the registers, the DUT's answer and the draw. -/
theorem readGivesThePinLevels : Obligations.ReadGivesThePinLevels := by
  unfold Obligations.ReadGivesThePinLevels
  intro E b s i hi
  exact inputByte_getLsbD (s.ddr.get b) (s.out.get b) (dutAnswer E b s) _ hi

/-- Settles O24: `configure` and `reset()` in one update each. -/
theorem configureAndResetTouchPortsOnly : Obligations.ConfigureAndResetTouchPortsOnly := by
  unfold Obligations.ConfigureAndResetTouchPortsOnly
  exact fun s => ⟨configure_eq s, resetPins_eq s⟩

/-! ## Reset -/

/-- The registers to which R280 gives a value hold it. -/
def AtReset (t : State) : Prop :=
  (∀ b, t.ddr.get b = 0x00#8) ∧ (∀ b, t.out.get b = 0x00#8) ∧ t.irqInhibit = false ∧
    t.rx = [] ∧ t.tx = [] ∧ t.pbWritten = false ∧ t.tsWritten = false ∧ t.phase = .waitCmd ∧
    t.history = []

theorem reset_atReset : AtReset State.reset :=
  ⟨fun b => by cases b <;> rfl, fun b => by cases b <;> rfl, rfl, rfl, rfl, rfl, rfl, rfl, rfl⟩

/-- Settles O7: a hardware reset is `State.reset` but for what the environment has seen and the script. -/
theorem resetLeavesTheCoreIdleAndUnwritten : Obligations.ResetLeavesTheCoreIdleAndUnwritten := by
  unfold Obligations.ResetLeavesTheCoreIdleAndUnwritten
  intro s t ht
  have hreset : AtReset s.hardwareReset := reset_atReset
  rcases List.mem_pair.mp ht with rfl | rfl
  · exact reset_atReset
  · exact hreset

/-! ## The invariant between two commands -/

/-- Settles O8: the pins and `irq_inhibit` are at their reset values, the session and the buffer empty. -/
theorem resetMeetsTheIdleInvariant : Obligations.ResetMeetsTheIdleInvariant := by
  unfold Obligations.ResetMeetsTheIdleInvariant
  obtain ⟨hddr, hout, hinhibit, -⟩ := reset_atReset
  exact ⟨⟨hddr, hout, hinhibit⟩, ⟨Nat.zero_le 1024, Memory.reset_wf, nofun⟩, rfl⟩

variable {s t : State}

theorem Idle.congr (h : Idle s) (hddr : t.ddr = s.ddr) (hout : t.out = s.out)
    (hinhibit : t.irqInhibit = s.irqInhibit) : Idle t := by
  rwa [Idle, hddr, hout, hinhibit]

theorem SessionOk.congr (h : SessionOk s) (hlen : t.tsLength = s.tsLength) (hvs : t.vs = s.vs) :
    SessionOk t := by
  rwa [SessionOk, hlen, hvs]

/-- A run ends idle, whatever the pins were before it (R284). -/
theorem runBody_idle (P : Params) (E : Env) (e : Byte) (s : State) : Idle (runBody P E e s) :=
  ⟨fun b => (runBody_ports P E e s b).1, fun b => (runBody_ports P E e s b).2, by rw [runBody_update]⟩

theorem upload_sessionOk (type : SessionType) {n : Nat} (vectors : List Vec) (s : State)
    (hn : n ≤ maxVectors) : SessionOk (upload type n vectors s) := by
  have hn : n ≤ 1024 := hn
  have hlen : (upload type n vectors s).tsLength.toNat = n :=
    Nat.mod_eq_of_lt (show n < 2048 by omega)
  obtain ⟨hwf, hbound⟩ := upload_session s type n vectors hn
  exact ⟨by omega, hwf, by rwa [hlen]⟩

/-- What a command that completes keeps, and that the CORE then waits for the next one. -/
structure CompletesIdle (s t : State) : Prop where
  idle : Idle s → Idle t
  session : SessionOk s → SessionOk t
  phase : t.phase = .waitCmd
  cmdBuf : t.cmdBuf = s.cmdBuf

theorem exec_completesIdle (i : Instr) (h : exec i s = .next t) : CompletesIdle s t := by
  rcases exec_next s i t h with
    ⟨low, banks, -, rfl⟩ | ⟨low, ty, hi, lo, vectors, type, -, -, hlen, rfl⟩ |
    ⟨low, e, -, -, -, -, rfl⟩ | ⟨-, rfl⟩
  case inl => exact ⟨id, id, rfl, rfl⟩
  case inr.inl => exact ⟨id, fun _ => upload_sessionOk type vectors s hlen, rfl, rfl⟩
  case inr.inr.inl =>
    obtain ⟨-, -, -, klen, -, kvs⟩ := runBody_keeps_config_and_session Config.params Config.env e s
    have hE := runEnd_effect s Config.params Config.env e
    refine ⟨fun _ => runBody_idle _ _ e s, fun hs => hs.congr klen kvs, ?_, ?_⟩
    · rw [runBody_update]
    · rw [runBody_update]
      exact hE.cmdBuf.trans (runStart_cmdBuf s)
  case inr.inr.inr => exact ⟨id, id, rfl, rfl⟩

/-- Settles O9: a command leaves nothing in the reception buffer and the CORE waiting for the next one; bytes
that are no whole command are kept with the phase they name. -/
theorem stepKeepsTheIdleInvariant : Obligations.StepKeepsTheIdleInvariant := by
  unfold Obligations.StepKeepsTheIdleInvariant
  intro s t hs h
  rcases step_next s t h with ⟨i, rest, -, h⟩ | ⟨p, hmore, rfl⟩
  · have hdone := exec_completesIdle i h
    refine ⟨hdone.idle (hs.idle.congr rfl rfl rfl), hdone.session (hs.session.congr rfl rfl), ?_⟩
    rw [Waiting, hdone.cmdBuf, hdone.phase]
    rfl
  · exact ⟨hs.idle.congr rfl rfl rfl, hs.session.congr rfl rfl, hmore⟩

/-! ## What the history accounts for (spec/10_state.md R26, spec/60_exceptions.md R257) -/

/-- `t` comes after `s` by the events `es`, which account for the pins, the replies and `irq_inhibit`. -/
structure AccountedBy (s t : State) (es : List Event) : Prop where
  history : t.history = s.history ++ es
  pins : (⟨t.ddr, t.out⟩ : Pins) = Pins.afterAll ⟨s.ddr, s.out⟩ es
  replies : t.tx = s.tx ++ repliesIn es
  inhibit : t.irqInhibit = inhibitAfter s.irqInhibit es

/-- `t` comes after `s` by events that account for what the outside sees. -/
def Accounted (s t : State) : Prop := ∃ es, AccountedBy s t es

theorem Accounted.trans {u : State} (h : Accounted s t) (k : Accounted t u) : Accounted s u := by
  obtain ⟨es, hh, hp, hr, hi⟩ := h
  obtain ⟨fs, kh, kp, kr, ki⟩ := k
  refine ⟨es ++ fs, ?_, ?_, ?_, ?_⟩
  · rw [kh, hh, List.append_assoc]
  · rw [kp, hp, Pins.afterAll_append]
  · rw [kr, hr, repliesIn_append, List.append_assoc]
  · rw [ki, hi, inhibitAfter_append]

/-- An update of registers that the outside does not see. -/
theorem Accounted.of_silent (hh : t.history = s.history) (hddr : t.ddr = s.ddr) (hout : t.out = s.out)
    (htx : t.tx = s.tx) (hinhibit : t.irqInhibit = s.irqInhibit) : Accounted s t :=
  ⟨[], by rw [hh, List.append_nil], by rw [hddr, hout]; rfl, by rw [htx]; exact (List.append_nil _).symm,
    hinhibit⟩

theorem setPhase_accounted (p : Phase) (s : State) : Accounted s (setPhase p s) :=
  .of_silent rfl rfl rfl rfl rfl

theorem storeConfig_accounted (c : PerBank PinBank) (s : State) : Accounted s (storeConfig c s) :=
  .of_silent rfl rfl rfl rfl rfl

theorem upload_accounted (type : SessionType) (n : Nat) (vectors : List Vec) (s : State) :
    Accounted s (upload type n vectors s) := .of_silent rfl rfl rfl rfl rfl

theorem takeCommand_accounted (rest : List Byte) (s : State) : Accounted s (takeCommand rest s) :=
  .of_silent rfl rfl rfl rfl rfl

theorem awaitBytes_accounted (p : Phase) (s : State) : Accounted s (awaitBytes p s) :=
  .of_silent rfl rfl rfl rfl rfl

theorem EngineEffect.accounted (h : EngineEffect s t) : Accounted s t := by
  obtain ⟨es, hengine, hhistory, hpins, -⟩ := h.events
  obtain ⟨hreplies, hinhibit⟩ := engineEvents_silent es hengine
  exact ⟨es, hhistory, hpins, by rw [hreplies, List.append_nil, h.tx], by rw [hinhibit, h.irqInhibit]⟩

theorem setInhibit_accounted (v : Bool) (s : State) : Accounted s (setInhibit v s) :=
  ⟨[.inh v], rfl, rfl, (List.append_nil _).symm, rfl⟩

theorem reply_accounted (P : Params) (r : Result) (s : State) : Accounted s (reply P r s) :=
  ⟨[.tx (resultByte P r)], rfl, rfl, rfl, rfl⟩

theorem configure_accounted (s : State) : Accounted s (configure s) :=
  (setDir_effect _ _ _).accounted.trans
    ((setDir_effect _ _ _).accounted.trans (setDir_effect _ _ _).accounted)

theorem resetPins_accounted (s : State) : Accounted s (resetPins s) := by
  rw [resetPins_eq]
  exact ⟨resetEvents, rfl, rfl, (List.append_nil _).symm, rfl⟩

theorem runStart_accounted (s : State) : Accounted s (runStart s) :=
  (setPhase_accounted .running s).trans
    ((setInhibit_accounted true (setPhase .running s)).trans (configure_accounted _))

theorem endRun_accounted (P : Params) (v : Verdict) (s : State) : Accounted s (endRun P v s) :=
  (resetPins_accounted s).trans
    ((setInhibit_accounted false _).trans
      ((setPhase_accounted .reply _).trans (reply_accounted P (verdictResult v) _)))

theorem runBody_accounted (P : Params) (E : Env) (e : Byte) (s : State) :
    Accounted s (runBody P E e s) :=
  (runStart_accounted s).trans ((runEnd_effect s P E e).accounted.trans (endRun_accounted P _ _))

theorem exec_accounted (i : Instr) (h : exec i s = .next t) : Accounted s t := by
  rcases exec_next s i t h with
    ⟨low, banks, -, rfl⟩ | ⟨low, ty, hi, lo, vectors, type, -, -, -, rfl⟩ |
    ⟨low, e, -, -, -, -, rfl⟩ | ⟨-, rfl⟩
  case inl => exact (storeConfig_accounted banks s).trans (reply_accounted _ _ _)
  case inr.inl => exact (upload_accounted type _ vectors s).trans (reply_accounted _ _ _)
  case inr.inr.inl => exact runBody_accounted _ _ e s
  case inr.inr.inr => exact reply_accounted _ _ s

/-- Settles O10: a command's events account for it from start to end, and taking bytes leaves no event. -/
theorem historyAccountsForPinsAndReplies : Obligations.HistoryAccountsForPinsAndReplies := by
  unfold Obligations.HistoryAccountsForPinsAndReplies
  intro s t h
  have haccounted : Accounted s t := by
    rcases step_next s t h with ⟨i, rest, -, h⟩ | ⟨p, -, rfl⟩
    · exact (takeCommand_accounted rest s).trans (exec_accounted i h)
    · exact awaitBytes_accounted p s
  obtain ⟨es, hhistory, hpins, hreplies, hinhibit⟩ := haccounted
  exact ⟨es, hhistory, hpins, hreplies, hinhibit⟩

end Sys2Proof.Machine
end

section
/-! PROOFS. The logic engine's runs (spec/42_generic_logic_comparator.md R161 to R167): which engine runs
(spec/41_vector_sequencer.md R147), where a run ends (R165), the empty session (R167) and the number of a
passing run's events (spec/95_test_vectors.md section 2.3). -/

namespace Sys2Proof.Machine

/-! ## The engine that runs (spec/41_vector_sequencer.md R147) -/

theorem runEngine_of_memory (P : Params) (E : Env) {s : State} (h : s.tsType = .memory) :
    runEngine P E s = dramEngine P E s := by simp only [runEngine, h]

theorem runEngine_of_logic (P : Params) (E : Env) {s : State} (h : s.tsType ≠ .memory) :
    runEngine P E s = runLogic E s := by
  cases hty : s.tsType with
  | combinational => simp only [runEngine, hty]
  | sequential => simp only [runEngine, hty]
  | memory => exact absurd hty h

/-- Settles O28: the session's type alone chooses the arm of `runEngine`. -/
theorem engineIsSelectedByTypeAlone : Obligations.EngineIsSelectedByTypeAlone := by
  unfold Obligations.EngineIsSelectedByTypeAlone
  intro P E s
  exact ⟨runEngine_of_memory P E, fun h => runEngine_of_logic P E (by simp [h]),
    fun h => runEngine_of_logic P E (by simp [h])⟩

/-! ## Where a logic run ends (R161, R165) -/

/-- The run stands at a checked vector of the session `s`, before vector `hi`, with the output registers as
that vector drove them. -/
structure StandsAtMismatch (s : State) (hi : Nat) (t : State) : Prop where
  pos_lt : t.pos.toNat < hi
  checked : samples s.tsType t.pos = true
  out : ∀ b, t.out.get b = driveByte (s.pb.get b) ((getVector s t.pos.toNat).get b)

theorem StandsAtMismatch.congr {s s' t : State} {hi : Nat} (h : StandsAtMismatch s' hi t)
    (hpb : s'.pb = s.pb) (hty : s'.tsType = s.tsType) (hvs : s'.vs = s.vs) :
    StandsAtMismatch s hi t := by
  obtain ⟨hpos, hchecked, hout⟩ := h
  rw [hty] at hchecked
  simp only [hpb, getVector_congr hvs] at hout
  exact ⟨hpos, hchecked, hout⟩

theorem driveVector_out (v : Vec) (s : State) (b : Bank) :
    (driveVector v s).out.get b = driveByte (s.pb.get b) (v.get b) := by
  rw [driveVector_eq]
  cases b <;> rfl

theorem applyVector_out (E : Env) (s : State) (b : Bank) :
    (applyVector E s).1.out.get b =
      driveByte (s.pb.get b) ((getVector s s.pos.toNat).get b) := by
  rw [(applyVector_readOnly E s).out, driveVector_out]

/-- Only a checked vector can fail. -/
theorem samples_of_applyVector_fail {E : Env} {s : State} (h : (applyVector E s).2 = .fail) :
    samples s.tsType s.pos = true := by
  by_contra hunchecked
  simp [applyVector, hunchecked] at h

theorem pos_succ_toNat {n : Nat} {s : State} (hn : s.pos.toNat + (n + 1) < 2048) :
    (s.pos + 1).toNat = s.pos.toNat + 1 := by
  rw [BitVec.toNat_add, show (1 : BitVec 11).toNat = 1 from rfl]
  omega

/-- The loop from `pos` on, as long as `pos` does not wrap: it ends at a mismatch or past the last vector. -/
theorem logicLoop_end (E : Env) (n : Nat) (s : State) (hn : s.pos.toNat + n < 2048) :
    ((logicLoop E n s).2 = .fail → StandsAtMismatch s (s.pos.toNat + n) (logicLoop E n s).1) ∧
    ((logicLoop E n s).2 = .pass → (logicLoop E n s).1.pos.toNat = s.pos.toNat + n) := by
  induction n generalizing s with
  | zero => exact ⟨nofun, fun _ => rfl⟩
  | succ n ih =>
    cases hv : (applyVector E s).2 with
    | fail =>
      have hpos := applyVector_pos E s
      rw [logicLoop_succ_of_fail n hv, hv]
      refine ⟨fun _ => ⟨by rw [hpos]; omega, ?_, fun b => ?_⟩, nofun⟩
      · rw [hpos, samples_of_applyVector_fail hv]
      · rw [hpos, applyVector_out]
    | pass =>
      have hframe := applyVector_closed (logic_effect E) s
      have hnext := pos_succ_toNat hn
      obtain ⟨hfail, hpass⟩ := ih (setPos (s.pos + 1) (applyVector E s).1)
        (by rw [setPos_pos, hnext]; omega)
      rw [setPos_pos, hnext, show s.pos.toNat + 1 + n = s.pos.toNat + (n + 1) by omega] at hfail hpass
      rw [logicLoop_succ_of_pass n hv]
      exact ⟨fun h => (hfail h).congr hframe.pb hframe.tsType hframe.vs, hpass⟩

/-- Settles O32: the loop from vector 0 on, over the session's length. -/
theorem mismatchEndsTheLogicRun : Obligations.MismatchEndsTheLogicRun := by
  unfold Obligations.MismatchEndsTheLogicRun
  intro E s r
  have hlen : s.tsLength.toNat < 2048 := s.tsLength.isLt
  have hzero : (setPos 0 s).pos.toNat = 0 := rfl
  obtain ⟨hfail, hpass⟩ := logicLoop_end E s.tsLength.toNat (setPos 0 s) (by omega)
  rw [hzero, Nat.zero_add] at hfail hpass
  refine ⟨fun h => ?_, fun h => BitVec.eq_of_toNat_eq (hpass h)⟩
  obtain ⟨hpos, hchecked, hout⟩ := hfail h
  exact ⟨hpos, hchecked, hout⟩

/-! ## The number of events of a passing run -/

/-- Vector `p` of a session of this type is checked (R163). -/
abbrev Checked (ty : SessionType) (p : Nat) : Prop := samples ty (BitVec.ofNat 11 p) = true

/-- A vector that passes leaves four events, and three reads if it is checked. -/
theorem applyVector_history_length {E : Env} {s : State} {p : Nat} (hp : p < 2048)
    (hpos : s.pos = BitVec.ofNat 11 p) (hpass : (applyVector E s).2 = .pass) :
    (applyVector E s).1.history.length =
      s.history.length + 4 + if Checked s.tsType p then 3 else 0 := by
  obtain ⟨xs, hevents, hpasses, -⟩ := applyVector_spec E p s hp hpos
  obtain ⟨hlen, -⟩ := hpasses hpass
  dsimp only at hlen
  have hle : xs.length ≤ 3 := by rw [hlen]; split <;> omega
  have hreads : (List.zipWith Event.rd [.b0, .b1, .b2] xs).length = xs.length := by
    rw [List.length_zipWith]
    exact Nat.min_eq_right hle
  rw [hevents, eventsAt, vectorEvents, List.length_append, List.length_append, hreads, ← hlen]
  exact (Nat.add_assoc _ _ _).symm

/-- The loop from vector `p` on: each vector's four events, and three more for each checked one. -/
theorem logicLoop_history_length (E : Env) (n p : Nat) (s : State) (hn : p + n < 2048)
    (hpos : s.pos = BitVec.ofNat 11 p) (hpass : (logicLoop E n s).2 = .pass) :
    (logicLoop E n s).1.history.length + 3 * Nat.count (Checked s.tsType) p =
      s.history.length + 4 * n + 3 * Nat.count (Checked s.tsType) (p + n) := by
  induction n generalizing p s with
  | zero => rfl
  | succ n ih =>
    cases hv : (applyVector E s).2 with
    | fail =>
      rw [logicLoop_succ_of_fail n hv, hv] at hpass
      cases hpass
    | pass =>
      rw [logicLoop_succ_of_pass n hv] at hpass ⊢
      have hrest := ih (p + 1) (setPos (s.pos + 1) (applyVector E s).1) (by omega)
        (by rw [setPos_pos, hpos, BitVec.ofNat_add]; rfl) hpass
      have hty := (applyVector_closed (logic_effect E) s).tsType
      have hfirst := applyVector_history_length (by omega) hpos hv
      rw [setPos_tsType, hty, setPos_history, hfirst, Nat.count_succ,
        show p + 1 + n = p + (n + 1) by omega] at hrest
      split_ifs at hrest <;> omega

theorem count_checked_combinational (n : Nat) : Nat.count (Checked .combinational) n = n :=
  Nat.count_of_forall fun _ _ => rfl

theorem count_checked_sequential {n : Nat} (hn : n ≤ 2048) : Nat.count (Checked .sequential) n = n / 2 := by
  induction n with
  | zero => rfl
  | succ n ih =>
    have hchecked : Checked .sequential n ↔ n % 2 = 1 := by
      rw [Checked, samples_ofNat_iff (by simp) (by omega)]
      simp
    rw [Nat.count_succ, ih (by omega), if_congr hchecked rfl rfl]
    split <;> omega

theorem runLogic_history_length {E : Env} {s : State} (hpass : (runLogic E s).2 = .pass) :
    (runLogic E s).1.history.length =
      s.history.length + 4 * s.tsLength.toNat + 3 * Nat.count (Checked s.tsType) s.tsLength.toNat := by
  have hlen : s.tsLength.toNat < 2048 := s.tsLength.isLt
  have h := logicLoop_history_length E s.tsLength.toNat 0 (setPos 0 s) (by omega) rfl hpass
  rwa [Nat.count_zero, Nat.zero_add] at h

/-- Settles O35: every vector is checked, or every other one. -/
theorem passingLogicRunEventCount : Obligations.PassingLogicRunEventCount := by
  unfold Obligations.PassingLogicRunEventCount
  intro E s hpass
  have hlen : s.tsLength.toNat < 2048 := s.tsLength.isLt
  have h := runLogic_history_length hpass
  refine ⟨fun hty => ?_, fun hty => ?_⟩
  · rw [hty, count_checked_combinational] at h
    omega
  · rw [h, hty, count_checked_sequential hlen.le]

/-! ## The empty session (R167) -/

/-- The session is an empty logic session. -/
structure EmptyLogicSession (s : State) : Prop where
  logic : s.tsType ≠ .memory
  length : s.tsLength = 0

/-- One execution over no vector passes and does nothing but set `pos`. -/
theorem runEngine_of_empty (P : Params) (E : Env) {s : State} (h : EmptyLogicSession s) :
    runEngine P E s = (setPos 0 s, .pass) := by
  rw [runEngine_of_logic P E h.logic, runLogic, h.length]
  rfl

/-- Repetitions over no vector pass, leave no event, and count `rep` down. -/
theorem repeatLoop_of_empty (P : Params) (E : Env) (n : Nat) {s : State} (h : EmptyLogicSession s) :
    (repeatLoop (runEngine P E) n s).2 = .pass ∧
      (repeatLoop (runEngine P E) n s).1.history = s.history ∧
      (repeatLoop (runEngine P E) n s).1.rep = s.rep - BitVec.ofNat 16 n := by
  induction n generalizing s with
  | zero => exact ⟨rfl, rfl, by simp [repeatLoop]⟩
  | succ n ih =>
    have hone := runEngine_of_empty P E h
    rw [repeatLoop_succ_of_pass n s (by rw [hone]), hone]
    obtain ⟨hpass, hhistory, hrep⟩ := ih
      (s := setRep (s.rep - 1) (setResult .pass (setPos 0 s))) ⟨h.logic, h.length⟩
    refine ⟨hpass, hhistory, hrep.trans ?_⟩
    rw [setRep_rep, BitVec.ofNat_add]
    bv_omega

theorem runEnd_of_empty (P : Params) (E : Env) (e : Byte) {s : State} (h : EmptyLogicSession s) :
    (runEnd P E e s).result = .pass ∧ (runEnd P E e s).history = (runStart s).history ∧
      (runEnd P E e s).rep = 0#16 := by
  have hstart : EmptyLogicSession (setRep (BitVec.ofNat 16 (repetitions e)) (runStart s)) := by
    refine ⟨?_, ?_⟩
    · rw [setRep_tsType, runStart_tsType]
      exact h.logic
    · rw [setRep_tsLength, runStart_tsLength, h.length]
  obtain ⟨hpass, hhistory, hrep⟩ := repeatLoop_of_empty P E (repetitions e) hstart
  refine ⟨(runEnd_result P E e s).trans hpass, hhistory, hrep.trans ?_⟩
  rw [setRep_rep, BitVec.sub_self]

/-- Settles O34: no repetition over an empty session leaves an event, and `rep` counts all of them down. -/
theorem emptySessionPassesAtEveryExponent : Obligations.EmptySessionPassesAtEveryExponent := by
  unfold Obligations.EmptySessionPassesAtEveryExponent
  intro low e s he hpb hts hty hlen
  obtain ⟨hresult, hhistory, hrep⟩ := runEnd_of_empty Config.params Config.env e ⟨hty, hlen⟩
  refine ⟨_, exec_run_of_ready low he hpb hts, ?_, ?_, ?_⟩
  · rw [runBody_tx, hresult]
    rfl
  · rw [runBody_history (es := []) (by rw [hhistory, List.append_nil]), hresult, List.append_nil]
    rfl
  · rw [runBody_update]
    exact hrep

end Sys2Proof.Machine
end

section
/-! PROOFS. The DRAM engine's operations (spec/43_dram_engine.md): the address split (R185), the bits of the
bus (R181, R182, R184), `memSetup` (R190), `testBit` (R195 to R197), the column delay before every read
(R187), and the full test on an ideal DRAM (R210 to R213, spec/95_test_vectors.md section 2.4). -/

namespace Sys2Proof.Machine

/-! ## The address split (R185) -/

theorem rowOf_append_colOf (addr : BitVec 16) : rowOf addr ++ colOf addr = addr := by
  rw [rowOf, colOf, BitVec.extractLsb'_append_extractLsb'_eq_extractLsb' (show 8 = 0 + 8 from rfl)]
  exact BitVec.extractLsb'_eq_self

theorem highField_toNat (h : Byte) : (highField h).toNat = h.toNat / 8 := by
  revert h; decide

theorem lowField_toNat (h : Byte) : (lowField h).toNat = h.toNat % 8 := by
  revert h; decide

/-- Settles O36: the halves are two adjacent extracts, and so are the fields of each half. -/
theorem addressSplitsIntoRowAndColumn : Obligations.AddressSplitsIntoRowAndColumn := by
  unfold Obligations.AddressSplitsIntoRowAndColumn
  exact ⟨rowOf_append_colOf, fun h => ⟨highField_append_lowField h, highField_toNat h, lowField_toNat h⟩⟩

/-! ## The bits of the bus (R181, R182, R184) -/

/-- A field of width `w` from bit `k` on, as the statements write it. -/
theorem fieldBit_eq_ite {w : Nat} (a : BitVec w) (k i : Nat) :
    fieldBit a k i = if k ≤ i ∧ i < k + w then a.getLsbD (i - k) else false := by
  split_ifs with h
  · rw [fieldBit, decide_eq_true h.1, Bool.true_and]
  · exact fieldBit_outside a (by omega)

theorem fieldBit_allOnes {w : Nat} (k i : Nat) :
    fieldBit (BitVec.allOnes w) k i = decide (k ≤ i ∧ i < k + w) := by
  rw [fieldBit_eq_ite]
  split_ifs with h
  · rw [BitVec.getLsbD_allOnes, decide_eq_true h]
    exact decide_eq_true (by omega)
  · rw [decide_eq_false h]

section Bits

variable {P : Params} (hP : BusBits P) (m : MBus) {i : Nat} (hi : i < 8)
include hP hi

theorem busL_bit :
    (busL P m).getLsbD i =
      if i = P.lWe then m.we else if i = P.lRas then m.ras else if i = P.lDin then m.din
      else if P.lAPos ≤ i ∧ i < P.lAPos + 3 then m.aL.getLsbD (i - P.lAPos) else false := by
  by_cases hwe : i = P.lWe
  · rw [if_pos hwe, hwe, busL_we hP]
  by_cases hras : i = P.lRas
  · rw [if_neg hwe, if_pos hras, hras, busL_ras hP]
  by_cases hdin : i = P.lDin
  · rw [if_neg hwe, if_neg hras, if_pos hdin, hdin, busL_din hP]
  · rw [if_neg hwe, if_neg hras, if_neg hdin, ← fieldBit_eq_ite, busL_getLsbD P m hi]
    simp [hwe, hras, hdin]

theorem busH_bit :
    (busH P m).getLsbD i =
      if i = P.hCas then m.cas
      else if P.hAPos ≤ i ∧ i < P.hAPos + 5 then m.aH.getLsbD (i - P.hAPos) else false := by
  by_cases hcas : i = P.hCas
  · rw [if_pos hcas, hcas, busH_cas hP]
  · rw [if_neg hcas, ← fieldBit_eq_ite, busH_getLsbD P m hi]
    simp [hcas]

end Bits

theorem dirL_bit (P : Params) {i : Nat} (hi : i < 8) :
    (dirL P).getLsbD i =
      decide (i = P.lWe ∨ i = P.lRas ∨ i = P.lDin ∨ (P.lAPos ≤ i ∧ i < P.lAPos + 3)) := by
  rw [dirL_eq_busL, busL_getLsbD P highBus hi, highBus, fieldBit_allOnes]
  simp only [Bool.and_true, ← Bool.decide_or]
  exact decide_eq_decide.mpr (by omega)

theorem dirH_bit (P : Params) {i : Nat} (hi : i < 8) :
    (dirH P).getLsbD i = decide (i = P.hCas ∨ (P.hAPos ≤ i ∧ i < P.hAPos + 5)) := by
  rw [dirH_eq_busH, busH_getLsbD P highBus hi, highBus, fieldBit_allOnes]
  simp only [Bool.and_true, ← Bool.decide_or]
  exact decide_eq_decide.mpr (by omega)

/-- Settles O37: the signals' positions are distinct, so at each bit at most one of them is not 0. -/
theorem busSignalsHaveTheirOwnBits : Obligations.BusSignalsHaveTheirOwnBits := by
  unfold Obligations.BusSignalsHaveTheirOwnBits
  intro P m hvalid
  have hP := busBits_of_valid hvalid
  exact ⟨fun _ hi => busL_bit hP m hi, fun _ hi => busH_bit hP m hi, fun _ hi => dirL_bit P hi,
    fun _ hi => dirH_bit P hi⟩

/-! ## `memSetup` and `testBit` (R190, R195 to R197) -/

theorem memSetupEvents_length (P : Params) : (memSetupEvents P).length = 29 := rfl

/-- Settles O38: `memSetup` in one update. -/
theorem memSetupLeavesTheBusIdle : Obligations.MemSetupLeavesTheBusIdle := by
  unfold Obligations.MemSetupLeavesTheBusIdle
  exact fun P s hbanks => ⟨memSetupEvents_length P, memSetup_eq P s hbanks⟩

/-- The write cycle of a bit test, from the strobes idle to the strobes idle (R195). -/
theorem writeCycle_spec (P : Params) (addr : BitVec 16) (d : Bool) (s : State)
    (hidle : StrobesIdle s.mbus) :
    let t := closeRow P (writeCol P (colOf addr) d (openRow P (rowOf addr) s))
    t.history = s.history ++ (openRowEvents P (rowOf addr) s.mbus.din ++
        writeColEvents P (colOf addr) d ++ closeRowEvents P (colOf addr) d) ∧
      StrobesIdle t.mbus ∧ t.mbus.din = d := by
  obtain ⟨hwe, hras, hcas⟩ := hidle
  refine ⟨?_, ⟨rfl, rfl, rfl⟩, rfl⟩
  rw [closeRow_history, writeCol_history, openRow_history, writeCol_mbus, openRow_mbus, hwe, hras, hcas]
  simp only [List.append_assoc]
  rfl

/-- The read cycle of a bit test, from the strobes idle and `DIN` at `d` to the strobes idle (R196). -/
theorem readCycle_spec (P : Params) (E : Env) (addr : BitVec 16) (d : Bool) (s : State)
    (hidle : StrobesIdle s.mbus) (hdin : s.mbus.din = d) :
    let r := readCol P E (colOf addr) (openRow P (rowOf addr) s)
    ∃ x, r.2 = x.getLsbD P.hDout ∧
      (closeRow P r.1).history = s.history ++ (openRowEvents P (rowOf addr) d ++
        readColEvents P (colOf addr) d x ++ closeRowEvents P (colOf addr) d) ∧
      StrobesIdle (closeRow P r.1).mbus := by
  obtain ⟨hwe, hras, hcas⟩ := hidle
  obtain ⟨x, hbit, hread⟩ := readCol_history P E (openRow P (rowOf addr) s) (colOf addr)
  refine ⟨x, hbit, ?_, ⟨hwe, rfl, rfl⟩⟩
  rw [closeRow_history, hread, openRow_history, readCol_mbus, openRow_mbus, hwe, hras, hcas, hdin]
  simp only [List.append_assoc]
  rfl

/-- Settles O39, by the write cycle and the read cycle one after the other. -/
theorem testBitWritesThenReadsBack : Obligations.TestBitWritesThenReadsBack := by
  unfold Obligations.TestBitWritesThenReadsBack
  intro P E addr d s hidle
  obtain ⟨hwrite, hidle', hdin⟩ := writeCycle_spec P addr d s hidle
  obtain ⟨x, hbit, hread, hstrobes⟩ := readCycle_spec P E addr d _ hidle' hdin
  refine ⟨x, ?_, ?_, hstrobes⟩
  · rw [testBit, hread, hwrite]
  · rw [testBit, bitVerdict_pass, hbit]

/-! ## The column delay before every read (R187) -/

/-- Every read among the events is of port H, right after the column delay, which is right after a write of
port H with the column strobe low. -/
def ReadsWait (P : Params) (es : List Event) : Prop :=
  ∀ (before after : List Event) (b : Bank) (x : Byte), es = before ++ .rd b x :: after →
    b = P.memHBank ∧ ∃ first aH, before = first ++ [writesH P aH false, .dly .cac]

theorem ReadsWait.of_no_read {P : Params} {es : List Event} (h : ∀ b x, Event.rd b x ∉ es) :
    ReadsWait P es := by
  rintro before after b x rfl
  exact absurd (by simp) (h b x)

theorem ReadsWait.append {P : Params} {es fs : List Event} (h : ReadsWait P es) (k : ReadsWait P fs) :
    ReadsWait P (es ++ fs) := by
  intro before after b x heq
  rcases List.append_eq_append_iff.mp heq with ⟨as, rfl, hfs⟩ | ⟨bs, hes, hrest⟩
  · obtain ⟨hb, first, aH, rfl⟩ := k as after b x hfs
    exact ⟨hb, es ++ first, aH, by rw [List.append_assoc]⟩
  · cases bs with
    | nil =>
      obtain ⟨-, first, aH, hfirst⟩ := k [] after b x (by simpa using hrest.symm)
      simp at hfirst
    | cons e bs =>
      obtain ⟨rfl, -⟩ : Event.rd b x = e ∧ _ := by simpa using hrest
      exact h before bs b x hes

theorem readsWait_strobe_delay_read (P : Params) (aH : BitVec 5) (x : Byte) :
    ReadsWait P [writesH P aH false, .dly .cac, .rd P.memHBank x] := by
  intro before after b y heq
  rcases before with _ | ⟨e₀, _ | ⟨e₁, _ | ⟨e₂, before⟩⟩⟩
  · simp [writesH] at heq
  · simp at heq
  · obtain ⟨rfl, rfl, ⟨rfl, rfl⟩, -⟩ : _ = e₀ ∧ _ = e₁ ∧ (P.memHBank = b ∧ x = y) ∧ _ := by
      simpa using heq
    exact ⟨rfl, [], aH, rfl⟩
  · simp at heq

/-- The second state comes after the first by events whose reads wait for the column delay. -/
def MovesReadsWaiting (P : Params) (s t : State) : Prop :=
  ∃ es, t.history = s.history ++ es ∧ ReadsWait P es

theorem MovesReadsWaiting.trans {P : Params} {s t u : State} (h : MovesReadsWaiting P s t)
    (k : MovesReadsWaiting P t u) : MovesReadsWaiting P s u := by
  obtain ⟨es, hes, hw⟩ := h
  obtain ⟨fs, hfs, kw⟩ := k
  exact ⟨es ++ fs, by rw [hfs, hes, List.append_assoc], hw.append kw⟩

/-- A move that reads nothing. -/
theorem MovesReadsWaiting.of_no_read {P : Params} {s t : State} (es : List Event)
    (hhistory : t.history = s.history ++ es) (h : ∀ b x, Event.rd b x ∉ es) : MovesReadsWaiting P s t :=
  ⟨es, hhistory, .of_no_read h⟩

/-- A move that leaves no event. -/
theorem MovesReadsWaiting.of_silent {P : Params} {s t : State} (hhistory : t.history = s.history) :
    MovesReadsWaiting P s t :=
  .of_no_read [] (by rw [hhistory, List.append_nil]) (fun _ _ => List.not_mem_nil)

/-- The one operation that reads waits for the column delay before it does (R186, R187). -/
theorem readCol_movesReadsWaiting (P : Params) (E : Env) (c : Byte) (s : State) :
    MovesReadsWaiting P s (readCol P E c s).1 := by
  obtain ⟨x, -, hhistory⟩ := readCol_history P E s c
  refine ⟨[writesL P (lowField c) s.mbus.we s.mbus.ras s.mbus.din, writesH P (highField c) s.mbus.cas] ++
    [writesH P (highField c) false, .dly .cac, .rd P.memHBank x] ++ [writesH P (highField c) true],
    hhistory, ?_⟩
  exact (ReadsWait.append (.of_no_read (by simp [writesL, writesH]))
    (readsWait_strobe_delay_read P (highField c) x)).append (.of_no_read (by simp [writesH]))

theorem bus_movesReadsWaiting (P : Params) (E : Env) : BusClosed P E (MovesReadsWaiting P) where
  refl _ := .of_silent rfl
  trans := MovesReadsWaiting.trans
  openRow r s := .of_no_read _ (openRow_history P s r) (by simp [writesL, writesH])
  closeRow s := .of_no_read _ (closeRow_history P s) (by simp [writesL])
  writeCol c d s := .of_no_read _ (writeCol_history P s c d) (by simp [writesL, writesH])
  readCol := readCol_movesReadsWaiting P E
  col _ _ := .of_silent rfl
  row _ _ := .of_silent rfl
  pat _ _ := .of_silent rfl

section Setup

variable (P : Params) (s : State)

theorem portWrite_movesReadsWaiting (b : Bank) (v : Byte) : MovesReadsWaiting P s (portWrite b v s) :=
  .of_no_read [.wr b v] rfl (by simp)

theorem setDir_movesReadsWaiting (b : Bank) (v : Byte) : MovesReadsWaiting P s (setDir b v s) :=
  .of_no_read [.dir b v] rfl (by simp)

theorem delay_movesReadsWaiting (n : DelayName) : MovesReadsWaiting P s (delay n s) :=
  .of_no_read [.dly n] rfl (by simp)

theorem setMBus_movesReadsWaiting (v : MBus) : MovesReadsWaiting P s (setMBus v s) := .of_silent rfl

theorem setPulse_movesReadsWaiting (v : BitVec 4) : MovesReadsWaiting P s (setPulse v s) := .of_silent rfl

theorem setRas_writeL_movesReadsWaiting (v : Bool) : MovesReadsWaiting P s (writeL P (setRas v s)) :=
  (setMBus_movesReadsWaiting P s _).trans (portWrite_movesReadsWaiting P _ _ _)

theorem warmupLoop_movesReadsWaiting (n : Nat) : MovesReadsWaiting P s (warmupLoop P n s) := by
  induction n generalizing s with
  | zero => exact .of_silent rfl
  | succ n ih =>
    have hlow := (setRas_writeL_movesReadsWaiting P s false).trans (delay_movesReadsWaiting P _ .rasPw)
    have hhigh := hlow.trans (setRas_writeL_movesReadsWaiting P _ true)
    exact (hhigh.trans (setPulse_movesReadsWaiting P _ _)).trans (ih _)

theorem memSetup_movesReadsWaiting : MovesReadsWaiting P s (memSetup P s) := by
  have hlevels : MovesReadsWaiting P s (writeH P (writeL P (setMBus idleBus s))) :=
    ((setMBus_movesReadsWaiting P s _).trans (portWrite_movesReadsWaiting P _ _ _)).trans
      (portWrite_movesReadsWaiting P _ _ _)
  have hdirections := (hlevels.trans (setDir_movesReadsWaiting P _ P.memLBank (dirL P))).trans
    (setDir_movesReadsWaiting P _ P.memHBank (dirH P))
  have hdelay := hdirections.trans (delay_movesReadsWaiting P _ .powerUp)
  exact (hdelay.trans (setPulse_movesReadsWaiting P _ 0)).trans (warmupLoop_movesReadsWaiting P _ 8)

end Setup

/-- Settles O44: `memSetup` reads nothing, and of the bus operations `readCol` alone does. -/
theorem dramReadsWaitForTheColumnDelay : Obligations.DramReadsWaitForTheColumnDelay := by
  unfold Obligations.DramReadsWaitForTheColumnDelay
  intro P E s
  obtain ⟨es, hhistory, hwait⟩ :=
    (memSetup_movesReadsWaiting P s).trans ((bus_movesReadsWaiting P E).runMemory _)
  exact ⟨es, hhistory, hwait⟩

/-! ## The full test on an ideal DRAM (R210 to R213) -/

theorem columns_length : columns.length = 256 := by rw [columns, List.length_map, List.length_range]

/-- The write phase of a page: 5 events a column. -/
theorem pageWriteEvents_length (P : Params) (r : Byte) (d din : Bool) :
    (pageWriteEvents P r d din).length = 1284 := by
  have hcolumn : ∀ c : Byte, (writeColEvents P c d).length = 5 := fun _ => rfl
  rw [pageWriteEvents, List.length_append, List.length_append, List.length_flatMap]
  simp only [hcolumn, List.map_const', List.sum_replicate, columns_length]
  rfl

/-- The read phase of a page that passes: 6 events a column. -/
theorem pageReadEvents_length {P : Params} (r : Byte) {d : Bool} {xs : List Byte} (h : PagePasses P d xs) :
    (pageReadEvents P r d xs).length = 1540 := by
  have hcolumn : ∀ cx : Byte × Byte, (readColEvents P cx.1 d cx.2).length = 6 := fun _ => rfl
  rw [pageReadEvents, List.length_append, List.length_append, List.length_flatMap]
  simp only [hcolumn, List.map_const', List.sum_replicate, List.length_zip, columns_length, h.1]
  rfl

/-- Pages that pass leave 2824 events each. -/
theorem pagesEvents_length {P : Params} (ps : List ((Byte × Bool) × List Byte)) (din : Bool)
    (h : ∀ p ∈ ps, PagePassesAt P p) : (pagesEvents P din ps).length = 2824 * ps.length := by
  induction ps generalizing din with
  | nil => rfl
  | cons p ps ih =>
    obtain ⟨⟨r, d⟩, xs⟩ := p
    obtain ⟨hp, hps⟩ := List.forall_mem_cons.mp h
    rw [pagesEvents, List.length_append, List.length_append, ih d hps, List.length_cons,
      pageWriteEvents_length, pageReadEvents_length r hp]
    omega

/-- A passing `runMemory` tests all 512 pages in full. -/
theorem runMemory_history_length {P : Params} {E : Env} {s : State} (hidle : StrobesIdle s.mbus)
    (hpass : (runMemory P E s).2 = .pass) :
    (runMemory P E s).1.history.length = s.history.length + 1445888 := by
  obtain ⟨xss, hpages⟩ := runMemory_spec P E s hidle
  obtain ⟨hlen, hall⟩ := hpages.pass hpass
  rw [hpages.events, List.length_append, pagesEvents_length _ _ hall, List.length_zip, hlen, Nat.min_self,
    pages_length]

/-! ### The counters a passing page and a passing row leave (R206, R211) -/

theorem pageWriteLoop_pat (P : Params) (d : Bool) (n : Nat) (s : State) :
    (pageWriteLoop P d n s).pat = s.pat := by
  induction n generalizing s with
  | zero => rfl
  | succ n ih => rw [pageWriteLoop, ih, setCol_pat, (writeCol_counters P s _ d).2.2.1]

theorem pageReadLoop_counters {P : Params} {E : Env} {d : Bool} {n : Nat} {s : State}
    (hpass : (pageReadLoop P E d n s).2 = .pass) :
    (pageReadLoop P E d n s).1.col = s.col + BitVec.ofNat 9 n ∧
      (pageReadLoop P E d n s).1.pat = s.pat := by
  induction n generalizing s with
  | zero => exact ⟨(BitVec.add_zero s.col).symm, rfl⟩
  | succ n ih =>
    cases hv : bitVerdict (readCol P E (colByte s) s).2 d with
    | fail =>
      rw [pageReadLoop_succ_of_fail n hv] at hpass
      cases hpass
    | pass =>
      obtain ⟨-, -, hpat, -⟩ := readCol_counters P E s (colByte s)
      rw [pageReadLoop_succ_of_pass n hv] at hpass ⊢
      obtain ⟨hcol', hpat'⟩ := ih hpass
      refine ⟨hcol'.trans ?_, hpat'.trans hpat⟩
      rw [setCol_col, BitVec.add_assoc, BitVec.ofNat_add, BitVec.add_comm (BitVec.ofNat 9 n)]
      rfl

theorem patternPage_counters {P : Params} {E : Env} {d : Bool} {s : State}
    (hpass : (patternPage P E d s).2 = .pass) :
    (patternPage P E d s).1.col = 256#9 ∧ (patternPage P E d s).1.pat = d := by
  obtain ⟨hcol, hpat⟩ := pageReadLoop_counters hpass
  simp only [patternPage, testPage, pageRead]
  rw [(closeRow_counters P _).2.1, (closeRow_counters P _).2.2.1, hcol, hpat]
  refine ⟨rfl, ?_⟩
  rw [setCol_pat, (openRow_counters P _ _).2.2.1, pageWrite, (closeRow_counters P _).2.2.1,
    pageWriteLoop_pat, setCol_pat, (openRow_counters P _ _).2.2.1, setPat_pat]

/-! ### The rows in turn -/

theorem OnDram.setPat {P : Params} {cells₀ cells : Byte → Byte → Bool} {row : Byte} {s : State}
    (h : OnDram P cells₀ row cells s) (v : Bool) : OnDram P cells₀ row cells (setPat v s) := by
  obtain ⟨presented, hs⟩ := h
  exact ⟨presented, hs.pinScript, hs.dirH, hs.dram⟩

theorem OnDram.setRow {P : Params} {cells₀ cells : Byte → Byte → Bool} {row : Byte} {s : State}
    (h : OnDram P cells₀ row cells s) (v : BitVec 9) : OnDram P cells₀ row cells (setRow v s) := by
  obtain ⟨presented, hs⟩ := h
  exact ⟨presented, hs.pinScript, hs.dirH, hs.dram⟩

/-- Between two rows of the full test: the first `k` rows have been tested and hold a 1 in every cell. -/
structure RowsTested (P : Params) (cells₀ : Byte → Byte → Bool) (k : Nat) (s : State) : Prop where
  strobes : StrobesIdle s.mbus
  row : s.row.toNat = k
  onDram : ∃ row cells, OnDram P cells₀ row cells s ∧ ∀ r c : Byte, r.toNat < k → cells r c = true

/-- The counters at the end of a row: its last column and the second pattern. -/
def RowCountersFull (s : State) : Prop := s.col = 256#9 ∧ s.pat = true

theorem setColumns_full (cells : Byte → Byte → Bool) (row : Byte) (d : Bool) (r c : Byte) :
    setColumns cells row 0 256 d r c = if r = row then d else cells r c :=
  if_congr (and_iff_left ⟨Nat.zero_le _, c.isLt⟩) rfl rfl

section FullTest

variable {P : Params} (hP : BusBits P) {cells₀ : Byte → Byte → Bool} (draw : List Event → Bank → Byte)
include hP

/-- One pattern on one row: the page passes and leaves the row full of the pattern. -/
theorem OnDram.patternPage {row : Byte} {cells : Byte → Byte → Bool} {s : State}
    (h : OnDram P cells₀ row cells s) (hidle : StrobesIdle s.mbus) (d : Bool) :
    OnDram P cells₀ (rowByte s) (setColumns cells (rowByte s) 0 256 d)
        (patternPage P (idealDram P cells₀ draw) d s).1 ∧
      (patternPage P (idealDram P cells₀ draw) d s).2 = .pass ∧
      StrobesIdle (patternPage P (idealDram P cells₀ draw) d s).1.mbus := by
  obtain ⟨hdram, hpass⟩ := (h.setPat d).testPage hP draw hidle (rowByte s) d
  obtain ⟨xs, hpage⟩ := patternPage_spec P (idealDram P cells₀ draw) d s hidle
  exact ⟨hdram, hpass, hpage.strobes⟩

/-- A row passes with both patterns, and then holds a 1 in every cell. -/
theorem RowsTested.testRow {k : Nat} {s : State} (h : RowsTested P cells₀ k s) (hk : k < 256) :
    (testRow P (idealDram P cells₀ draw) s).2 = .pass ∧
      RowCountersFull (testRow P (idealDram P cells₀ draw) s).1 ∧
      RowsTested P cells₀ (k + 1) (Machine.setRow ((testRow P (idealDram P cells₀ draw) s).1.row + 1)
        (testRow P (idealDram P cells₀ draw) s).1) := by
  obtain ⟨hidle, hrow, row, cells, hdram, hcells⟩ := h
  obtain ⟨hzeros, hpass₀, hidle₀⟩ := hdram.patternPage hP draw hidle false
  obtain ⟨hones, hpass₁, hidle₁⟩ := hzeros.patternPage hP draw hidle₀ true
  have hbyte : (rowByte s).toNat = k := by
    rw [rowByte_eq, hrow, BitVec.toNat_ofNat, Nat.mod_eq_of_lt hk]
  rw [rowByte, patternPage_row, ← rowByte] at hones
  rw [testRow_of_pass hpass₀]
  refine ⟨hpass₁, patternPage_counters hpass₁, hidle₁, ?_, _, _, hones.setRow _, fun r c hr => ?_⟩
  · rw [setRow_row, patternPage_row, patternPage_row, BitVec.toNat_add, hrow,
      show (1 : BitVec 9).toNat = 1 from rfl]
    omega
  · rw [setColumns_full, setColumns_full]
    split_ifs with hlast
    · rfl
    · refine hcells r c ?_
      have hne : r.toNat ≠ k := fun heq => hlast (BitVec.eq_of_toNat_eq (heq.trans hbyte.symm))
      omega

/-- The `n` rows from row `k` on all pass. -/
theorem RowsTested.rowLoop {n k : Nat} {s : State} (h : RowsTested P cells₀ k s) (hn : k + n ≤ 256)
    (hfull : 0 < n ∨ RowCountersFull s) :
    (rowLoop P (idealDram P cells₀ draw) n s).2 = .pass ∧
      RowCountersFull (rowLoop P (idealDram P cells₀ draw) n s).1 ∧
      RowsTested P cells₀ (k + n) (rowLoop P (idealDram P cells₀ draw) n s).1 := by
  induction n generalizing k s with
  | zero => exact ⟨rfl, hfull.resolve_left (Nat.lt_irrefl 0), h⟩
  | succ n ih =>
    obtain ⟨hpass, hcounters, hnext⟩ := h.testRow hP draw (by omega)
    rw [rowLoop_succ_of_pass n hpass, show k + (n + 1) = k + 1 + n by omega]
    exact ih hnext (by omega) (.inr hcounters)

/-- The engine on an ideal DRAM, from any state. -/
theorem dramEngine_on_idealDram {s : State} (hscript : s.pinScript = []) :
    (dramEngine P (idealDram P cells₀ draw) s).2 = .pass ∧
      RowCountersFull (dramEngine P (idealDram P cells₀ draw) s).1 ∧
      RowsTested P cells₀ 256 (dramEngine P (idealDram P cells₀ draw) s).1 := by
  obtain ⟨row, cells, hdram⟩ := memSetup_onDram hP (cells₀ := cells₀) hscript
  have hstart : RowsTested P cells₀ 0 (Machine.setRow 0 (memSetup P s)) :=
    ⟨memSetup_strobesIdle hP.banks s, rfl, row, cells, hdram.setRow 0,
      fun _ _ hr => absurd hr (Nat.not_lt_zero _)⟩
  have hrows := hstart.rowLoop hP draw (n := 256) (Nat.le_refl 256) (.inl (by omega))
  rwa [Nat.zero_add] at hrows

end FullTest

/-- Settles O46: every row passes in turn, so all 512 pages are tested in full, and the last pattern written
in each row is 1. -/
theorem idealDramPassesTheFullTest : Obligations.IdealDramPassesTheFullTest := by
  unfold Obligations.IdealDramPassesTheFullTest
  intro P cells draw s hvalid hscript
  have hP := busBits_of_valid hvalid
  obtain ⟨hpass, ⟨hcol, hpat⟩, -, hrow, _, cells', ⟨_, hdram⟩, hcells⟩ :=
    dramEngine_on_idealDram hP (cells₀ := cells) draw hscript
  refine ⟨hpass, fun row col => ?_, ?_, BitVec.eq_of_toNat_eq hrow, hcol, hpat⟩
  · rw [hdram.dram.cells]
    exact hcells row col row.isLt
  · have hsetup : (memSetup P s).history.length = s.history.length + 29 := by
      rw [memSetup_eq P s hP.banks, List.length_append, memSetupEvents_length]
    have hrows := runMemory_history_length (memSetup_strobesIdle hP.banks s) hpass
    rw [dramEngine]
    omega

end Sys2Proof.Machine
end

section
/-! PROOFS. The abort path (spec/60_exceptions.md R259, R260): a run that fails ends in the execution of its
engine that failed, whose last read mismatches. -/

namespace Sys2Proof.Machine

/-! ## The execution that fails (spec/41_vector_sequencer.md R145, R146) -/

/-- A failing loop ends with the execution that failed, from a state the repetitions before it left. -/
theorem repeatLoop_fail {engine : State → State × Verdict} (hengine : ∀ s, EngineEffect s (engine s).1)
    {n : Nat} {s : State} (h : (repeatLoop engine n s).2 = .fail) :
    ∃ u, EngineEffect s u ∧ (engine u).2 = .fail ∧
      (repeatLoop engine n s).1 = setResult .fail (engine u).1 := by
  induction n generalizing s with
  | zero => cases h
  | succ n ih =>
    cases hv : (engine s).2 with
    | fail =>
      rw [repeatLoop_succ_of_fail n s hv]
      exact ⟨s, .refl s, hv, rfl⟩
    | pass =>
      rw [repeatLoop_succ_of_pass n s hv] at h ⊢
      obtain ⟨u, hu, hfail, hend⟩ := ih h
      have hnext : EngineEffect (engine s).1 (setRep ((engine s).1.rep - 1)
          (setResult .pass (engine s).1)) := .ofRegisters rfl
      exact ⟨u, (hengine s).trans (hnext.trans hu), hfail, hend⟩

theorem runEnd_fail {P : Params} {E : Env} {e : Byte} {s : State}
    (h : (runEnd P E e s).result = .fail) :
    ∃ u, EngineEffect (runStart s) u ∧ (runEngine P E u).2 = .fail ∧
      (runEnd P E e s).history = (runEngine P E u).1.history := by
  rw [runEnd_result] at h
  obtain ⟨u, hu, hfail, hend⟩ := repeatLoop_fail (runEngine_effect P E) h
  have hstart : EngineEffect (runStart s) (setRep (BitVec.ofNat 16 (repetitions e)) (runStart s)) :=
    .ofRegisters rfl
  exact ⟨u, hstart.trans hu, hfail, by rw [runEnd, repeatEngine, hend, setResult_history]⟩

/-- The reply Fail says that the run's verdict was Fail: the reply bytes differ (R99). -/
theorem runEnd_result_of_reply {e : Byte} {s : State}
    (h : (runBody Config.params Config.env e s).tx = s.tx ++ [Config.params.resFail]) :
    (runEnd Config.params Config.env e s).result = .fail := by
  rw [runBody_tx, List.append_cancel_left_eq] at h
  cases hv : (runEnd Config.params Config.env e s).result with
  | fail => rfl
  | pass =>
    rw [hv] at h
    exact absurd h (by decide)

/-- The events of a failing run, those of its last execution being `es` and then `tail`. -/
theorem runBody_history_of_fail {P : Params} {E : Env} {e : Byte} {s u : State} {es tail : List Event}
    (hresult : (runEnd P E e s).result = .fail) (hu : EngineEffect (runStart s) u)
    (hend : (runEnd P E e s).history = u.history ++ es ++ tail) :
    ∃ fs, (runBody P E e s).history =
      s.history ++ fs ++ tail ++ resetEvents ++ farewellEvents P .fail := by
  obtain ⟨before, -, hbefore, -⟩ := hu.events
  refine ⟨[.inh true] ++ configureEvents s.pb ++ before ++ es, ?_⟩
  rw [runBody_history (es := before ++ es ++ tail) (by rw [hend, hbefore]; simp only [List.append_assoc]),
    hresult]
  simp only [List.append_assoc]

/-! ## The mismatch of a logic run (R260) -/

/-- The events `tail` of a vector that fails: it is driven, banks are read from bank 0 on, and the last read
is the one that differs. -/
def LogicMismatch (s : State) (tail : List Event) : Prop :=
  ∃ p xs b x,
    tail = driveEvents s.pb (getVector s p) ++ List.zipWith Event.rd [.b0, .b1, .b2] xs ++ [.rd b x] ∧
    p < s.tsLength.toNat ∧ samples s.tsType (BitVec.ofNat 11 p) = true ∧ xs.length = b.index ∧
    x &&& sampleMask (s.pb.get b) ≠ (getVector s p).get b &&& sampleMask (s.pb.get b)

theorem LogicMismatch.congr {s u : State} {tail : List Event} (h : LogicMismatch u tail)
    (hpb : u.pb = s.pb) (hty : u.tsType = s.tsType) (hlen : u.tsLength = s.tsLength)
    (hvs : u.vs = s.vs) : LogicMismatch s tail := by
  simpa only [LogicMismatch, hpb, hty, hlen, getVector_congr hvs] using h

/-- The last byte read for a vector that fails, and the bank it was read from. -/
theorem VectorFails.last_read {pb : PerBank PinBank} {checked : Bool} {v : Vec} {xs : List Byte}
    (h : VectorFails pb checked v xs) :
    ∃ ys b x, List.zipWith Event.rd [.b0, .b1, .b2] xs =
        List.zipWith Event.rd [.b0, .b1, .b2] ys ++ [.rd b x] ∧
      ys.length = b.index ∧ ¬ Agrees pb v (b, x) := by
  obtain ⟨-, hlen, -, hlast⟩ := h
  match xs with
  | [] => simp at hlast
  | [x] => exact ⟨[], .b0, x, rfl, rfl, by simpa using hlast⟩
  | [x₀, x] => exact ⟨[x₀], .b1, x, rfl, rfl, by simpa using hlast⟩
  | [x₀, x₁, x] => exact ⟨[x₀, x₁], .b2, x, rfl, rfl, by simpa using hlast⟩
  | _ :: _ :: _ :: _ :: _ =>
    simp only [List.length_cons] at hlen
    omega

theorem runLogic_fail {E : Env} {s : State} (h : (runLogic E s).2 = .fail) :
    ∃ es tail, (runLogic E s).1.history = s.history ++ es ++ tail ∧ LogicMismatch s tail := by
  obtain ⟨xss, hlen, hevents, -, hfail⟩ :=
    logicLoop_spec E s.tsLength.toNat 0 (setPos 0 s) (by simpa using s.tsLength.isLt) rfl
  obtain ⟨-, ⟨xs, p⟩, hlast, hbad⟩ := hfail h
  have hp : p < xss.length := by simpa using List.snd_lt_of_mem_zipIdx (List.mem_of_getLast? hlast)
  obtain ⟨ys, b, x, hread, hindex, hdiffers⟩ := hbad.last_read
  obtain ⟨before, hzip⟩ := List.getLast?_eq_some_iff.mp hlast
  refine ⟨before.flatMap (eventsAt s), eventsAt s (xs, p), ?_, p, ys, b, x, ?_, by omega, hbad.1, hindex,
    hdiffers⟩
  · rw [runLogic, hevents, hzip, List.flatMap_append, List.flatMap_singleton, ← List.append_assoc]
    rfl
  · rw [eventsAt, vectorEvents, List.append_assoc]
    exact congrArg _ hread

/-! ## The mismatch of a memory run (R260, decision D27) -/

/-- The events `tail` at the end of a page that fails: the read that differs from the bit on `DIN`, then the
release of both strobes. -/
def MemoryMismatch (P : Params) (tail : List Event) : Prop :=
  ∃ x aH aL d,
    tail = [.rd P.memHBank x, writesH P aH true, writesL P aL true true d] ∧ x.getLsbD P.hDout ≠ d

/-- The columns at which the bytes before the last one were read, and the last one's. -/
theorem columns_zip_concat {xs : List Byte} (x : Byte) (hlen : xs.length < 256) :
    ∃ cs c, columns.zip (xs ++ [x]) = List.zip cs xs ++ [(c, x)] := by
  have hlt : xs.length < columns.length := by rw [columns_length]; exact hlen
  obtain ⟨cs, c, after, hcolumns, hcs⟩ :
      ∃ cs c after, columns = cs ++ c :: after ∧ cs.length = xs.length :=
    ⟨_, _, _, by rw [← List.drop_eq_getElem_cons hlt, List.take_append_drop],
      List.length_take_of_le hlt.le⟩
  exact ⟨cs, c, by rw [hcolumns, List.zip_append hcs, List.zip_cons_cons, List.zip_nil_right]⟩

theorem pageReadEvents_fail {P : Params} (r : Byte) {d : Bool} {xs : List Byte} (hlen : xs.length ≤ 256)
    (h : ∃ x ∈ xs.getLast?, x.getLsbD P.hDout ≠ d) :
    ∃ es tail, pageReadEvents P r d xs = es ++ tail ∧ MemoryMismatch P tail := by
  obtain ⟨x, hx, hdiffers⟩ := h
  obtain ⟨ys, rfl⟩ := List.getLast?_eq_some_iff.mp hx
  rw [List.length_append, List.length_singleton] at hlen
  obtain ⟨cs, c, hzip⟩ := columns_zip_concat x (show ys.length < 256 by omega)
  refine ⟨openRowEvents P r d ++
    (List.zip cs ys).flatMap (fun cx => readColEvents P cx.1 d cx.2) ++
    [writesL P (lowField c) true false d, writesH P (highField c) true, writesH P (highField c) false,
      .dly .cac], _, ?_, x, highField c, lowField (BitVec.ofNat 8 ((ys ++ [x]).length - 1)), d, rfl,
    hdiffers⟩
  rw [pageReadEvents, hzip, List.flatMap_append, List.flatMap_singleton]
  simp [readColEvents, closeRowEvents]

/-- The tests of pages end with the read phase of the last one. -/
theorem pagesEvents_concat (P : Params) (ps : List ((Byte × Bool) × List Byte))
    (p : (Byte × Bool) × List Byte) (din : Bool) :
    ∃ es, pagesEvents P din (ps ++ [p]) = es ++ pageReadEvents P p.1.1 p.1.2 p.2 := by
  induction ps generalizing din with
  | nil => exact ⟨pageWriteEvents P p.1.1 p.1.2 din, by simp [pagesEvents]⟩
  | cons q ps ih =>
    obtain ⟨es, hes⟩ := ih q.1.2
    exact ⟨pageWriteEvents P q.1.1 q.1.2 din ++ pageReadEvents P q.1.1 q.1.2 q.2 ++ es,
      by rw [List.cons_append, pagesEvents, hes, ← List.append_assoc]⟩

theorem runMemory_fail {P : Params} {E : Env} {s : State} (hidle : StrobesIdle s.mbus)
    (h : (runMemory P E s).2 = .fail) :
    ∃ es tail, (runMemory P E s).1.history = s.history ++ es ++ tail ∧ MemoryMismatch P tail := by
  obtain ⟨xss, hpages⟩ := runMemory_spec P E s hidle
  obtain ⟨-, p, hlast, hbad⟩ := hpages.fail h
  obtain ⟨-, hlen⟩ := hpages.lengths p.2 (List.of_mem_zip (List.mem_of_getLast? hlast)).2
  obtain ⟨before, hzip⟩ := List.getLast?_eq_some_iff.mp hlast
  obtain ⟨es, hevents⟩ := pagesEvents_concat P before p s.mbus.din
  obtain ⟨fs, tail, hread, htail⟩ := pageReadEvents_fail p.1.1 hlen hbad
  refine ⟨es ++ fs, tail, ?_, htail⟩
  rw [hpages.events, hzip, hevents, hread]
  simp only [List.append_assoc]

theorem dramEngine_fail {P : Params} {E : Env} {s : State} (hbanks : P.memLBank ≠ P.memHBank)
    (h : (dramEngine P E s).2 = .fail) :
    ∃ es tail, (dramEngine P E s).1.history = s.history ++ es ++ tail ∧ MemoryMismatch P tail := by
  obtain ⟨es, tail, hhistory, htail⟩ := runMemory_fail (memSetup_strobesIdle hbanks s) h
  refine ⟨memSetupEvents P ++ es, tail, ?_, htail⟩
  rw [dramEngine, hhistory, memSetup_eq P s hbanks]
  simp only [List.append_assoc]

/-- Settles O20: the run's last execution is the one that failed, and it ended on its mismatching read. -/
theorem failingRunTakesTheAbortPath : Obligations.FailingRunTakesTheAbortPath := by
  unfold Obligations.FailingRunTakesTheAbortPath
  intro low e s t h htx
  obtain rfl := exec_run_next low e s t h
  have hresult := runEnd_result_of_reply htx
  obtain ⟨u, hu, hfail, hend⟩ := runEnd_fail hresult
  have hty : u.tsType = s.tsType := hu.tsType.trans (runStart_tsType s)
  refine ⟨fun hlogic => ?_, fun hmemory => ?_⟩
  · rw [runEngine_of_logic _ _ (hty ▸ hlogic)] at hfail hend
    obtain ⟨es, tail, hhistory, htail⟩ := runLogic_fail hfail
    obtain ⟨fs, hevents⟩ := runBody_history_of_fail hresult hu (hend.trans hhistory)
    obtain ⟨p, xs, b, x, rfl, hmismatch⟩ := htail.congr (hu.pb.trans (runStart_pb s)) hty
      (hu.tsLength.trans (runStart_tsLength s)) (hu.vs.trans (runStart_vs s))
    refine ⟨fs, p, xs, b, x, ?_, hmismatch⟩
    rw [hevents]
    simp only [List.append_assoc]
    rfl
  · rw [runEngine_of_memory _ _ (hty.trans hmemory)] at hfail hend
    obtain ⟨es, tail, hhistory, htail⟩ := dramEngine_fail (by decide) hfail
    obtain ⟨fs, hevents⟩ := runBody_history_of_fail hresult hu (hend.trans hhistory)
    obtain ⟨x, aH, aL, d, rfl, hdiffers⟩ := htail
    exact ⟨fs, x, aH, aL, d, hevents, hdiffers⟩

end Sys2Proof.Machine
end
